-- ==== Sys2Proof/Word.lean ====
section
/-!
DEFINITION. The values the block handles: binary32 values (spec/00_scope.md rules R11 and R12), the words its
ports carry (spec/30_encoding.md rules R70 and R78) and the requests the ports take.
-/

namespace Sys2Proof

/-- A 96-bit command word of the event port (R70).  Bit 0 is the least significant (R8). -/
abbrev CommandWord := BitVec 96

/-- A 32-bit word on the sample port (R78): the bit pattern of a binary32 value. -/
abbrev SampleWord := BitVec 32

/-- The 8-bit KEY field of a command word (R70, R72). -/
abbrev Key := BitVec 8

/-- The slots of the voice slot file are indexed by the key value 0..255 (R21). -/
abbrev SlotIndex := Fin 256

/-- A binary32 value of the datapath (R11).  Subnormals are left out of the type: "No binary32 state element and
no result of a primitive is ever subnormal" (R11), and an operand that arrives subnormal reads as zero (R12).  There
is one NaN: payload and sign of a NaN are unspecified (R12, 93 U3), so the value carries none, and a bit pattern is
drawn where a NaN leaves the block.  DEDUCED, safe (log entries 1 to 3). -/
inductive F32 where
  /-- Not a number, any payload and either sign. -/
  | nan
  /-- An infinity. -/
  | inf (neg : Bool)
  /-- A signed zero. -/
  | zero (neg : Bool)
  /-- A normal value: sign, biased exponent `exp + 1` in 1..254, and fraction.  Its magnitude is
  `(2^23 + frac) * 2^exp` in units of `2^-149`. -/
  | norm (neg : Bool) (exp : Fin 254) (frac : BitVec 23)
  deriving DecidableEq, Repr, Inhabited

/-- What a port hands to the block (30_encoding.md, port table). -/
inductive Request where
  /-- A command word accepted on the event port (R70). -/
  | command (w : CommandWord)
  /-- A data-less request accepted on the sample port (R78). -/
  | sample
  /-- The reset input, asserted (R190). -/
  | reset
  deriving DecidableEq, Repr

end Sys2Proof
end

