-- ==== Sys2Proof/Machine/Float.lean ====
section
/-!
DEFINITION. The arithmetic primitives of spec/00_scope.md rules R11 to R16: exact values, the rounding `F`, the
four operations, the comparisons, FMOD, FSUM, FMEAN and i2f.  Every result is computed exactly in the rationals
and rounded once.  The cases of an infinity that R14 does not list are those of IEEE 754: PRESUMED, unsafe (log entry 15).
-/

namespace Sys2Proof

/-- The signed magnitude of a finite value in units of `2^-149` (R11); 0 for NaN and the infinities. -/
def F32.units : F32 → Int
  | .norm neg exp frac =>
    let m : Int := (2 ^ 23 + frac.toNat) * 2 ^ exp.val
    if neg then -m else m
  | _ => 0

/-- The exact value of a finite binary32 value (R11); 0 for NaN and the infinities, where no rule reads it. -/
def F32.toRat (x : F32) : ℚ := mkRat x.units (2 ^ 149)

/-- Is this the NaN (R12)? -/
def F32.isNaN : F32 → Bool
  | .nan => true
  | _ => false

/-- Is this an infinity? -/
def F32.isInfinite : F32 → Bool
  | .inf _ => true
  | _ => false

/-- Is this the infinity of the given sign? -/
def F32.isInf (neg : Bool) : F32 → Bool
  | .inf s => s == neg
  | _ => false

/-- Is this a zero of either sign? -/
def F32.isZero : F32 → Bool
  | .zero _ => true
  | _ => false

/-- Is this −0? -/
def F32.isNegZero : F32 → Bool
  | .zero s => s
  | _ => false

/-- Neither NaN nor an infinity. -/
def F32.isFinite : F32 → Bool
  | .zero _ | .norm _ _ _ => true
  | _ => false

/-- The sign bit (R11); a NaN's sign is unspecified (R12), and no rule reads this of a NaN. -/
def F32.sign : F32 → Bool
  | .nan => false
  | .inf neg | .zero neg | .norm neg _ _ => neg

/-- The value with the opposite sign. -/
def F32.neg : F32 → F32
  | .nan => .nan
  | .inf neg => .inf !neg
  | .zero neg => .zero !neg
  | .norm neg exp frac => .norm (!neg) exp frac

/-- `p / q` rounded to an integer, to nearest with ties to even (R11 step 1). -/
def roundNearestEven (p q : Nat) : Nat :=
  if 2 * (p % q) < q then p / q
  else if q < 2 * (p % q) then p / q + 1
  else if p / q % 2 = 0 then p / q else p / q + 1

/-- The value of `n` units of `2^(e - 149)`, `n` of at most 24 bits: flush a subnormal to zero and overflow to an
infinity, both of the sign given (R11). -/
def packRounded (neg : Bool) (e n : Nat) : F32 :=
  if n < 2 ^ 23 then .zero neg
  else if h : e < 254 then .norm neg ⟨e, h⟩ (BitVec.ofNat 23 (n - 2 ^ 23))
  else .inf neg

/-- R11 for a magnitude of `p / q` units of `2^-149` and a sign: round to 24 significant bits, or to whole units
below the normal range. -/
def roundMagnitude (neg : Bool) (p q : Nat) : F32 :=
  let e := Nat.log2 (p / q) - 23
  let n := roundNearestEven p (q * 2 ^ e)
  if n = 2 ^ 24 then packRounded neg (e + 1) (2 ^ 23) else packRounded neg e n

/-- `F(x)`: the binary32 value of an exact result, round to nearest even, then flush to zero (R11).  `F 0` is +0;
the sign of an exact zero result is each operation's own rule (R14). -/
def F32.F (x : ℚ) : F32 := roundMagnitude (decide (x < 0)) (x.num.natAbs * 2 ^ 149) x.den

/-- `i2f(k)`: the binary32 value of an integer (R13). -/
def F32.i2f (k : Nat) : F32 := F32.F k

/-- +0. -/
abbrev F32.posZero : F32 := .zero false

/-- `a ⊕ b` (R14). -/
def F32.add (a b : F32) : F32 :=
  if a.isNaN || b.isNaN then .nan
  else if a.isInfinite && b.isInfinite then (if a.sign = b.sign then a else .nan)
  else if a.isInfinite then a
  else if b.isInfinite then b
  else if a.toRat + b.toRat = 0 then .zero (a.isNegZero && b.isNegZero)
  else F32.F (a.toRat + b.toRat)

/-- `a ⊖ b`: the sum with the opposite of `b` (R14). -/
def F32.sub (a b : F32) : F32 := F32.add a b.neg

/-- `a ⊗ b` (R14). -/
def F32.mul (a b : F32) : F32 :=
  if a.isNaN || b.isNaN then .nan
  else if a.isInfinite && b.isZero || a.isZero && b.isInfinite then .nan
  else if a.isInfinite || b.isInfinite then .inf (a.sign ^^ b.sign)
  else if a.isZero || b.isZero then .zero (a.sign ^^ b.sign)
  else F32.F (a.toRat * b.toRat)

/-- `a ⊘ b` (R14). -/
def F32.div (a b : F32) : F32 :=
  if a.isNaN || b.isNaN then .nan
  else if a.isInfinite && b.isInfinite || a.isZero && b.isZero then .nan
  else if a.isInfinite || b.isZero then .inf (a.sign ^^ b.sign)
  else if a.isZero || b.isInfinite then .zero (a.sign ^^ b.sign)
  else F32.F (a.toRat / b.toRat)

/-- The IEEE comparison `a <= b` (R14): false when either is NaN; −0 and +0 are equal. -/
def F32.le (a b : F32) : Bool :=
  if a.isNaN || b.isNaN then false
  else if a.isInfinite && a.sign || b.isInfinite && !b.sign then true
  else if a.isInfinite || b.isInfinite then false
  else decide (a.toRat ≤ b.toRat)

/-- The IEEE comparison `a < b` (R14). -/
def F32.lt (a b : F32) : Bool := !a.isNaN && !b.isNaN && !(F32.le b a)

/-- The IEEE comparison `a == b` (R14). -/
def F32.feq (a b : F32) : Bool := F32.le a b && F32.le b a

/-- The integer part of a rational, rounded toward zero: the `trunc` of R15. -/
def ratTrunc (x : ℚ) : Int := x.num.tdiv x.den

/-- Finite and nonzero: the divisors `FMOD` is defined for (R15). -/
def F32.isNormal : F32 → Bool
  | .norm _ _ _ => true
  | _ => false

/-- `FMOD(a, c)` for a finite nonzero `c` (R15): `a − c × trunc(a / c)` exactly, with the sign of `a` when it is
zero, then passed through `F`. -/
def F32.fmod (a c : F32) (_hc : c.isNormal = true) : F32 :=
  if a.isFinite then
    let r := a.toRat - c.toRat * ratTrunc (a.toRat / c.toRat)
    if r = 0 then .zero a.sign else F32.F r
  else .nan

/-- The exact sum of a list of finite values (R16 step 4), added up in units of `2^-149`. -/
def F32.exactSum (xs : List F32) : ℚ := mkRat (xs.map F32.units).sum (2 ^ 149)

/-- The shared text of FSUM and FMEAN (R16): the exact sum of a list divided by `n`, rounded once. -/
def F32.sumOver (n : Nat) (xs : List F32) : F32 :=
  if xs.any F32.isNaN || (xs.any (F32.isInf false) && xs.any (F32.isInf true)) then .nan
  else if xs.any (F32.isInf false) then .inf false
  else if xs.any (F32.isInf true) then .inf true
  else if F32.exactSum xs = 0 then .zero (!xs.isEmpty && xs.all F32.isNegZero)
  else F32.F (F32.exactSum xs / n)

/-- `FSUM(x_1..x_n)`: the exact sum, rounded once (R16). -/
def F32.fsum (xs : List F32) : F32 := F32.sumOver 1 xs

/-- `FMEAN(x_1..x_n)` for `n >= 1`: the exact mean, rounded once (R16). -/
def F32.fmean (xs : List F32) (_h : xs ≠ []) : F32 := F32.sumOver xs.length xs

end Sys2Proof
end

