-- ==== Sys2Proof/Machine/Operands.lean ====
section
/-!
DEFINITION. Operand forms: the binary32 value of a bit pattern with subnormals read as zero, the bit pattern of a
value, and the fields of a command word (spec/30_encoding.md rules R70, R72 to R76, R80; spec/00_scope.md R11, R12).
-/

namespace Sys2Proof

/-- Is the pattern a NaN: exponent all ones, fraction nonzero (93 U3)? -/
def isNaNWord (w : SampleWord) : Bool :=
  (w.extractLsb' 23 8 == 255#8) && (w.extractLsb' 0 23 != 0#23)

/-- `DAZ(bits32(w))`: the value of the bit pattern `w`, sign bit 31, exponent bits 30:23, fraction bits 22:0 (R11).
A subnormal reads as a zero of the same sign (R12); a NaN is kept as a NaN, without payload. -/
def F32.ofBits (w : SampleWord) : F32 :=
  let neg := w.getLsbD 31
  let exp := w.extractLsb' 23 8
  let frac := w.extractLsb' 0 23
  if exp = 255#8 then (if frac = 0#23 then .inf neg else .nan)
  else if exp = 0#8 then .zero neg
  else if h : exp.toNat - 1 < 254 then .norm neg ⟨exp.toNat - 1, h⟩ frac
  else .nan

/-- Assemble a bit pattern from sign, biased exponent and fraction (R11). -/
def packBits (neg : Bool) (exp : BitVec 8) (frac : BitVec 23) : SampleWord :=
  (BitVec.ofBool neg ++ exp ++ frac : BitVec 32)

/-- The bit pattern of a value (R11).  For the NaN it is the pattern the assembler writes for `nan`, 0x7FC00000
(R81); a NaN that leaves the block gets a free pattern instead (`sampleWord`). -/
def F32.toBits : F32 → SampleWord
  | .nan => 0x7FC00000#32
  | .inf neg => packBits neg 255#8 0#23
  | .zero neg => packBits neg 0#8 0#23
  | .norm neg exp frac => packBits neg (BitVec.ofNat 8 (exp.val + 1)) frac

/-- OP, bits 7:0 (R70). -/
def opField (w : CommandWord) : BitVec 8 := w.extractLsb' 0 8

/-- KEY, bits 15:8 (R70). -/
def keyField (w : CommandWord) : Key := w.extractLsb' 8 8

/-- VEL, bits 63:32 (R70), read under R12 (R74). -/
def velField (w : CommandWord) : F32 := F32.ofBits (w.extractLsb' 32 32)

/-- FREQ, bits 95:64 (R70), read under R12 (R73). -/
def freqField (w : CommandWord) : F32 := F32.ofBits (w.extractLsb' 64 32)

/-- The slot index `k = zext_8(w[15:8])`: every key selects a slot (R72). -/
def slotIndex (key : Key) : SlotIndex := ⟨key.toNat, key.isLt⟩

end Sys2Proof
end

