-- ==== Sys2Proof/Syntax.lean ====
section
/-!
DEFINITION. The operations of the block, one constructor per row of spec/opcode_table.json.
-/

namespace Sys2Proof

/-- An operation of the block (spec/opcode_table.json; spec/30_encoding.md rules R71, R78, R81).  The seven
`RESERVED` rows are named by the lowest OP value they hold and carry the OP value, as the assembler's `RSVD <op>`
does; a row of a single value carries none. -/
inductive Instr where
  /-- `NOP`, OP 0x00 (R122). -/
  | nop
  /-- `NOTE_ON`, OP 0x01, with the operands of the KEY, FREQ and VEL fields (R120). -/
  | noteOn (key : Key) (freq vel : F32)
  /-- `NOTE_OFF`, OP 0x02, with the operand of the KEY field (R121). -/
  | noteOff (key : Key)
  /-- `RESERVED`, OP 0x03 (R77, R122). -/
  | reserved03
  /-- `RESERVED`, OP 0x04..0x07. -/
  | reserved04 (op : BitVec 8)
  /-- `RESERVED`, OP 0x08..0x0F. -/
  | reserved08 (op : BitVec 8)
  /-- `RESERVED`, OP 0x10..0x1F. -/
  | reserved10 (op : BitVec 8)
  /-- `RESERVED`, OP 0x20..0x3F. -/
  | reserved20 (op : BitVec 8)
  /-- `RESERVED`, OP 0x40..0x7F. -/
  | reserved40 (op : BitVec 8)
  /-- `RESERVED`, OP 0x80..0xFF. -/
  | reserved80 (op : BitVec 8)
  /-- `TICK`, a sample-port request (R130). -/
  | tick
  /-- `RESET`, the reset input (R190). -/
  | reset
  deriving DecidableEq, Repr

end Sys2Proof
end

