-- ==== Sys2Proof/WellFormed.lean ====
section
/-!
DEFINITION. The instructions a decoder can deliver: the OP value of a reserved command lies in its opcode-table row
(spec/opcode_table.json; spec/30_encoding.md rule R77).  No other operand has an ill-formed value: every key selects
a slot (R72) and every frequency and velocity is accepted (R73, R74).
-/

namespace Sys2Proof

/-- Is `op` in the opcode-table row with this mask and match? -/
def inRow (mask matched op : BitVec 8) : Bool := op &&& mask == matched

/-- The operand fits the row of spec/opcode_table.json that the constructor stands for. -/
def Instr.wellFormed : Instr → Bool
  | .nop => true
  | .noteOn _ _ _ => true
  | .noteOff _ => true
  | .reserved03 => true
  | .reserved04 op => inRow 0xFC#8 0x04#8 op
  | .reserved08 op => inRow 0xF8#8 0x08#8 op
  | .reserved10 op => inRow 0xF0#8 0x10#8 op
  | .reserved20 op => inRow 0xE0#8 0x20#8 op
  | .reserved40 op => inRow 0xC0#8 0x40#8 op
  | .reserved80 op => inRow 0x80#8 0x80#8 op
  | .tick => true
  | .reset => true

/-- A well-formed instruction. -/
abbrev Instr.WellFormed (i : Instr) : Prop := i.wellFormed = true

end Sys2Proof
end

