-- ==== Sys2Proof/Decode.lean ====
section
/-!
DEFINITION. Decoding of port requests, the encoder, and the host's view of the decoder
(spec/30_encoding.md rules R70 to R80; spec/opcode_table.json).
-/

namespace Sys2Proof

/-- Decode a command word (R80).  Decode selects on bits 7:0 only, and every word decodes: "No encoding is illegal"
(R77), so nothing is rejected. -/
def decodeCommand (w : CommandWord) : Instr :=
  let op := opField w
  if op = 0x00#8 then .nop
  else if op = 0x01#8 then .noteOn (keyField w) (freqField w) (velField w)
  else if op = 0x02#8 then .noteOff (keyField w)
  else if op = 0x03#8 then .reserved03
  else if inRow 0xFC#8 0x04#8 op then .reserved04 op
  else if inRow 0xF8#8 0x08#8 op then .reserved08 op
  else if inRow 0xF0#8 0x10#8 op then .reserved10 op
  else if inRow 0xE0#8 0x20#8 op then .reserved20 op
  else if inRow 0xC0#8 0x40#8 op then .reserved40 op
  else .reserved80 op

/-- The operation a port request asks for: the port decides between a command, a TICK (R78) and RESET (R190). -/
def decode : Request → Instr
  | .command w => decodeCommand w
  | .sample => .tick
  | .reset => .reset

/-- Assemble a command word from its fields; RSVD is written as zero (R70, R75). -/
def packCommand (freq vel : SampleWord) (key : Key) (op : BitVec 8) : CommandWord :=
  (freq ++ vel ++ 0#16 ++ key ++ op : BitVec 96)

/-- The request that asks for an operation (R70, R71, R78, R190); unused fields are zero (R76, R81). -/
def encode : Instr → Request
  | .nop => .command (packCommand 0#32 0#32 0#8 0x00#8)
  | .noteOn key freq vel => .command (packCommand freq.toBits vel.toBits key 0x01#8)
  | .noteOff key => .command (packCommand 0#32 0#32 key 0x02#8)
  | .reserved03 => .command (packCommand 0#32 0#32 0#8 0x03#8)
  | .reserved04 op => .command (packCommand 0#32 0#32 0#8 op)
  | .reserved08 op => .command (packCommand 0#32 0#32 0#8 op)
  | .reserved10 op => .command (packCommand 0#32 0#32 0#8 op)
  | .reserved20 op => .command (packCommand 0#32 0#32 0#8 op)
  | .reserved40 op => .command (packCommand 0#32 0#32 0#8 op)
  | .reserved80 op => .command (packCommand 0#32 0#32 0#8 op)
  | .tick => .sample
  | .reset => .reset

/-- The port request of an opcode-table row's bits.  A command row has at least its 8 OP bits, and the bits above
`nbits` are zero; the TICK row has no bits; the RESET row has the 1-bit reset input, which asks for nothing while it
is 0.  DESIGN CHOICE: the widths tell the three ports apart (log entry 11). -/
def tableRequest (nbits w : Nat) : Option Request :=
  if nbits = 0 then some .sample
  else if nbits < 8 then (if w % 2 = 1 then some .reset else none)
  else some (.command (BitVec.ofNat 96 (w % 2 ^ nbits)))

/-- What the decoder reads from an opcode-table row's bits. -/
def decodeTableWord (nbits w : Nat) : Option Instr := (tableRequest nbits w).map decode

end Sys2Proof
end

