-- ==== Sys2Proof/Config.lean ====
section
/-!
DEFINITION. The configuration record of spec/00_scope.md rule R5 and every value the spec leaves open
(spec/93_implementation_defined.md), as constants without a body.
-/

namespace Sys2Proof

/-- `RES_LEN`, the length of the resonance buffer: 1024 for this hardware (R5, 92 D7). -/
abbrev resLen : Nat := 1024

/-- `NUM_SLOTS`, one slot per value of the 8-bit key code (R5, 92 D14). -/
abbrev numSlots : Nat := 256

/-- The numeric fields of `CFG` (R5). -/
structure Params where
  /-- `SR`, sample rate in Hz. -/
  sr : F32
  /-- `ATTACK_S`, attack time in seconds. -/
  attackS : F32
  /-- `DECAY_S`, decay time in seconds. -/
  decayS : F32
  /-- `SUSTAIN`, sustain level. -/
  sustain : F32
  /-- `RELEASE_S`, release time in seconds. -/
  releaseS : F32
  /-- `LATENCY`, cycles per operation: no rule depends on it (R202).  DESIGN CHOICE, safe (log entry 14). -/
  latency : Nat
  deriving DecidableEq, Repr, Inhabited

/-- `CFG`: the record the block is built with, fixed while it runs (R5, R32). -/
structure Cfg extends Params where
  /-- `SIN`, the sine unit (R17). -/
  sin : F32 → F32
  deriving Inhabited

/-- One of the block's two request ports (R10, R179). -/
inductive Port where
  /-- The event port, driven by the event host. -/
  | event
  /-- The sample port, driven by the sample host. -/
  | sample
  deriving DecidableEq, Repr, Inhabited

/-- The configuration the block happens to be built with, legal or not: OPEN (R5, 93 U4, U5, U7).  The machine uses
`Config.cfg`, which is this record when it is legal.  DEDUCED, safe (log entry 4). -/
opaque Config.rawCfg : Cfg

/-- A free bit pattern for the `n`-th drawn NaN (R12, R146, 93 U3).  DEDUCED, safe (log entry 2). -/
opaque Config.freeNaN : Nat → SampleWord

/-- The port granted on the first contention after reset: the round-robin pointer's start is open (R57).
DESIGN CHOICE, safe (log entry 8). -/
opaque Config.freeGrant : Nat → Port

/-- Whether a response already produced survives a reset: the host's handshake decides (R190, 93 U13).
DESIGN CHOICE, safe (log entry 9). -/
opaque Config.freeResponseKept : Nat → Bool

/-- `ADAPTER_VEL0_IS_OFF`: whether the host adapter turns velocity 0 into a note-off (R162, 93 U16).
DEDUCED, safe (log entry 17). -/
opaque Config.adapterVel0IsOff : Bool

end Sys2Proof
end

