-- ==== Sys2Proof/Machine/Configuration.lean ====
section
/-!
DEFINITION. The fixed constants (spec/00_scope.md rule R7), what makes a configuration legal (R6), what may be
assumed of the sine unit (R17), and the configuration the machine runs with.
-/

namespace Sys2Proof

/-- `TWO_PI` (R7). -/
def c_TWO_PI : F32 := F32.ofBits 0x40C90FDB#32
/-- `ONE` (R7). -/
def c_ONE : F32 := F32.ofBits 0x3F800000#32
/-- `H2_GAIN` (R7). -/
def c_H2_GAIN : F32 := F32.ofBits 0x3E99999A#32
/-- `H3_GAIN` (R7). -/
def c_H3_GAIN : F32 := F32.ofBits 0x3DCCCCCD#32
/-- `BR_SCALE` (R7). -/
def c_BR_SCALE : F32 := F32.ofBits 0x3F000000#32
/-- `BR_OFFSET` (R7). -/
def c_BR_OFFSET : F32 := F32.ofBits 0x3F000000#32
/-- `KEY_DIV` (R7). -/
def c_KEY_DIV : F32 := F32.ofBits 0x42FE0000#32
/-- `KEY_TILT` (R7). -/
def c_KEY_TILT : F32 := F32.ofBits 0x3E99999A#32
/-- `RES_FACTOR` (R7). -/
def c_RES_FACTOR : F32 := F32.ofBits 0x3D4CCCCD#32
/-- `LPF_ALPHA` (R7). -/
def c_LPF_ALPHA : F32 := F32.ofBits 0x3DCCCCCD#32
/-- `LPF_BETA`, which is `ONE ⊖ LPF_ALPHA` (R7). -/
def c_LPF_BETA : F32 := F32.ofBits 0x3F666666#32
/-- `MASTER_GAIN` (R7). -/
def c_MASTER_GAIN : F32 := F32.ofBits 0x3E99999A#32
/-- `REL_THRESHOLD` (R7). -/
def c_REL_THRESHOLD : F32 := F32.ofBits 0x3A83126F#32
/-- The small integer 2 of R136 (R13). -/
def c_TWO : F32 := F32.i2f 2
/-- The small integer 3 of R136 (R13). -/
def c_THREE : F32 := F32.i2f 3

/-- Positive, finite and normal (R6). -/
def F32.isPositiveNormal : F32 → Bool
  | .norm false _ _ => true
  | _ => false

/-- A legal configuration (R6).  `RES_LEN >= 1` holds of this hardware's 1024. -/
def Params.legal (p : Params) : Bool :=
  p.sr.isPositiveNormal
  && p.attackS.isPositiveNormal && p.decayS.isPositiveNormal && p.releaseS.isPositiveNormal
  && (p.attackS.mul p.sr).isNormal && (p.decayS.mul p.sr).isNormal && (p.releaseS.mul p.sr).isNormal
  && F32.le F32.posZero p.sustain && F32.le p.sustain c_ONE

/-- The sine unit made to have the properties a model may assume (R17 (b), (c), (d)) and no others: a function that
has them is unchanged, and a value that breaks (d) is replaced by +0.  DEDUCED, safe (log entry 5). -/
def lawfulSine (sin : F32 → F32) : F32 → F32
  | .nan => .nan
  | .inf _ => .nan
  | .zero neg => .zero neg
  | x => if F32.le c_ONE.neg (sin x) && F32.le (sin x) c_ONE then sin x else F32.posZero

/-- The source's sample rate with the envelope times of the spec's test configuration TC1 (95_test_vectors.md).  It
stands only where the built configuration is illegal, which R6 refuses.  DEDUCED, safe (log entry 4). -/
def Params.fallback : Params :=
  { sr := F32.ofBits 0x472C4400#32
    attackS := F32.ofBits 0x3C23D70A#32
    decayS := F32.ofBits 0x3DCCCCCD#32
    sustain := F32.ofBits 0x3F333333#32
    releaseS := F32.ofBits 0x3DCCCCCD#32
    latency := 0 }

/-- A legal configuration from any record: a legal record with a lawful sine is unchanged (R6, R17, R173). -/
def Cfg.legalized (c : Cfg) : Cfg :=
  { toParams := if c.toParams.legal then c.toParams else Params.fallback
    sin := lawfulSine c.sin }

/-- The configuration of the machine: any legal one, and nothing more is known of it (R5, R6, R17). -/
def Config.cfg : Cfg := Config.rawCfg.legalized

/-- The word a NaN leaves the block with: any NaN pattern (R146, 93 U3).  The free pattern is used when it is a NaN.
DEDUCED, safe (log entry 2). -/
def nanWord (n : Nat) : SampleWord :=
  if isNaNWord (Config.freeNaN n) then Config.freeNaN n else 0x7FC00000#32

/-- The sample port's word for a value (R78, R146): its bit pattern, with a free pattern for a NaN. -/
def sampleWord (n : Nat) : F32 → SampleWord
  | .nan => nanWord n
  | x => x.toBits

end Sys2Proof
end

