-- ==== Sys2Proof/Machine/State.lean ====
section
/-!
DEFINITION. The state of the block (spec/10_state.md rule R20), of its ports and arbiter (R35 (b); spec/20_memory.md
rules R55 to R58; spec/60_exceptions.md rule R175) and of the hosts that drive them; the reasons a step can stop;
the state after reset (R37).
-/

namespace Sys2Proof.Machine

/-- `ENV_STATE`: the five states of the envelope; the codes 5, 6 and 7 are never written (R26, 93 U11). -/
inductive EnvState where
  /-- Code 0. -/
  | idle
  /-- Code 1. -/
  | attack
  /-- Code 2. -/
  | decay
  /-- Code 3. -/
  | sustain
  /-- Code 4. -/
  | release
  deriving DecidableEq, Repr

/-- The fields of one valid slot (R20). -/
structure Voice where
  /-- `FREQ[k]` (R23). -/
  freq : F32
  /-- `VEL[k]` (R24). -/
  vel : F32
  /-- `PHASE[k]` (R25). -/
  phase : F32
  /-- `ENV_STATE[k]` (R26). -/
  envState : EnvState
  /-- `ENV_AMP[k]` (R27). -/
  envAmp : F32
  deriving DecidableEq, Repr

/-- Something the outside world does at a port between two steps of the block (R10, R179). -/
inductive Arrival where
  /-- The event host presents a command word (R70). -/
  | command (w : CommandWord)
  /-- The sample host presents a TICK request (R78). -/
  | sampleRequest
  /-- The reset source sets the level of the reset input (R190). -/
  | resetLevel (asserted : Bool)
  deriving DecidableEq, Repr

/-- The faults a step can end in: none.  "No operation raises an exception" (R170), so the type has no constructor,
nothing raises one, and no fault hides a behaviour of the block. -/
inductive Fault where
  deriving DecidableEq, Repr

/-- The refusals a step can end in. -/
inductive Refusal where
  /-- An operation without a meaning in the model, rejected by its arm of `exec`.  Safe: the model stops where the
  block goes on.  No arm raises it: every operation has its meaning. -/
  | notModelled (mnemonic : String)
  deriving DecidableEq, Repr

/-- The state.  `slots`, `resBuf` and `lpfPrev` are the block's own (R20); the rest is the ports, the arbiter, the
outside world's next actions, and the model's index into the free values. -/
structure State where
  /-- The voice slot file: slot `k` holds a voice exactly when `VALID[k] = 1` (R21, R22), and the other fields of an
  invalid slot are absent (R28).  DEDUCED, safe (log entry 6). -/
  slots : Vector (Option Voice) numSlots
  /-- `RES_BUF`, oldest entry first (R29). -/
  resBuf : Vector F32 resLen
  /-- `LPF_PREV` (R30). -/
  lpfPrev : F32
  /-- Command words held at the event port, in the order presented (R55).  DESIGN CHOICE, safe (log entry 18). -/
  eventPort : List CommandWord
  /-- How many TICK requests are held at the sample port (R78). -/
  samplePort : Nat
  /-- The level of the reset input: asserted or not (R190). -/
  resetLine : Bool
  /-- The arbiter's round-robin pointer: the port granted last since reset (R35 (b), R57).  DESIGN CHOICE,
  safe (log entry 8). -/
  lastGrant : Option Port
  /-- The response last delivered on the sample port (R58, R78).  DESIGN CHOICE, safe (log entry 9). -/
  sampleOut : Option SampleWord
  /-- What the outside world will do, one round after each step (R10, R56).  DESIGN CHOICE, safe (log entry 7). -/
  arrivals : List (List Arrival)
  /-- The model's own: how many free values have been drawn so far.  DESIGN CHOICE, safe (log entry 10). -/
  draws : Nat
  deriving DecidableEq, Repr

/-- The slot file with every `VALID[k] = 0` (R37). -/
def emptySlots : Vector (Option Voice) numSlots := Vector.replicate numSlots none

/-- `RES_LEN` entries of +0 (R37). -/
def zeroBuffer : Vector F32 resLen := Vector.replicate resLen (.zero false)

/-- The machine right after reset (R37): no voice, `RES_BUF` and `LPF_PREV` +0, no request in progress, reset
released (R193), and an outside world that does nothing.  DESIGN CHOICE, safe (log entries 9, 10, 13 and 21). -/
def State.reset : State :=
  { slots := emptySlots
    resBuf := zeroBuffer
    lpfPrev := .zero false
    eventPort := []
    samplePort := 0
    resetLine := false
    lastGrant := none
    sampleOut := none
    arrivals := []
    draws := 0 }

end Sys2Proof.Machine
end

