-- ==== Sys2Proof/Machine/Ops.lean ====
section
/-!
DEFINITION. The named operations over the slot file, the resonance buffer and the ports
(spec/10_state.md rules R21, R22; spec/20_memory.md rules R55 to R63; spec/60_exceptions.md rule R175).
Taking an exception and returning from one have no operation: the block has neither (R170, R176, R177).
-/

namespace Sys2Proof.Machine

/-- Slot `k` of the slot file: `some` voice exactly when `VALID[k] = 1` (R21, R22). -/
def State.slot (s : State) (k : SlotIndex) : Option Voice := s.slots[k]

/-- Write slot `k` of the slot file and no other (R21). -/
def State.setSlot (s : State) (k : SlotIndex) (v : Option Voice) : State :=
  { s with slots := s.slots.set k v }

/-- `VALID[k]` (R22). -/
def State.valid (s : State) (k : SlotIndex) : Bool := (s.slot k).isSome

/-- `RES_PUSH(r)`: the oldest entry is dropped and `r` becomes the newest (R62). -/
def resPush (buf : Vector F32 resLen) (r : F32) : Vector F32 resLen :=
  ⟨(buf.toList.tail ++ [r]).toArray, by simp⟩

/-- `RES_MEAN`: the mean of all `RES_LEN` entries, rounded once (R63). -/
def resMean (buf : Vector F32 resLen) : F32 :=
  F32.fmean buf.toList (by intro h; have := congrArg List.length h; simp at this)

/-- Grant the event port: its oldest command word is accepted (R55, R58). -/
def State.grantEvent (s : State) (w : CommandWord) (ws : List CommandWord) : Option Request × State :=
  (some (.command w), { s with eventPort := ws, lastGrant := some .event })

/-- Grant the sample port: one of its requests is accepted (R78). -/
def State.grantSample (s : State) (n : Nat) : Option Request × State :=
  (some .sample, { s with samplePort := n, lastGrant := some .sample })

/-- The arbiter's choice when both ports hold a request: the port not granted last (R57).  Where no port has been
granted since reset the choice is free, and one free value is used. -/
def State.contended (s : State) : Port × State :=
  match s.lastGrant with
  | some .event => (.sample, s)
  | some .sample => (.event, s)
  | none => (Config.freeGrant s.draws, { s with draws := s.draws + 1 })

/-- The next request the block takes, by priority (R175): reset while it is asserted, then the ports, round-robin
when both hold a request (R57).  None when nothing is held: the block is idle (R183). -/
def State.grant (s : State) : Option Request × State :=
  if s.resetLine then (some .reset, s)
  else
    match s.eventPort, s.samplePort with
    | [], 0 => (none, s)
    | w :: ws, 0 => s.grantEvent w ws
    | [], n + 1 => s.grantSample n
    | w :: ws, n + 1 =>
      match s.contended with
      | (.event, s') => s'.grantEvent w ws
      | (.sample, s') => s'.grantSample n

/-- One action of the outside world (R10): a presented request waits behind those presented before it on the same
port (R55). -/
def State.arriveOne (s : State) : Arrival → State
  | .command w => { s with eventPort := s.eventPort ++ [w] }
  | .sampleRequest => { s with samplePort := s.samplePort + 1 }
  | .resetLevel b => { s with resetLine := b }

/-- The outside world's next round of actions takes place, between two operations of the block (R53, R56). -/
def State.arrive (s : State) : State :=
  match s.arrivals with
  | [] => s
  | round :: rest => round.foldl State.arriveOne { s with arrivals := rest }

/-- Place a request where the next grant takes it: at the head of its port, which is made the arbiter's next choice,
with the reset input at the level the request needs. -/
def State.place (s : State) : Request → State
  | .command w =>
    { s with eventPort := w :: s.eventPort, lastGrant := some .sample, resetLine := false }
  | .sample =>
    { s with samplePort := s.samplePort + 1, lastGrant := some .event, resetLine := false }
  | .reset => { s with resetLine := true }

/-- Follow an operation's next state by the outside world's next round. -/
def thenArrive : Host.Outcome State Fault Refusal → Host.Outcome State Fault Refusal
  | .next s => .next s.arrive
  | .fault r => .fault r
  | .refused r => .refused r

end Sys2Proof.Machine
end

