-- ==== Sys2Proof/Machine/Envelope.lean ====
section
/-!
DEFINITION. The ADSR envelope generator: the increments and the internal operations ENV_TRIGGER, ENV_RELEASE and
ENV_PROCESS (spec/40_envelope.md rules R100 to R108).  That R100 calls two increments positive is not used: DEDUCED, safe
(log entry 19).
-/

namespace Sys2Proof.Machine

/-- `ATK_INC` (R100). -/
def atkInc (cfg : Cfg) : F32 := c_ONE.div (cfg.attackS.mul cfg.sr)

/-- `DEC_INC` (R100). -/
def decInc (cfg : Cfg) : F32 := (c_ONE.sub cfg.sustain).div (cfg.decayS.mul cfg.sr)

/-- `REL_K` (R100). -/
def relK (cfg : Cfg) : F32 := c_ONE.div (cfg.releaseS.mul cfg.sr)

/-- ENV_TRIGGER: amplitude +0, state ATTACK, whatever they were (R101). -/
def envTrigger (v : Voice) : Voice := { v with envAmp := F32.posZero, envState := .attack }

/-- ENV_RELEASE: RELEASE from any state but IDLE, amplitude kept (R102). -/
def envRelease (v : Voice) : Voice :=
  if v.envState = .idle then v else { v with envState := .release }

/-- ENV_PROCESS, IDLE arm (R104). -/
def envIdle (v : Voice) : Voice × F32 := (v, F32.posZero)

/-- ENV_PROCESS, ATTACK arm (R105). -/
def envAttack (cfg : Cfg) (v : Voice) : Voice × F32 :=
  let x := v.envAmp.add (atkInc cfg)
  if F32.le c_ONE x then ({ v with envAmp := c_ONE, envState := .decay }, c_ONE)
  else ({ v with envAmp := x }, x)

/-- ENV_PROCESS, DECAY arm (R106). -/
def envDecay (cfg : Cfg) (v : Voice) : Voice × F32 :=
  let x := v.envAmp.sub (decInc cfg)
  if F32.le x cfg.sustain then ({ v with envAmp := cfg.sustain, envState := .sustain }, cfg.sustain)
  else ({ v with envAmp := x }, x)

/-- ENV_PROCESS, SUSTAIN arm (R107). -/
def envSustain (cfg : Cfg) (v : Voice) : Voice × F32 := (v, cfg.sustain)

/-- The amplitude one release step computes before the threshold test (R108). -/
def releaseStep (cfg : Cfg) (amp : F32) : F32 := amp.sub (amp.mul (relK cfg))

/-- ENV_PROCESS, RELEASE arm (R108). -/
def envReleaseArm (cfg : Cfg) (v : Voice) : Voice × F32 :=
  let x := releaseStep cfg v.envAmp
  if F32.lt x c_REL_THRESHOLD then ({ v with envAmp := F32.posZero, envState := .idle }, F32.posZero)
  else ({ v with envAmp := x }, x)

/-- ENV_PROCESS: one sample tick of a slot's envelope; the voice after it and the amplitude returned (R103). -/
def envProcess (cfg : Cfg) (v : Voice) : Voice × F32 :=
  match v.envState with
  | .idle => envIdle v
  | .attack => envAttack cfg v
  | .decay => envDecay cfg v
  | .sustain => envSustain cfg v
  | .release => envReleaseArm cfg v

end Sys2Proof.Machine
end

