-- ==== Sys2Proof/Machine/Events.lean ====
section
/-!
DEFINITION. The event-port operations NOTE_ON, NOTE_OFF, NOP and the reserved commands
(spec/41_note_events.md rules R120 to R122).
-/

namespace Sys2Proof.Machine

/-- A newly allocated voice: phase +0, envelope IDLE at +0 before it is triggered (R120).  DEDUCED, safe
(log entry 20). -/
def newVoice (freq vel : F32) : Voice :=
  { freq := freq, vel := vel, phase := F32.posZero, envState := .idle, envAmp := F32.posZero }

/-- `NOTE_ON` (R120): slot `key` holds a new voice in ATTACK, whatever it held. -/
def execNoteOn (key : Key) (freq vel : F32) (s : State) : Host.Outcome State Fault Refusal :=
  .next (s.setSlot (slotIndex key) (some (envTrigger (newVoice freq vel))))

/-- `NOTE_OFF` (R121): release the voice at `key`, or nothing where there is none. -/
def execNoteOff (key : Key) (s : State) : Host.Outcome State Fault Refusal :=
  match s.slot (slotIndex key) with
  | some v => .next (s.setSlot (slotIndex key) (some (envRelease v)))
  | none => .next s

/-- A command without effect: it completes on acceptance and no state changes (R122). -/
def noEffect (s : State) : Host.Outcome State Fault Refusal := .next s

/-- `NOP` (R122). -/
def execNop (s : State) : Host.Outcome State Fault Refusal := noEffect s

/-- `RESERVED`, OP 0x03: performed as NOP (R77, R122). -/
def execReserved03 (s : State) : Host.Outcome State Fault Refusal := noEffect s

/-- `RESERVED`, OP 0x04..0x07: performed as NOP (R77, R122). -/
def execReserved04 (s : State) : Host.Outcome State Fault Refusal := noEffect s

/-- `RESERVED`, OP 0x08..0x0F: performed as NOP (R77, R122). -/
def execReserved08 (s : State) : Host.Outcome State Fault Refusal := noEffect s

/-- `RESERVED`, OP 0x10..0x1F: performed as NOP (R77, R122). -/
def execReserved10 (s : State) : Host.Outcome State Fault Refusal := noEffect s

/-- `RESERVED`, OP 0x20..0x3F: performed as NOP (R77, R122). -/
def execReserved20 (s : State) : Host.Outcome State Fault Refusal := noEffect s

/-- `RESERVED`, OP 0x40..0x7F: performed as NOP (R77, R122). -/
def execReserved40 (s : State) : Host.Outcome State Fault Refusal := noEffect s

/-- `RESERVED`, OP 0x80..0xFF: performed as NOP (R77, R122). -/
def execReserved80 (s : State) : Host.Outcome State Fault Refusal := noEffect s

end Sys2Proof.Machine
end

