-- ==== Sys2Proof/Machine/Oscillator.lean ====
section
/-!
DEFINITION. The oscillator bank and waveform generator of one voice (spec/42_generate_sample.md rules R131 to R140).
-/

namespace Sys2Proof.Machine

/-- `TWO_PI` is a divisor FMOD is defined for (R15). -/
theorem twoPi_isNormal : c_TWO_PI.isNormal = true := by decide +kernel

/-- `PINC(k)`, the phase increment of a voice of frequency `freq` (R132). -/
def pinc (cfg : Cfg) (freq : F32) : F32 := (c_TWO_PI.mul freq).div cfg.sr

/-- The remainder brought up into range when negative (R134, the `r < 0` line). -/
def wrapNegative (r : F32) : F32 := if F32.lt r F32.posZero then r.add c_TWO_PI else r

/-- The remainder that rounded up to `TWO_PI` becomes +0 (R134, the `r >= TWO_PI` line). -/
def wrapTop (r : F32) : F32 := if F32.le c_TWO_PI r then F32.posZero else r

/-- A zero remainder becomes +0 (R134, the `r == 0` line). -/
def wrapZero (r : F32) : F32 := if F32.feq r F32.posZero then F32.posZero else r

/-- `WRAP(x)`: the phase wrapped into [+0, `TWO_PI`), or NaN (R134). -/
def wrap (x : F32) : F32 :=
  if x.isFinite then wrapZero (wrapTop (wrapNegative (x.fmod c_TWO_PI twoPi_isNormal)))
  else .nan

/-- The phase after one advance (R133). -/
def nextPhase (cfg : Cfg) (v : Voice) : F32 := wrap (v.phase.add (pinc cfg v.freq))

/-- The brightness of a velocity (R135). -/
def brightness (vel : F32) : F32 := (vel.mul c_BR_SCALE).add c_BR_OFFSET

/-- The raw waveform from the brightness `b` and the three oscillator outputs (R137). -/
def waveform (b s1 s2 s3 : F32) : F32 :=
  let t2 := (c_H2_GAIN.mul b).mul s2
  let t3 := (c_H3_GAIN.mul (b.mul b)).mul s3
  (s1.add t2).add t3

/-- The raw waveform of a voice of velocity `vel` at the phase `p` (R136, R137). -/
def voiceWave (cfg : Cfg) (vel p : F32) : F32 :=
  waveform (brightness vel) (cfg.sin p) (cfg.sin (c_TWO.mul p)) (cfg.sin (c_THREE.mul p))

/-- The key-scale factor of slot `k` (R138). -/
def keyScale (k : SlotIndex) : F32 := c_ONE.sub (((F32.i2f k.val).div c_KEY_DIV).mul c_KEY_TILT)

/-- The voice gain (R139). -/
def voiceGain (k : SlotIndex) (vel a : F32) : F32 := (a.mul vel).mul (keyScale k)

/-- `VOICE_OUT(k, a)`: the contribution of a voice at its new phase `p` (R140). -/
def voiceOut (cfg : Cfg) (k : SlotIndex) (vel p a : F32) : F32 :=
  (voiceWave cfg vel p).mul (voiceGain k vel a)

/-- The removal test of step 1: amplitude ±0 returned and the envelope in IDLE (R131). -/
def removalTest (v : Voice) (a : F32) : Bool := F32.feq a F32.posZero && v.envState == .idle

/-- One voice's part of a TICK: `none` when it is marked for removal, else the voice after it and its contribution
(R131 to R140). -/
def voiceTick (cfg : Cfg) (k : SlotIndex) (v : Voice) : Option (Voice × F32) :=
  let e := envProcess cfg v
  if removalTest e.1 e.2 then none
  else
    let p := nextPhase cfg e.1
    some ({ e.1 with phase := p }, voiceOut cfg k e.1.vel p e.2)

end Sys2Proof.Machine
end

