-- ==== Sys2Proof/Machine/Mixer.lean ====
section
/-!
DEFINITION. The voice mixer, the shared resonance, the low-pass filter and the master gain
(spec/42_generate_sample.md rules R141 to R147), and the whole TICK (R130).
-/

namespace Sys2Proof.Machine

/-- What a TICK does with each slot in turn (R130): `none` for an invalid or a marked slot, else the voice after the
tick and its contribution. -/
def slotTicks (cfg : Cfg) (slots : Vector (Option Voice) numSlots) : List (Option (Voice × F32)) :=
  List.zipWith (fun k slot => slot.bind (voiceTick cfg k)) (List.finRange numSlots) slots.toList

/-- The slot file after a TICK: every valid slot advanced once, and the marked ones removed (R130, R142). -/
def tickSlots (cfg : Cfg) (slots : Vector (Option Voice) numSlots) : Vector (Option Voice) numSlots :=
  ⟨((slotTicks cfg slots).map (Option.map Prod.fst)).toArray, by simp [slotTicks]⟩

/-- The multiset `C`: the contributions of the valid slots not marked (R130, R141). -/
def contributions (cfg : Cfg) (slots : Vector (Option Voice) numSlots) : List F32 :=
  (slotTicks cfg slots).filterMap (Option.map Prod.snd)

/-- The mixed sample (R141). -/
def mixed (cfg : Cfg) (slots : Vector (Option Voice) numSlots) : F32 := F32.fsum (contributions cfg slots)

/-- `RES_BUF` after a TICK with the mixed sample `m` (R143). -/
def tickBuffer (buf : Vector F32 resLen) (m : F32) : Vector F32 resLen := resPush buf (c_RES_FACTOR.mul m)

/-- `m2`: the mixed sample with the mean of the buffer after the push (R144). -/
def withResonance (buf : Vector F32 resLen) (m : F32) : F32 := m.add (resMean (tickBuffer buf m))

/-- One step of the low-pass filter (R145). -/
def lowPass (m2 prev : F32) : F32 := (c_LPF_ALPHA.mul m2).add (c_LPF_BETA.mul prev)

/-- The filter output `y` of a TICK (R130, R145). -/
def filterOutput (cfg : Cfg) (s : State) : F32 :=
  lowPass (withResonance s.resBuf (mixed cfg s.slots)) s.lpfPrev

/-- The sample a TICK returns, before it becomes a word: not clamped (R146, R147). -/
def sampleValue (cfg : Cfg) (s : State) : F32 := c_MASTER_GAIN.mul (filterOutput cfg s)

/-- TICK under a configuration (R130).  One free value is used up, for the case that the sample is a NaN (R146). -/
def tickWith (cfg : Cfg) (s : State) : State :=
  { s with
    slots := tickSlots cfg s.slots
    resBuf := tickBuffer s.resBuf (mixed cfg s.slots)
    lpfPrev := filterOutput cfg s
    sampleOut := some (sampleWord s.draws (sampleValue cfg s))
    draws := s.draws + 1 }

end Sys2Proof.Machine
end

