-- ==== Sys2Proof/Machine/Sample.lean ====
section
/-!
DEFINITION. The sample-port operation TICK and the reset operation RESET
(spec/42_generate_sample.md rule R130; spec/70_reset_and_hazards.md rule R190).
-/

namespace Sys2Proof.Machine

/-- `TICK` (R130) under the machine's configuration. -/
def execTick (s : State) : Host.Outcome State Fault Refusal := .next (tickWith Config.cfg s)

/-- `RESET` (R190): no voice, `RES_BUF` and `LPF_PREV` +0, the arbiter at its start.  Requests held at the ports stay
pending, and a response already produced is kept or dropped by a free value (93 U13). -/
def resetState (s : State) : State :=
  { s with
    slots := emptySlots
    resBuf := zeroBuffer
    lpfPrev := F32.posZero
    lastGrant := none
    sampleOut := if Config.freeResponseKept s.draws then s.sampleOut else none
    draws := s.draws + 1 }

/-- `RESET` (R190). -/
def execReset (s : State) : Host.Outcome State Fault Refusal := .next (resetState s)

end Sys2Proof.Machine
end

