-- ==== Sys2Proof/Machine/Step.lean ====
section
/-!
DEFINITION. One step of the machine: the block takes one request and performs it whole, then the outside world's next
round takes place (spec/20_memory.md rules R53 to R58; spec/60_exceptions.md rules R175 and R183).
-/

namespace Sys2Proof.Machine

/-- One step (R53, R54).  With no request held and reset released the block is idle and keeps its state (R183). -/
def step (s : State) : Host.Outcome State Fault Refusal :=
  match s.grant with
  | (none, s') => .next s'.arrive
  | (some r, s') => thenArrive (exec (decode r) s')

/-- `s` with an opcode-table row's operation placed at its port, so that the next step performs it; unchanged where the
row's bits ask for nothing.  DESIGN CHOICE, safe (log entries 11 and 12). -/
def State.withFetchWord (s : State) (nbits w : Nat) : State :=
  match tableRequest nbits w with
  | some r => s.place r
  | none => s

end Sys2Proof.Machine
end

