-- ==== Sys2Proof/Machine/Adapter.lean ====
section
/-!
DEFINITION. The host side: the event adapter's conversions (spec/43_host_adapter.md rules R160 to R162) and the
assembler's operations and pseudo-instructions (spec/30_encoding.md rules R81 and R82).  They bind the host; the
block never evaluates them.  DEDUCED, safe (log entry 17).
-/

namespace Sys2Proof.Machine

/-- The largest `n` with `acc <= n < acc + 2 ^ bits` and `n ^ k <= t`, found bit by bit; `acc ^ k <= t`. -/
def rootBits (k t : Nat) : Nat → Nat → Nat
  | 0, acc => acc
  | bits + 1, acc =>
    if (acc + 2 ^ bits) ^ k ≤ t then rootBits k t bits (acc + 2 ^ bits) else rootBits k t bits acc

/-- The 12th power of `440 × 2^((m − 69)/12) × 2^40`. -/
def freqPower (m : Fin 128) : Nat := 440 ^ 12 * 2 ^ (411 + m.val)

/-- The whole part of `440 × 2^((m − 69)/12) × 2^40`. -/
def freqRoot (m : Fin 128) : Nat := rootBits 12 (freqPower m) 56 0

/-- `FREQ_OF(m) = F(440 × 2^((m − 69)/12))`, the exact real value rounded once (R161).  The real value lies in units
of `2^-40` between `freqRoot m` and its successor; it is rounded from `freqRoot m` where it equals it, and from the
point halfway up where it does not, which rounds alike because every rounding boundary is a multiple of `2^-40`. -/
def freqOf (m : Fin 128) : F32 :=
  if freqRoot m ^ 12 = freqPower m then F32.F (mkRat (freqRoot m) (2 ^ 40))
  else F32.F (mkRat (2 * freqRoot m + 1) (2 ^ 41))

/-- `VEL_OF(v7) = F(v7 / 127)` (R162). -/
def velOf (v7 : Fin 128) : F32 := F32.F (mkRat v7.val 127)

/-- The KEY field of a MIDI key: `zext_8(m)` (R160). -/
def midiKey (m : Fin 128) : Key := BitVec.ofNat 8 m.val

/-- What the event adapter sends for a MIDI note-on; `ADAPTER_VEL0_IS_OFF` decides about velocity 0 (R160 to R162). -/
def adapterNoteOn (m v7 : Fin 128) : Instr :=
  if Config.adapterVel0IsOff && v7 == 0 then .noteOff (midiKey m)
  else .noteOn (midiKey m) (freqOf m) (velOf v7)

/-- What the event adapter sends for a MIDI note-off (R160). -/
def adapterNoteOff (m : Fin 128) : Instr := .noteOff (midiKey m)

/-- A `<freq>` or `<vel>` operand of the assembler (R81). -/
inductive AsmNumber where
  /-- A decimal literal of this exact value. -/
  | decimal (x : ℚ)
  /-- `f32:0xHHHHHHHH`, a bit pattern. -/
  | pattern (w : SampleWord)
  /-- `inf` -/
  | inf
  /-- `-inf` -/
  | negInf
  /-- `nan` -/
  | nan
  deriving DecidableEq, Repr

/-- A line of the assembler (R81) or one of its pseudo-instructions (R82). -/
inductive AsmLine where
  /-- `NOTE_ON <key>, <freq>, <vel>` -/
  | noteOn (key : Key) (freq vel : AsmNumber)
  /-- `NOTE_OFF <key>` -/
  | noteOff (key : Key)
  /-- `NOP` -/
  | nop
  /-- `RSVD <op>` -/
  | rsvd (op : BitVec 8)
  /-- `TICK` -/
  | tick
  /-- `RESET` -/
  | reset
  /-- `MIDI_ON <m>, <v7>` -/
  | midiOn (m v7 : Fin 128)
  /-- `MIDI_OFF <m>` -/
  | midiOff (m : Fin 128)
  /-- `TICKS <n>` -/
  | ticks (n : Nat)
  deriving DecidableEq, Repr

/-- The bit pattern an operand is assembled to (R81). -/
def asmWord : AsmNumber → SampleWord
  | .decimal x => (F32.F x).toBits
  | .pattern w => w
  | .inf => 0x7F800000#32
  | .negInf => 0xFF800000#32
  | .nan => 0x7FC00000#32

/-- `RSVD` takes an op in 0x03..0xFF (R81). -/
def AsmLine.valid : AsmLine → Bool
  | .rsvd op => decide (3 ≤ op.toNat)
  | _ => true

/-- The port requests a line stands for, in order (R81, R82); unused fields are zero. -/
def assemble : AsmLine → List Request
  | .noteOn key freq vel => [.command (packCommand (asmWord freq) (asmWord vel) key 0x01#8)]
  | .noteOff key => [.command (packCommand 0#32 0#32 key 0x02#8)]
  | .nop => [.command (packCommand 0#32 0#32 0#8 0x00#8)]
  | .rsvd op => [.command (packCommand 0#32 0#32 0#8 op)]
  | .tick => [.sample]
  | .reset => [.reset]
  | .midiOn m v7 => [.command (packCommand (freqOf m).toBits (velOf v7).toBits (midiKey m) 0x01#8)]
  | .midiOff m => [.command (packCommand 0#32 0#32 (midiKey m) 0x02#8)]
  | .ticks n => List.replicate n .sample

end Sys2Proof.Machine
end

