-- ==== Sys2Proof/Machine/Flags.lean ====
section
/-!
DEFINITION. The status the block shows: `VOICE_COUNT` (spec/10_state.md rule R31) and the 3-bit code of `ENV_STATE`
(R26).  There are no condition codes and no sticky flags, and no operation writes a flag (R34, R171).
-/

namespace Sys2Proof.Machine

/-- The number of slots with `VALID[k] = 1` (R31). -/
def State.validCount (s : State) : Nat := s.slots.toList.countP Option.isSome

/-- `VOICE_COUNT`, the 9-bit status output (R31). -/
def State.voiceCount (s : State) : BitVec 9 := BitVec.ofNat 9 s.validCount

/-- The 3-bit code of the envelope state (R26). -/
def envCode : EnvState → BitVec 3
  | .idle => 0#3
  | .attack => 1#3
  | .decay => 2#3
  | .sustain => 3#3
  | .release => 4#3

end Sys2Proof.Machine
end

