-- ==== Sys2Proof/Machine/Observe.lean ====
section
/-!
DEFINITION. What the hosts observe of a run: the sequence of the sample words TICK returns and of the VOICE_COUNT values
(spec/10_state.md rules R31 and R39; spec/20_memory.md rule R54).  A TICK's word counts as observed in the step that
performs it, also where the next operation is RESET, whether or not the host's handshake then delivers it (R190, 93 U13):
DESIGN CHOICE, unsafe (log entry 22).
-/

namespace Sys2Proof.Machine

/-- What the hosts can observe when an operation has completed, and nothing else (R39). -/
structure Observation where
  /-- The sample word returned, where the operation is a TICK (R78, R146).  DESIGN CHOICE, unsafe (log entry 22). -/
  sample : Option SampleWord
  /-- `VOICE_COUNT` after the operation (R31). -/
  voiceCount : BitVec 9
  deriving DecidableEq, Repr

/-- The observation of an operation that left the state `t`.  A TICK's word is counted here, and not taken back where a
RESET follows and the host's handshake discards the response; a RESET shows no word (R190, 93 U13).  DESIGN CHOICE,
unsafe (log entry 22). -/
def observe (i : Instr) (t : State) : Observation :=
  { sample := if i = .tick then t.sampleOut else none
    voiceCount := t.voiceCount }

/-- An observation up to the pattern of a NaN, which no claim may depend on (93 U3). -/
def Observation.value (o : Observation) : Option F32 × BitVec 9 := (o.sample.map F32.ofBits, o.voiceCount)

/-- The requests that `n` steps from `s` perform, in performance order (R54), each with what is observed after it.  An
idle step performs none (R183).  The word of a TICK stands beside that TICK, also where the next request is RESET:
DESIGN CHOICE, unsafe (log entry 22). -/
def trace : Nat → State → List (Request × Observation)
  | 0, _ => []
  | n + 1, s =>
    match step s with
    | .next t => (s.grant.1.map fun r => (r, observe (decode r) t)).toList ++ trace n t
    | .fault _ => []
    | .refused _ => []

/-- The observations of `n` steps from `s`, in order: what a host knows of the run (R39). -/
def observations (n : Nat) (s : State) : List Observation := (trace n s).map Prod.snd

/-- The sequence of sample words that the TICKs of `n` steps from `s` return (R39, R165), those of responses discarded at
a reset among them.  DESIGN CHOICE, unsafe (log entry 22). -/
def sampleWords (n : Nat) (s : State) : List SampleWord := (observations n s).filterMap Observation.sample

/-- The sequence of VOICE_COUNT values of `n` steps from `s`, one after each operation (R31, R39). -/
def voiceCounts (n : Nat) (s : State) : List (BitVec 9) := (observations n s).map Observation.voiceCount

/-- The observations of operations performed one after the other (R39, R54). -/
def observeAll : List Instr → State → List Observation
  | [], _ => []
  | i :: is, s =>
    match exec i s with
    | .next t => observe i t :: observeAll is t
    | .fault _ => []
    | .refused _ => []

end Sys2Proof.Machine
end

