-- ==== Sys2Proof/Safety.lean ====
section
/-!
DEFINITION. What claims are stated in: a run that goes on (spec/60_exceptions.md rule R170), the block's own state
(spec/10_state.md rule R20), performing operations in order (spec/20_memory.md rule R54), the invariants between
operations (R36), the bounds under which no NaN or infinity arises (spec/42_generate_sample.md rule R149), and the
properties of the sine unit (spec/00_scope.md rule R17).
-/

namespace Sys2Proof.Machine

/-- A safe outcome: the machine goes on. -/
def GoesOn (o : Host.Outcome State Fault Refusal) : Prop := ∃ t, o = .next t

/-- The block's own state: the slot file, `RES_BUF` and `LPF_PREV` (R20). -/
def State.block (s : State) : Vector (Option Voice) numSlots × Vector F32 resLen × F32 :=
  (s.slots, s.resBuf, s.lpfPrev)

/-- Perform operations one after the other (R54). -/
def performAll : List Instr → State → Host.Outcome State Fault Refusal
  | [], s => .next s
  | i :: is, s =>
    match exec i s with
    | .next t => performAll is t
    | .fault r => .fault r
    | .refused r => .refused r

/-- Perform an operation under a given configuration; `exec` is this under the machine's own (R5). -/
def execWith (cfg : Cfg) (i : Instr) (s : State) : Host.Outcome State Fault Refusal :=
  match i with
  | .tick => .next (tickWith cfg s)
  | .nop | .noteOn _ _ _ | .noteOff _ | .reserved03 | .reserved04 _ | .reserved08 _ | .reserved10 _ | .reserved20 _
  | .reserved40 _ | .reserved80 _ | .reset => exec i s

/-- One step under a given configuration; `step` is this under the machine's own (R5, R53). -/
def stepWith (cfg : Cfg) (s : State) : Host.Outcome State Fault Refusal :=
  match s.grant with
  | (none, s') => .next s'.arrive
  | (some r, s') => thenArrive (execWith cfg (decode r) s')

/-- A value in [0, 1], by the IEEE comparisons. -/
def inUnit (x : F32) : Prop := F32.le F32.posZero x = true ∧ F32.le x c_ONE = true

/-- After how many TICKs at most a release from this amplitude has ended, while `REL_K >= 2^-23` (R111): one below
`REL_THRESHOLD`, and else one for each binary32 value down to it and one more. -/
def releaseBound (amp : F32) : Nat :=
  if F32.lt amp c_REL_THRESHOLD then 1 else amp.toBits.toNat - c_REL_THRESHOLD.toBits.toNat + 1

/-- A phase: NaN or in [+0, `TWO_PI`) (R25). -/
def phaseInRange (p : F32) : Prop := p = .nan ∨ (p.sign = false ∧ F32.lt p c_TWO_PI = true)

/-- What holds of a valid slot between operations (R36 (a) to (d)). -/
structure VoiceOk (cfg : Cfg) (v : Voice) : Prop where
  /-- R36 (a) -/
  notIdle : v.envState ≠ .idle
  /-- R36 (b) -/
  ampInUnit : inUnit v.envAmp
  /-- R36 (c) -/
  sustained : v.envState = .sustain → v.envAmp = cfg.sustain
  /-- R36 (d) -/
  phaseOk : phaseInRange v.phase

/-- The invariants between operations (R36): they hold of every valid slot. -/
def State.Inv (cfg : Cfg) (s : State) : Prop := ∀ k v, s.slot k = some v → VoiceOk cfg v

/-- No slot is valid. -/
def State.NoVoices (s : State) : Prop := ∀ k, s.slot k = none

/-- What a model may assume of the sine unit (R17 (b), (c), (d)). -/
structure SineOk (sin : F32 → F32) : Prop where
  /-- R17 (b) -/
  atZero : ∀ neg, sin (.zero neg) = .zero neg
  /-- R17 (c) -/
  atNaN : sin .nan = .nan
  /-- R17 (c) -/
  atInf : ∀ neg, sin (.inf neg) = .nan
  /-- R17 (d) -/
  bounded : ∀ x, x.isFinite = true → F32.le c_ONE.neg (sin x) = true ∧ F32.le (sin x) c_ONE = true

/-- `|x| <= b`, by the IEEE comparisons; false of a NaN. -/
def absLe (x b : F32) : Prop := F32.le b.neg x = true ∧ F32.le x b = true

/-- The bound on `|FREQ|` of R149. -/
def freqBound : F32 := F32.F (10 ^ 37)

/-- The bound on `|VEL|` of R149. -/
def velBound : F32 := F32.F 1000

/-- A bound that every pushed `RES_BUF` entry keeps under R149. -/
def bufBound : F32 := F32.F (2 ^ 29)

/-- A bound that `LPF_PREV` keeps under R149. -/
def lpfBound : F32 := F32.F (2 ^ 34)

/-- A voice within the bounds of R149, with a finite phase. -/
structure VoiceBounded (v : Voice) : Prop where
  freqLe : absLe v.freq freqBound
  velLe : absLe v.vel velBound
  ampInUnit : inUnit v.envAmp
  phaseFinite : v.phase.isFinite = true
  phaseOk : phaseInRange v.phase

/-- A state within the bounds of R149. -/
structure State.Bounded (s : State) : Prop where
  voices : ∀ k v, s.slot k = some v → VoiceBounded v
  buffer : ∀ x ∈ s.resBuf.toList, absLe x bufBound
  filter : absLe s.lpfPrev lpfBound

/-- An operation within the bounds of R149: a NOTE_ON whose operands keep them, or any other. -/
def opBounded : Instr → Prop
  | .noteOn _ freq vel => absLe freq freqBound ∧ absLe vel velBound
  | .nop | .noteOff _ | .reserved03 | .reserved04 _ | .reserved08 _ | .reserved10 _ | .reserved20 _ | .reserved40 _
  | .reserved80 _ | .tick | .reset => True

/-- The command word that an action of the outside world presents, where it presents one (R70). -/
def Arrival.command? : Arrival → Option CommandWord
  | .command w => some w
  | .sampleRequest | .resetLevel _ => none

/-- The event host keeps the bounds of R149: in the words held at its port and in those it presents later. -/
structure State.HostBounded (s : State) : Prop where
  held : ∀ w ∈ s.eventPort, opBounded (decodeCommand w)
  later : ∀ round ∈ s.arrivals, ∀ w, Arrival.command w ∈ round → opBounded (decodeCommand w)

end Sys2Proof.Machine
end

