-- ==== Sys2Proof/Certificates/Slice0/Obligations.lean ====
section
/-!
DEFINITION. The statements for the provers.  Each docstring names the rules of spec/ it formalises.
-/

open Sys2Proof Sys2Proof.Machine

/-! ### Decoding and encoding -/

/-- Every well-formed operation is decoded from its own encoding, whatever its operands (30_encoding.md R70, R71,
R78, R80; 70_reset_and_hazards.md R190). -/
def Obligations.EncodeThenDecode : Prop := ∀ i : Instr, i.WellFormed → decode (encode i) = i

/-- Whatever a port delivers decodes to a well-formed operation: no encoding is illegal (R71, R77). -/
def Obligations.DecodedIsWellFormed : Prop := ∀ r : Request, (decode r).WellFormed

/-- R80: decoding on the event port is total, selects on bits 7:0 and takes the operands from their fields; the OP
values 0x03..0xFF decode to a reserved command, which is performed as NOP. -/
def Obligations.CommandDecodesByOp : Prop :=
  ∀ w : CommandWord,
    let op := w.extractLsb' 0 8
    let key := w.extractLsb' 8 8
    (op = 0x00#8 → decodeCommand w = .nop) ∧
    (op = 0x01#8 →
      decodeCommand w = .noteOn key (F32.ofBits (w.extractLsb' 64 32)) (F32.ofBits (w.extractLsb' 32 32))) ∧
    (op = 0x02#8 → decodeCommand w = .noteOff key) ∧
    (3 ≤ op.toNat →
      decodeCommand w ∈ [.reserved03, .reserved04 op, .reserved08 op, .reserved10 op, .reserved20 op,
        .reserved40 op, .reserved80 op] ∧
      ∀ s, exec (decodeCommand w) s = exec .nop s)

/-- R75 and R76: bits 31:16 are ignored for every OP value; NOTE_OFF, NOP and the reserved OP values ignore FREQ and
VEL; NOP and the reserved values also ignore KEY (their effect does not depend on it). -/
def Obligations.IgnoredBitsHaveNoEffect : Prop :=
  ∀ w w' : CommandWord, w.extractLsb' 0 8 = w'.extractLsb' 0 8 →
    (w.extractLsb' 8 8 = w'.extractLsb' 8 8 → w.extractLsb' 32 64 = w'.extractLsb' 32 64 →
      decodeCommand w = decodeCommand w') ∧
    (w.extractLsb' 0 8 ≠ 0x01#8 → w.extractLsb' 8 8 = w'.extractLsb' 8 8 → decodeCommand w = decodeCommand w') ∧
    (w.extractLsb' 0 8 ≠ 0x01#8 → w.extractLsb' 0 8 ≠ 0x02#8 → decodeCommand w = decodeCommand w')

/-- R73 and R74: the frequency operand is the value of the pattern in bits 95:64 and the velocity operand that of
bits 63:32, where a subnormal reads as a zero of the same sign, a NaN is a NaN, and every other pattern is taken as it
is. -/
def Obligations.OperandsReadSubnormalsAsZero : Prop :=
  ∀ w : CommandWord, w.extractLsb' 0 8 = 0x01#8 →
    ∃ freq vel, decodeCommand w = .noteOn (w.extractLsb' 8 8) freq vel ∧
      ∀ p ∈ [(w.extractLsb' 64 32, freq), (w.extractLsb' 32 32, vel)],
        (p.1.extractLsb' 23 8 = 0#8 → p.2 = .zero (p.1.getLsbD 31)) ∧
        (p.1.extractLsb' 23 8 = 255#8 → p.1.extractLsb' 0 23 ≠ 0#23 → p.2 = .nan) ∧
        (p.1.extractLsb' 23 8 ≠ 0#8 → (p.1.extractLsb' 23 8 = 255#8 → p.1.extractLsb' 0 23 = 0#23) →
          p.2 ≠ .nan ∧ p.2.toBits = p.1)

/-- A few words of 30_encoding.md's encoded examples and 95_test_vectors.md's V-ENC decode as written there. -/
def Obligations.ExampleWordsDecode : Prop :=
  decodeCommand 0x4382D0A43F80000000003C01#96 =
    .noteOn 60#8 (F32.F (mkRat 26163 100)) (F32.F 1) ∧
  decodeCommand 0x43DC00003F80000000004501#96 = .noteOn 69#8 (F32.F 440) (F32.F 1) ∧
  decodeCommand 0x000000000000000000003C02#96 = .noteOff 60#8 ∧
  decodeCommand 0x123456789ABCDEF000003C02#96 = .noteOff 60#8 ∧
  decodeCommand 0x000000000000000000000000#96 = .nop ∧
  decodeCommand 0xFFFFFFFFFFFFFFFFFFFFFF00#96 = .nop ∧
  decodeCommand 0x0000000000000000000000FF#96 = .reserved80 0xFF#8 ∧
  decodeCommand 0x000000013F80000000000001#96 = .noteOn 0#8 (.zero false) (F32.F 1) ∧
  decodeCommand 0x800000013F80000000000001#96 = .noteOn 0#8 (.zero true) (F32.F 1) ∧
  decodeCommand 0x7FC000003F80000000000001#96 = .noteOn 0#8 .nan (F32.F 1) ∧
  decode .sample = .tick ∧ decode .reset = .reset

/-! ### Note events -/

/-- R120 (with ENV_TRIGGER, R101): NOTE_ON takes its operands from the KEY, FREQ and VEL fields and always succeeds.
Slot `k` then holds one voice in ATTACK at +0 with phase +0, whatever it held before; VOICE_COUNT rises by 1 if the
slot was not valid; nothing else changes. -/
def Obligations.NoteOnStartsVoice : Prop :=
  (∀ w : CommandWord, w.extractLsb' 0 8 = 0x01#8 →
    decodeCommand w =
      .noteOn (w.extractLsb' 8 8) (F32.ofBits (w.extractLsb' 64 32)) (F32.ofBits (w.extractLsb' 32 32))) ∧
  ∀ (key : Key) (freq vel : F32) (s : State), ∃ t, exec (.noteOn key freq vel) s = .next t ∧
    (∀ j : SlotIndex, t.slot j =
      if j.val = key.toNat then
        some { freq := freq, vel := vel, phase := .zero false, envState := .attack, envAmp := .zero false }
      else s.slot j) ∧
    t.voiceCount.toNat = s.voiceCount.toNat + (if s.valid (slotIndex key) then 0 else 1) ∧
    t = { s with slots := t.slots }

/-- R121 (with ENV_RELEASE, R102): NOTE_OFF takes its operand from the KEY field.  A voice in any state but IDLE
enters RELEASE and keeps its amplitude; in RELEASE nothing changes; for a key without a voice nothing changes at all.
VOICE_COUNT is unchanged, and so is everything else. -/
def Obligations.NoteOffReleasesVoice : Prop :=
  (∀ w : CommandWord, w.extractLsb' 0 8 = 0x02#8 → decodeCommand w = .noteOff (w.extractLsb' 8 8)) ∧
  ∀ (key : Key) (s : State), ∃ t, exec (.noteOff key) s = .next t ∧
    (s.slot (slotIndex key) = none → t = s) ∧
    (∀ v, s.slot (slotIndex key) = some v →
      t.slot (slotIndex key) =
        some (if v.envState = .idle then v else { v with envState := .release }) ∧
      (v.envState = .release → t = s)) ∧
    (∀ j : SlotIndex, j.val ≠ key.toNat → t.slot j = s.slot j) ∧
    t.voiceCount = s.voiceCount ∧
    t = { s with slots := t.slots }

/-- R122: NOP and every reserved OP value complete without any state change. -/
def Obligations.NopAndReservedChangeNothing : Prop :=
  ∀ s : State,
    (∀ w : CommandWord, w.extractLsb' 0 8 = 0x00#8 ∨ 3 ≤ (w.extractLsb' 0 8).toNat →
      exec (decodeCommand w) s = .next s) ∧
    exec .nop s = .next s ∧ exec .reserved03 s = .next s ∧
    ∀ op, exec (.reserved04 op) s = .next s ∧ exec (.reserved08 op) s = .next s ∧
      exec (.reserved10 op) s = .next s ∧ exec (.reserved20 op) s = .next s ∧
      exec (.reserved40 op) s = .next s ∧ exec (.reserved80 op) s = .next s

/-! ### The envelope, through TICK -/

/-- R105: in ATTACK a TICK adds `ATK_INC`; reaching 1 clamps to 1 and enters DECAY in the same call, and the amplitude
returned is the one stored.  The voice stays, and its phase advances (R133). -/
def Obligations.TickInAttack : Prop :=
  ∀ (s : State) (k : SlotIndex) (v : Voice), s.slot k = some v → v.envState = .attack →
    let x := v.envAmp.add (c_ONE.div (Config.cfg.attackS.mul Config.cfg.sr))
    let v' : Voice :=
      if F32.le c_ONE x then { v with envAmp := c_ONE, envState := .decay } else { v with envAmp := x }
    envProcess Config.cfg v = (v', v'.envAmp) ∧
    ∃ t, exec .tick s = .next t ∧ t.slot k = some { v' with phase := nextPhase Config.cfg v }

/-- R106: in DECAY a TICK subtracts `DEC_INC`; at or below the sustain level it clamps there and enters SUSTAIN in the
same call.  The voice stays even at amplitude 0. -/
def Obligations.TickInDecay : Prop :=
  ∀ (s : State) (k : SlotIndex) (v : Voice), s.slot k = some v → v.envState = .decay →
    let x := v.envAmp.sub ((c_ONE.sub Config.cfg.sustain).div (Config.cfg.decayS.mul Config.cfg.sr))
    let v' : Voice :=
      if F32.le x Config.cfg.sustain then { v with envAmp := Config.cfg.sustain, envState := .sustain }
      else { v with envAmp := x }
    envProcess Config.cfg v = (v', v'.envAmp) ∧
    ∃ t, exec .tick s = .next t ∧ t.slot k = some { v' with phase := nextPhase Config.cfg v }

/-- R107: in SUSTAIN a TICK returns the sustain level and writes neither envelope field; there is no time-based exit. -/
def Obligations.TickInSustain : Prop :=
  ∀ (s : State) (k : SlotIndex) (v : Voice), s.slot k = some v → v.envState = .sustain →
    envProcess Config.cfg v = (v, Config.cfg.sustain) ∧
    ∃ t, exec .tick s = .next t ∧ t.slot k = some { v with phase := nextPhase Config.cfg v }

/-- R108 with the removal of R131 and R142: in RELEASE a TICK takes off the amplitude times `REL_K`; strictly below the
threshold it returns +0 in IDLE and the slot is removed, else the voice stays in RELEASE at the new amplitude. -/
def Obligations.TickInRelease : Prop :=
  ∀ (s : State) (k : SlotIndex) (v : Voice), s.slot k = some v → v.envState = .release →
    let x := v.envAmp.sub (v.envAmp.mul (c_ONE.div (Config.cfg.releaseS.mul Config.cfg.sr)))
    envProcess Config.cfg v =
      (if F32.lt x c_REL_THRESHOLD then ({ v with envAmp := .zero false, envState := .idle }, .zero false)
       else ({ v with envAmp := x }, x)) ∧
    ∃ t, exec .tick s = .next t ∧
      t.slot k =
        if F32.lt x c_REL_THRESHOLD then none
        else some { v with envAmp := x, phase := nextPhase Config.cfg v }

/-- R109: the only transitions of the envelope of one slot, for its three operations.  ENV_PROCESS returns +0 in IDLE
(R104) and changes nothing in IDLE and SUSTAIN; ENV_RELEASE changes nothing in RELEASE and IDLE, and the state alone
elsewhere (R102). -/
def Obligations.EnvelopeTransitions : Prop :=
  ∀ (cfg : Cfg) (v : Voice),
    (envTrigger v).envState = .attack ∧ (envTrigger v).envAmp = .zero false ∧
    envRelease v =
      (if v.envState = .release ∨ v.envState = .idle then v else { v with envState := .release }) ∧
    (v.envState = .idle → envProcess cfg v = (v, .zero false)) ∧
    (v.envState = .sustain → (envProcess cfg v).1 = v) ∧
    ((envRelease v).envState, v.envState) ∈
      [(EnvState.idle, EnvState.idle), (.release, .attack), (.release, .decay), (.release, .sustain),
        (.release, .release)] ∧
    ((envProcess cfg v).1.envState, v.envState) ∈
      [(EnvState.idle, EnvState.idle), (.attack, .attack), (.decay, .attack), (.decay, .decay), (.sustain, .decay),
        (.sustain, .sustain), (.release, .release), (.idle, .release)] ∧
    ((envProcess cfg v).1.envState ≠ v.envState →
      (v.envState = .attack ∧ (envProcess cfg v).1.envAmp = c_ONE) ∨
      (v.envState = .decay ∧ (envProcess cfg v).1.envAmp = cfg.sustain) ∨
      (v.envState = .release ∧ (envProcess cfg v).1.envAmp = .zero false))

/-- R110: under a legal configuration the amplitude ENV_PROCESS returns and the amplitude it stores lie in [0, 1] if
the stored one did, and ENV_TRIGGER and ENV_RELEASE keep it there. -/
def Obligations.AmplitudeStaysInUnit : Prop :=
  ∀ (cfg : Cfg) (v : Voice), cfg.toParams.legal = true → inUnit v.envAmp →
    inUnit (envProcess cfg v).2 ∧ inUnit (envProcess cfg v).1.envAmp ∧
    inUnit (envTrigger v).envAmp ∧ inUnit (envRelease v).envAmp

/-- R100: under a legal configuration the three increments are finite and not negative.  `DEC_INC` is +0 where the
sustain level is 1, where `ONE ⊖ SUSTAIN` is +0, and positive exactly where its quotient does not flush to zero (R11).
R100 calls `ATK_INC` and `REL_K` positive: they are, exactly where the product of the time and `SR` is at most `2^126`;
above it the quotient flushes to +0 (log entry 19). -/
def Obligations.IncrementsAreFinite : Prop :=
  ∀ cfg : Cfg, cfg.toParams.legal = true →
    (∀ x ∈ [atkInc cfg, decInc cfg, relK cfg], x.isFinite = true ∧ x.sign = false) ∧
    (F32.feq cfg.sustain c_ONE = true ↔ c_ONE.sub cfg.sustain = .zero false) ∧
    (F32.feq cfg.sustain c_ONE = true → decInc cfg = .zero false) ∧
    (F32.lt (.zero false) (decInc cfg) = true ↔
      1 / 2 ^ 126 - 1 / 2 ^ 150 ≤ (c_ONE.sub cfg.sustain).toRat / (cfg.decayS.mul cfg.sr).toRat) ∧
    (F32.lt (.zero false) (atkInc cfg) = true ↔ F32.le (cfg.attackS.mul cfg.sr) (F32.F (2 ^ 126)) = true) ∧
    (F32.lt (.zero false) (relK cfg) = true ↔ F32.le (cfg.releaseS.mul cfg.sr) (F32.F (2 ^ 126)) = true)

/-- R111: while `REL_K` is at least `2^-23`, a release step from an amplitude in [`REL_THRESHOLD`, 1] strictly lowers
it. -/
def Obligations.ReleaseStepStrictlyFalls : Prop :=
  ∀ (cfg : Cfg) (a : F32), cfg.toParams.legal = true → F32.le (F32.F (mkRat 1 (2 ^ 23))) (relK cfg) = true →
    F32.le c_REL_THRESHOLD a = true → F32.le a c_ONE = true → F32.lt (releaseStep cfg a) a = true

/-- R111 with R131 and R142: while `REL_K` is at least `2^-23`, a voice in RELEASE with an amplitude in [0, 1] is removed
after at most `releaseBound` of that amplitude TICKs, and its slot then stays invalid.  The bound is 1 below
`REL_THRESHOLD` and does not decrease in the amplitude, so that of amplitude 1 holds for all. -/
def Obligations.ReleaseEndsWithinBound : Prop :=
  (∀ a, F32.lt a c_REL_THRESHOLD = true → releaseBound a = 1) ∧
  (∀ a b, inUnit a → inUnit b → F32.le a b = true → releaseBound a ≤ releaseBound b) ∧
  ∀ (cfg : Cfg) (s : State) (k : SlotIndex) (v : Voice), cfg.toParams.legal = true →
    F32.le (F32.F (mkRat 1 (2 ^ 23))) (relK cfg) = true →
    s.slot k = some v → v.envState = .release → inUnit v.envAmp →
    ∀ n, releaseBound v.envAmp ≤ n → ((tickWith cfg)^[n] s).slot k = none

/-- R111 and 93 U12: where `REL_K` is below `2^-25`, every release step from an amplitude in [`REL_THRESHOLD`, 1] rounds
back to it, so a TICK leaves the voice in RELEASE at that amplitude: the release never ends. -/
def Obligations.SlowReleaseNeverEnds : Prop :=
  ∀ (cfg : Cfg) (s : State) (k : SlotIndex) (v : Voice), cfg.toParams.legal = true →
    F32.lt (relK cfg) (F32.F (mkRat 1 (2 ^ 25))) = true →
    s.slot k = some v → v.envState = .release →
    F32.le c_REL_THRESHOLD v.envAmp = true → F32.le v.envAmp c_ONE = true →
    (tickWith cfg s).slot k = some { v with phase := nextPhase cfg v }

/-! ### TICK -/

/-- R131 to R140: with `v'` and `a` what ENV_PROCESS gives for a valid slot, the slot is removed when `a == 0` in IDLE;
otherwise its phase advances by `(TWO_PI ⊗ FREQ) ⊘ SR` and wraps, and its contribution is `w ⊗ g` computed from the new
phase in the grouping of the rules.  An invalid slot stays invalid and contributes nothing. -/
def Obligations.TickProcessesEachSlot : Prop :=
  ∀ s : State, ∃ t, exec .tick s = .next t ∧
    let part : SlotIndex → Option (Voice × F32) := fun k =>
      (s.slot k).bind fun v =>
        let v' := (envProcess Config.cfg v).1
        let a := (envProcess Config.cfg v).2
        if F32.feq a (.zero false) = true ∧ v'.envState = .idle then none
        else
          let p := wrap (v.phase.add ((c_TWO_PI.mul v.freq).div Config.cfg.sr))
          let b := (v.vel.mul c_BR_SCALE).add c_BR_OFFSET
          let s1 := Config.cfg.sin p
          let s2 := Config.cfg.sin ((F32.i2f 2).mul p)
          let s3 := Config.cfg.sin ((F32.i2f 3).mul p)
          let t2 := (c_H2_GAIN.mul b).mul s2
          let t3 := (c_H3_GAIN.mul (b.mul b)).mul s3
          let w := (s1.add t2).add t3
          let ks := c_ONE.sub (((F32.i2f k.val).div c_KEY_DIV).mul c_KEY_TILT)
          let g := (a.mul v.vel).mul ks
          some ({ v' with phase := p }, w.mul g)
    (∀ k, t.slot k = (part k).map Prod.fst) ∧
    t.resBuf.toList =
      s.resBuf.toList.tail ++
        [c_RES_FACTOR.mul (F32.fsum ((List.finRange 256).filterMap fun k => (part k).map Prod.snd))]

/-- R141 to R147: with `mixed` the FSUM of the contributions, `RES_FACTOR ⊗ mixed` replaces the oldest entry of
`RES_BUF`, the mean of the buffer after the push is added back, `LPF_PREV` becomes the filter output, and the sample is
`MASTER_GAIN` times that output, not clamped, as a 32-bit word: its bit pattern, or some NaN pattern for a NaN.  The
ports, the arbiter and the outside world are left alone. -/
def Obligations.TickSharedStages : Prop :=
  ∀ s : State, ∃ t w, exec .tick s = .next t ∧
    let m := F32.fsum (contributions Config.cfg s.slots)
    t.resBuf.toList = s.resBuf.toList.tail ++ [c_RES_FACTOR.mul m] ∧
    t.lpfPrev = (c_LPF_ALPHA.mul (m.add (resMean t.resBuf))).add (c_LPF_BETA.mul s.lpfPrev) ∧
    t.sampleOut = some w ∧
    (let y := c_MASTER_GAIN.mul t.lpfPrev
     (y ≠ .nan → w = y.toBits) ∧ (y = .nan → isNaNWord w = true)) ∧
    t.eventPort = s.eventPort ∧ t.samplePort = s.samplePort ∧ t.resetLine = s.resetLine ∧
    t.lastGrant = s.lastGrant ∧ t.arrivals = s.arrivals

/-- R130: VOICE_COUNT falls by the number of slots marked for removal. -/
def Obligations.VoiceCountFallsByRemovals : Prop :=
  ∀ s : State, ∃ t, exec .tick s = .next t ∧
    t.voiceCount.toNat +
      ((List.finRange 256).filter fun k => (s.slot k).any fun v => (voiceTick Config.cfg k v).isNone).length =
    s.voiceCount.toNat

/-- R65: what a TICK does to slot `k` depends on slot `k` and the configuration alone, and the contributions are those of
the slots below `k`, then slot `k`'s own part, which depends on slot `k` alone, then those of the slots above. -/
def Obligations.SlotsAreIndependent : Prop :=
  (∀ (s s' : State) (k : SlotIndex), s.slot k = s'.slot k →
    ∃ t t', exec .tick s = .next t ∧ exec .tick s' = .next t' ∧ t.slot k = t'.slot k) ∧
  ∀ (s below above : State) (k : SlotIndex),
    (∀ j, below.slot j = if j < k then s.slot j else none) → (∀ j, above.slot j = if k < j then s.slot j else none) →
    contributions Config.cfg s.slots =
      contributions Config.cfg below.slots ++
        (((s.slot k).bind (voiceTick Config.cfg k)).map Prod.snd).toList ++ contributions Config.cfg above.slots

/-- R150: where exactly two slots are valid and contribute finite `c1` and `c2`, the mixed sample is `F(c1 + c2)` (−0
where both are −0), and the resonance, the filter and the gain act on that sum. -/
def Obligations.TwoVoicesSuperpose : Prop :=
  ∀ (cfg : Cfg) (s : State) (j k : SlotIndex) (v1 v2 v1' v2' : Voice) (c1 c2 : F32), j < k →
    s.slot j = some v1 → s.slot k = some v2 → (∀ i, i ≠ j → i ≠ k → s.slot i = none) →
    voiceTick cfg j v1 = some (v1', c1) → voiceTick cfg k v2 = some (v2', c2) →
    c1.isFinite = true → c2.isFinite = true →
    let m := if c1 = .zero true ∧ c2 = .zero true then .zero true else F32.F (c1.toRat + c2.toRat)
    let t := tickWith cfg s
    mixed cfg s.slots = m ∧
    t.resBuf.toList = s.resBuf.toList.tail ++ [c_RES_FACTOR.mul m] ∧
    t.lpfPrev = (c_LPF_ALPHA.mul (m.add (resMean t.resBuf))).add (c_LPF_BETA.mul s.lpfPrev) ∧
    t.sampleOut = some (sampleWord s.draws (c_MASTER_GAIN.mul t.lpfPrev))

/-- R134: `WRAP` maps every value into [+0, `TWO_PI`) or to NaN, and to NaN exactly the non-finite ones. -/
def Obligations.WrapRange : Prop :=
  ∀ x : F32, phaseInRange (wrap x) ∧ (wrap x = .nan ↔ x.isFinite = false)

/-- R134 with R15: a finite value is wrapped to its exact remainder `r` by `TWO_PI` toward zero, rounded by `F`; where
`r` is negative `TWO_PI` is added, and a sum that rounds up to `TWO_PI` becomes +0.  So for `0 <= x < TWO_PI` the wrap
leaves the value, and for `TWO_PI <= x < 2 × TWO_PI` it takes off exactly `TWO_PI`; that difference is never
subnormal. -/
def Obligations.WrapExact : Prop :=
  ∀ x : F32,
    (x.sign = false → F32.lt x c_TWO_PI = true → wrap x = x) ∧
    (F32.le c_TWO_PI x = true → F32.lt x (c_TWO.mul c_TWO_PI) = true →
      wrap x = F32.F (x.toRat - c_TWO_PI.toRat) ∧ (wrap x).toRat = x.toRat - c_TWO_PI.toRat) ∧
    (x.isFinite = true →
      let turns : ℤ := if 0 ≤ x.toRat then ⌊x.toRat / c_TWO_PI.toRat⌋ else ⌈x.toRat / c_TWO_PI.toRat⌉
      let r := x.toRat - c_TWO_PI.toRat * turns
      wrap x =
        if 0 ≤ r then F32.F r
        else if F32.le c_TWO_PI (F32.F (r + c_TWO_PI.toRat)) = true then .zero false
        else F32.F (r + c_TWO_PI.toRat))

/-! ### Arithmetic -/

/-- R11 step 1: a result in the normal range that does not overflow is rounded to a nearest binary32 value, ties to
even: where another value is equally near, the last bit of the fraction of the one taken is 0. -/
def Obligations.RoundingIsNearest : Prop :=
  ∀ x : ℚ, 1 / 2 ^ 126 ≤ |x| → (F32.F x).isFinite = true →
    ∀ y : F32, y.isFinite = true →
      |x - (F32.F x).toRat| ≤ |x - y.toRat| ∧
      (y.toRat ≠ (F32.F x).toRat → |x - y.toRat| = |x - (F32.F x).toRat| →
        (F32.F x).toBits.getLsbD 0 = false)

/-- R11: overflow to an infinity and flush to zero, with the exact boundaries, and the sign of the exact result. -/
def Obligations.RoundingRanges : Prop :=
  ∀ x : ℚ, ((F32.F x).isInfinite = true ↔ 2 ^ 128 - 2 ^ 103 ≤ |x|) ∧
    ((F32.F x).isZero = true ↔ |x| < 1 / 2 ^ 126 - 1 / 2 ^ 150) ∧ (F32.F x).sign = decide (x < 0)

/-- R11 and R13: rounding is monotone and leaves every normal value as it is, and `i2f(k)` is exact for
`0 <= k <= 2^24`. -/
def Obligations.RoundingMonotoneAndExact : Prop :=
  (∀ x y : ℚ, x ≤ y → F32.le (F32.F x) (F32.F y) = true) ∧
  (∀ a : F32, a.isNormal = true → F32.F a.toRat = a) ∧
  ∀ k : Nat, k ≤ 2 ^ 24 → (F32.i2f k).toRat = k

/-- R7 and R13: each constant is its literal rounded by `F`, with the bit pattern of R7's table; `LPF_BETA` is
`ONE ⊖ LPF_ALPHA`; and `TWO_PI` is what two rationals around the real `2π` both round to. -/
def Obligations.ConstantsAreRoundedLiterals : Prop :=
  (∀ e ∈ ([(c_ONE, 1, 0x3F800000#32), (c_H2_GAIN, 3 / 10, 0x3E99999A#32), (c_H3_GAIN, 1 / 10, 0x3DCCCCCD#32),
      (c_BR_SCALE, 1 / 2, 0x3F000000#32), (c_BR_OFFSET, 1 / 2, 0x3F000000#32), (c_KEY_DIV, 127, 0x42FE0000#32),
      (c_KEY_TILT, 3 / 10, 0x3E99999A#32), (c_RES_FACTOR, 1 / 20, 0x3D4CCCCD#32),
      (c_LPF_ALPHA, 1 / 10, 0x3DCCCCCD#32), (c_LPF_BETA, 9 / 10, 0x3F666666#32),
      (c_MASTER_GAIN, 3 / 10, 0x3E99999A#32), (c_REL_THRESHOLD, 1 / 1000, 0x3A83126F#32),
      (c_TWO, 2, 0x40000000#32), (c_THREE, 3, 0x40400000#32)] : List (F32 × ℚ × SampleWord)),
    e.1 = F32.F e.2.1 ∧ e.1.toBits = e.2.2) ∧
  c_LPF_BETA = c_ONE.sub c_LPF_ALPHA ∧
  c_TWO_PI.toBits = 0x40C90FDB#32 ∧
  ∃ lo hi : ℚ, (lo : ℝ) ≤ 2 * Real.pi ∧ 2 * Real.pi ≤ (hi : ℝ) ∧ F32.F lo = c_TWO_PI ∧ F32.F hi = c_TWO_PI

/-- R16: FSUM and FMEAN do not depend on the order of the elements. -/
def Obligations.SumsDoNotDependOnOrder : Prop :=
  ∀ xs ys : List F32, xs.Perm ys →
    F32.fsum xs = F32.fsum ys ∧ ∀ (hx : xs ≠ []) (hy : ys ≠ []), F32.fmean xs hx = F32.fmean ys hy

/-- R16, with R63 for RES_MEAN: a NaN, or both infinities, give NaN; else an infinity gives that infinity; else the exact
sum `S` gives −0 where every element is −0, +0 where it is 0 otherwise or the list is empty, and else `F(S)` for FSUM and
`F(S / n)` for FMEAN.  RES_MEAN is the FMEAN of the 1024 entries. -/
def Obligations.SumsAreRoundedOnce : Prop :=
  (∀ xs : List F32,
    let total := (xs.map F32.toRat).sum
    (F32.nan ∈ xs ∨ F32.inf false ∈ xs ∧ F32.inf true ∈ xs →
      F32.fsum xs = .nan ∧ ∀ h, F32.fmean xs h = .nan) ∧
    (∀ neg : Bool, F32.nan ∉ xs → F32.inf neg ∈ xs → F32.inf (!neg) ∉ xs →
      F32.fsum xs = .inf neg ∧ ∀ h, F32.fmean xs h = .inf neg) ∧
    (xs ≠ [] → (∀ x ∈ xs, x = .zero true) → F32.fsum xs = .zero true ∧ ∀ h, F32.fmean xs h = .zero true) ∧
    ((∀ x ∈ xs, x.isFinite = true) → total = 0 → (xs = [] ∨ ∃ x ∈ xs, x ≠ .zero true) →
      F32.fsum xs = .zero false ∧ ∀ h, F32.fmean xs h = .zero false) ∧
    ((∀ x ∈ xs, x.isFinite = true) → total ≠ 0 →
      F32.fsum xs = F32.F total ∧ ∀ h, F32.fmean xs h = F32.F (total / xs.length))) ∧
  ∀ buf : Vector F32 resLen, (∀ h, resMean buf = F32.fmean buf.toList h) ∧
    ((∀ x ∈ buf.toList, x.isFinite = true) → (buf.toList.map F32.toRat).sum ≠ 0 →
      resMean buf = F32.F ((buf.toList.map F32.toRat).sum / 1024))

/-- R14: finite results are the exact ones rounded by `F`, finite values compare as their exact values, and the special
cases of the four operations and of the comparisons that R14 lists, for either sign and either order of the operands. -/
def Obligations.IeeeSpecialCases : Prop :=
  (∀ a b : F32, a.isFinite = true → b.isFinite = true →
    (a.toRat + b.toRat ≠ 0 → F32.add a b = F32.F (a.toRat + b.toRat)) ∧
    (a.toRat - b.toRat ≠ 0 → F32.sub a b = F32.F (a.toRat - b.toRat)) ∧
    (a.isZero = false → b.isZero = false →
      F32.mul a b = F32.F (a.toRat * b.toRat) ∧ F32.div a b = F32.F (a.toRat / b.toRat)) ∧
    (a.toRat + b.toRat = 0 → F32.add a b = .zero (decide (a = .zero true ∧ b = .zero true))) ∧
    (a.toRat - b.toRat = 0 → F32.sub a b = .zero (decide (a = .zero true ∧ b = .zero false))) ∧
    F32.le a b = decide (a.toRat ≤ b.toRat) ∧ F32.lt a b = decide (a.toRat < b.toRat) ∧
    F32.feq a b = decide (a.toRat = b.toRat)) ∧
  (∀ a : F32,
    (∀ op ∈ [F32.add, F32.sub, F32.mul, F32.div], op a .nan = .nan ∧ op .nan a = .nan) ∧
    (∀ cmp ∈ [F32.le, F32.lt, F32.feq], cmp a .nan = false ∧ cmp .nan a = false)) ∧
  (∀ s : Bool, F32.add (.inf s) (.inf !s) = .nan ∧ F32.sub (.inf s) (.inf s) = .nan) ∧
  (∀ s s' : Bool,
    F32.mul (.inf s) (.zero s') = .nan ∧ F32.mul (.zero s) (.inf s') = .nan ∧
    F32.div (.zero s) (.zero s') = .nan ∧ F32.div (.inf s) (.inf s') = .nan ∧
    F32.le (.zero s) (.zero s') = true ∧ F32.lt (.zero s) (.zero s') = false ∧ F32.feq (.zero s) (.zero s') = true) ∧
  ∀ (a : F32) (s : Bool), a.isFinite = true →
    F32.div a (.inf s) = .zero (a.sign ^^ s) ∧
    F32.mul a (.zero s) = .zero (a.sign ^^ s) ∧ F32.mul (.zero s) a = .zero (s ^^ a.sign) ∧
    (a.isZero = false → F32.div a (.zero s) = .inf (a.sign ^^ s) ∧ F32.div (.zero s) a = .zero (s ^^ a.sign))

/-- The cases of an infinity that R14 does not list follow IEEE 754: the model's choice, log entry 15 (PRESUMED).  An
infinity with a finite value or one of its own sign stays that infinity in sums, a product with a nonzero value and a
quotient by a finite one are infinities with the XOR of the signs, and an infinity lies beyond every finite value. -/
def Obligations.InfinitiesFollowIeee : Prop :=
  (∀ s : Bool, F32.add (.inf s) (.inf s) = .inf s ∧ F32.sub (.inf s) (.inf !s) = .inf s) ∧
  (∀ s s' : Bool, F32.mul (.inf s) (.inf s') = .inf (s ^^ s')) ∧
  ∀ (a : F32) (s : Bool), a.isFinite = true →
    F32.add (.inf s) a = .inf s ∧ F32.add a (.inf s) = .inf s ∧
    F32.sub (.inf s) a = .inf s ∧ F32.sub a (.inf s) = .inf (!s) ∧
    F32.div (.inf s) a = .inf (s ^^ a.sign) ∧
    (a.isZero = false → F32.mul (.inf s) a = .inf (s ^^ a.sign) ∧ F32.mul a (.inf s) = .inf (a.sign ^^ s)) ∧
    F32.lt a (.inf false) = true ∧ F32.lt (.inf true) a = true

/-! ### Reset and silence -/

/-- R190: RESET makes every slot invalid, fills `RES_BUF` with +0 and sets `LPF_PREV` to +0: the state of R37; requests
held at the ports stay pending; a second RESET leaves the same.  While reset is asserted a step performs RESET and takes
no request from either port. -/
def Obligations.ResetRule : Prop :=
  ∀ s : State,
    (∃ t, exec .reset s = .next t ∧ (∀ k, t.slot k = none) ∧ (∀ x ∈ t.resBuf.toList, x = .zero false) ∧
      t.lpfPrev = .zero false ∧ t.voiceCount = 0#9 ∧ t.block = State.reset.block ∧
      t.eventPort = s.eventPort ∧ t.samplePort = s.samplePort ∧ t.resetLine = s.resetLine ∧
      t.arrivals = s.arrivals ∧ (t.sampleOut = s.sampleOut ∨ t.sampleOut = none) ∧
      ∃ t', exec .reset t = .next t' ∧ t'.block = t.block) ∧
    (s.resetLine = true → ∃ t, step s = .next t ∧ t.block = State.reset.block ∧
      (∃ new, t.eventPort = s.eventPort ++ new) ∧ s.samplePort ≤ t.samplePort)

/-- R194: from the state reset leaves, no operation but NOTE_ON changes the block's state, and every TICK returns
exactly +0. -/
def Obligations.SilenceUntilNoteOn : Prop :=
  ∀ (s : State) (i : Instr), s.block = State.reset.block → (∀ key freq vel, i ≠ .noteOn key freq vel) →
    ∃ t, exec i s = .next t ∧ t.block = State.reset.block ∧ (i = .tick → t.sampleOut = some 0#32)

/-- R196: a note-on followed by its note-off with no TICK in between makes no sound: the slot is in RELEASE at +0, and
the next TICK removes it and does all else as if the slot had been invalid. -/
def Obligations.NoteOnThenOffIsSilent : Prop :=
  ∀ (key : Key) (freq vel : F32) (s : State), ∃ u t t',
    performAll [.noteOn key freq vel, .noteOff key] s = .next u ∧
    u.slot (slotIndex key) =
      some { freq := freq, vel := vel, phase := .zero false, envState := .release, envAmp := .zero false } ∧
    exec .tick u = .next t ∧ t.slot (slotIndex key) = none ∧
    exec .tick (s.setSlot (slotIndex key) none) = .next t' ∧ t.block = t'.block

/-- R197: once `LPF_PREV` is a NaN or an infinity no operation but RESET makes it finite again, a NaN stays a NaN, and no
TICK returns a finite sample. -/
def Obligations.NonFiniteFilterUntilReset : Prop :=
  ∀ (s : State) (i : Instr), s.lpfPrev.isFinite = false → i ≠ .reset →
    ∃ t, exec i s = .next t ∧ t.lpfPrev.isFinite = false ∧ (s.lpfPrev = .nan → t.lpfPrev = .nan) ∧
      (i = .tick → ∃ w, t.sampleOut = some w ∧ (F32.ofBits w).isFinite = false)

/-- R197: a voice whose phase is NaN contributes NaN on every TICK that does not remove it, so the sample is a NaN and
`LPF_PREV` and the newest `RES_BUF` entry become NaN, while its envelope goes on. -/
def Obligations.NaNPhasePoisonsSample : Prop :=
  ∀ (s : State) (k : SlotIndex) (v : Voice), s.slot k = some v → v.phase = .nan →
    ∃ t, exec .tick s = .next t ∧
      (t.slot k = none ∨
        (t.slot k = some { (envProcess Config.cfg v).1 with phase := .nan } ∧ t.lpfPrev = .nan ∧
          t.resBuf.toList.getLast? = some .nan ∧ ∃ w, t.sampleOut = some w ∧ isNaNWord w = true))

/-- R148: with no valid slot and every `RES_BUF` entry and `LPF_PREV` finite, a TICK pushes +0, keeps all of them finite
and returns a finite sample. -/
def Obligations.SilentTickStaysFinite : Prop :=
  ∀ s : State, s.NoVoices → (∀ x ∈ s.resBuf.toList, x.isFinite = true) → s.lpfPrev.isFinite = true →
    ∃ t w, exec .tick s = .next t ∧ t.NoVoices ∧
      t.resBuf.toList = s.resBuf.toList.tail ++ [.zero false] ∧
      (∀ x ∈ t.resBuf.toList, x.isFinite = true) ∧ t.lpfPrev.isFinite = true ∧
      t.sampleOut = some w ∧ (F32.ofBits w).isFinite = true

/-- R148: with no valid slot and `RES_BUF` all +0, at most 1672 TICKs bring `LPF_PREV` from any finite value to exactly
±0, and from then on every sample is exactly ±0. -/
def Obligations.FilterDrainsWithin1672Ticks : Prop :=
  ∀ s : State, s.NoVoices → (∀ x ∈ s.resBuf.toList, x = .zero false) → s.lpfPrev.isFinite = true →
    ∀ n, 1672 ≤ n → ∃ t, performAll (List.replicate n .tick) s = .next t ∧ t.lpfPrev.isZero = true ∧
      ∃ t' w, exec .tick t = .next t' ∧ t'.sampleOut = some w ∧ (F32.ofBits w).isZero = true

/-- R149: with a legal configuration, `SR >= 1` and a sine unit of the properties of R17, the reset state is within the
bounds, and every operation within the bounds on `FREQ` and `VEL` keeps them: every phase, `RES_BUF` entry and `LPF_PREV`
stays finite.  In a TICK every waveform is finite with `|w| <= 1 + 0.3 × 501 + 0.1 × 501²`, and every contribution, the
mixed sample and the output are finite. -/
def Obligations.BoundedInputsStayFinite : Prop :=
  State.reset.Bounded ∧
  ∀ (cfg : Cfg) (i : Instr) (s : State), cfg.toParams.legal = true → SineOk cfg.sin → F32.le c_ONE cfg.sr = true →
    opBounded i → s.Bounded →
    ∃ t, execWith cfg i s = .next t ∧ t.Bounded ∧
      (∀ k v, t.slot k = some v → v.phase.isFinite = true) ∧ (∀ x ∈ t.resBuf.toList, x.isFinite = true) ∧
      t.lpfPrev.isFinite = true ∧
      (i = .tick →
        (∀ k v, s.slot k = some v →
          (voiceWave cfg v.vel (nextPhase cfg v)).isFinite = true ∧
          |(voiceWave cfg v.vel (nextPhase cfg v)).toRat| ≤ 1 + 3 / 10 * 501 + 1 / 10 * 501 ^ 2) ∧
        (∀ c ∈ contributions cfg s.slots, c.isFinite = true) ∧ (mixed cfg s.slots).isFinite = true ∧
        ∃ w, t.sampleOut = some w ∧ (F32.ofBits w).isFinite = true)

/-- R149 over steps: while the event host keeps to the bounds on `FREQ` and `VEL`, every step keeps the block within its
bounds, whatever the interleaving of the ports and of reset; the machine's own step is that of its configuration. -/
def Obligations.StepKeepsBounds : Prop :=
  (∀ s, step s = stepWith Config.cfg s) ∧
  ∀ (cfg : Cfg) (s t : State), cfg.toParams.legal = true → SineOk cfg.sin → F32.le c_ONE cfg.sr = true →
    s.Bounded → s.HostBounded → stepWith cfg s = .next t → t.Bounded ∧ t.HostBounded

/-! ### What may write what -/

/-- R22: `VALID[k]` is written only by NOTE_ON, which sets it, and by the removal step of TICK and reset, which clear
it; after reset it is 0. -/
def Obligations.ValidWrittenOnlyBy : Prop :=
  (∀ k, State.reset.valid k = false) ∧
  ∀ (i : Instr) (s t : State) (k : SlotIndex), exec i s = .next t → s.valid k ≠ t.valid k →
    (∃ key freq vel, i = .noteOn key freq vel ∧ slotIndex key = k ∧ t.valid k = true) ∨
    (i = .tick ∧ t.valid k = false ∧ ∃ v, s.slot k = some v ∧
      (envProcess Config.cfg v).1.envState = .idle ∧ F32.feq (envProcess Config.cfg v).2 (.zero false) = true) ∨
    (i = .reset ∧ t.valid k = false)

/-- R23, R24 and R25: of a voice that stays, only a NOTE_ON of its key writes `FREQ` and `VEL`, and only that and TICK
write `PHASE`. -/
def Obligations.VoiceFieldsWrittenOnlyBy : Prop :=
  ∀ (i : Instr) (s t : State) (k : SlotIndex) (v v' : Voice), exec i s = .next t →
    s.slot k = some v → t.slot k = some v' → (∀ key freq vel, i = .noteOn key freq vel → slotIndex key ≠ k) →
    v'.freq = v.freq ∧ v'.vel = v.vel ∧ (i ≠ .tick → v'.phase = v.phase)

/-- R29 and R30: `RES_BUF` and `LPF_PREV` are written only by TICK and reset; so is the response held on the sample
port, which the model keeps as `sampleOut` (the model's choice, log entry 9). -/
def Obligations.SharedStateWrittenOnlyBy : Prop :=
  ∀ (i : Instr) (s t : State), exec i s = .next t → i ≠ .tick → i ≠ .reset →
    t.resBuf = s.resBuf ∧ t.lpfPrev = s.lpfPrev ∧ t.sampleOut = s.sampleOut

/-! ### Ports, order and runs -/

/-- R53, R57, R58, R78, R80: a step performs the operation that the request granted decodes to, from the state with that
one request taken off its port; then the outside world's next round takes place.  Where both ports hold a request, the
port not granted last has its turn, and either port where none has been granted since reset.  The queues of held
requests, the arbiter's pointer, the index of free values and the rounds are the model's form (log entries 7, 8, 10 and
18). -/
def Obligations.StepPerformsDecodedRequest : Prop :=
  ∀ s : State,
    (s.resetLine = true → step s = thenArrive (exec .reset s)) ∧
    (∀ w ws, s.resetLine = false → s.eventPort = w :: ws → s.samplePort = 0 →
      step s = thenArrive (exec (decodeCommand w) { s with eventPort := ws, lastGrant := some .event })) ∧
    (∀ n, s.resetLine = false → s.eventPort = [] → s.samplePort = n + 1 →
      step s = thenArrive (exec .tick { s with samplePort := n, lastGrant := some .sample })) ∧
    (s.resetLine = false → s.eventPort = [] → s.samplePort = 0 → step s = .next s.arrive) ∧
    (∀ w ws n, s.resetLine = false → s.eventPort = w :: ws → s.samplePort = n + 1 →
      let command := fun d =>
        thenArrive (exec (decodeCommand w) { s with eventPort := ws, lastGrant := some .event, draws := d })
      let tick := fun d => thenArrive (exec .tick { s with samplePort := n, lastGrant := some .sample, draws := d })
      (s.lastGrant = some .event → step s = tick s.draws) ∧
      (s.lastGrant = some .sample → step s = command s.draws) ∧
      (s.lastGrant = none →
        s.grant.1 = some (.command w) ∧ step s = command (s.draws + 1) ∨
        s.grant.1 = some .sample ∧ step s = tick (s.draws + 1)))

/-- R55, R57, R78: a step takes the oldest word off the event port where it grants that port and nothing else from it,
and one request off the sample port where it grants that; then the requests of the arriving round, and no others, wait
behind those held, its command words in the order presented.  The rounds are the model's form (log entry 7). -/
def Obligations.EventPortIsFifo : Prop :=
  ∀ s t : State, step s = .next t →
    let round := s.arrivals.headD []
    let words := round.filterMap Arrival.command?
    (∀ w, s.grant.1 = some (.command w) → ∃ ws, s.eventPort = w :: ws ∧ t.eventPort = ws ++ words) ∧
    ((∀ w, s.grant.1 ≠ some (.command w)) → t.eventPort = s.eventPort ++ words) ∧
    t.samplePort + (if s.grant.1 = some .sample then 1 else 0) = s.samplePort + round.count .sampleRequest ∧
    t.arrivals = s.arrivals.tail

/-- R57: a request pending on one port is performed after at most one operation from the other port, while the block is
out of reset: it is granted now, or the other port is granted now and it is granted next. -/
def Obligations.PendingRequestWaitsAtMostOne : Prop :=
  ∀ s t : State, s.resetLine = false → step s = .next t → t.resetLine = false →
    (∀ w ws, s.eventPort = w :: ws →
      s.grant.1 = some (.command w) ∨ (s.grant.1 = some .sample ∧ t.grant.1 = some (.command w))) ∧
    (0 < s.samplePort →
      s.grant.1 = some .sample ∨ ((∃ w, s.grant.1 = some (.command w)) ∧ t.grant.1 = some .sample))

/-- R170: no operation raises an exception; every operation, in every state, completes, and so does every step. -/
def Obligations.NothingEverStops : Prop :=
  (∀ (i : Instr) (s : State), GoesOn (exec i s)) ∧ ∀ s : State, GoesOn (step s)

/-- R180 and R183: with no request held, reset released and nothing arriving, the block keeps all of its state. -/
def Obligations.IdleKeepsState : Prop :=
  ∀ s : State, s.resetLine = false → s.eventPort = [] → s.samplePort = 0 → s.arrivals = [] → step s = .next s

/-- R54, R56 and R190: for every sequence of requests, and so for every interleaving of the two ports' streams and of
reset, there is an outside world in which the machine performs exactly that sequence in that order; the hosts observe the
sample words and the VOICE_COUNT values (R39) of the operations performed one after the other, and the block's state is
the one these leave.  The rounds of the outside world are the model's form (log entry 7); that a TICK's word counts as
observed even where a RESET follows, when its response may be discarded (R190, 93 U13), is the model's choice (log entry
22). -/
def Obligations.EveryInterleavingIsARun : Prop :=
  ∀ (s : State) (rs : List Request), s.resetLine = false → s.eventPort = [] → s.samplePort = 0 →
    ∃ (arrivals : List (List Arrival)) (n : Nat) (t u : State),
      let s' := { s with arrivals := arrivals }
      Host.Core.run Sys2Proof.core n s' = .next t ∧ (trace n s').map Prod.fst = rs ∧
      performAll (rs.map decode) s = .next u ∧ observations n s' = observeAll (rs.map decode) s ∧
      t.block = u.block ∧ t.eventPort = [] ∧ t.samplePort = 0

/-- R54 and R39: every run, under every outside world, is its operations performed one after the other: the block's state
is the one they leave, and what the hosts observe, every sample up to the pattern of a NaN (93 U3) and every VOICE_COUNT,
is what they give in that order.  That a TICK's word counts as observed even where a RESET follows is the model's
choice (log entry 22). -/
def Obligations.RunsAreOperationsInOrder : Prop :=
  ∀ (n : Nat) (s : State),
    let is := (trace n s).map fun p => decode p.1
    ∃ t u, Host.Core.run Sys2Proof.core n s = .next t ∧ performAll is s = .next u ∧ t.block = u.block ∧
      (observations n s).map Observation.value = (observeAll is s).map Observation.value ∧
      (sampleWords n s).length = is.count .tick ∧ (voiceCounts n s).length = is.length

/-! ### Invariants -/

/-- R36 (a) to (d) at reset: no slot is valid. -/
def Obligations.ResetMeetsInvariants : Prop := State.reset.Inv Config.cfg ∧ State.reset.voiceCount = 0#9

/-- R36 (a) to (d): no valid slot is in IDLE, its amplitude lies in [0, 1], in SUSTAIN it is the sustain level, and its
phase is NaN or in [+0, `TWO_PI`); every step keeps these. -/
def Obligations.StepKeepsInvariants : Prop :=
  ∀ s t : State, s.Inv Config.cfg → step s = .next t → t.Inv Config.cfg

/-- R31: VOICE_COUNT is the number of valid slots, between 0 and 256, and 0 after reset; an operation on the event port
raises it by one or leaves it (R120 to R122). -/
def Obligations.VoiceCountCountsValidSlots : Prop :=
  State.reset.voiceCount = 0#9 ∧ ∀ s : State, s.voiceCount.toNat = ((List.finRange 256).filter fun k => s.valid k).length ∧
    s.voiceCount.toNat ≤ 256 ∧
    ∀ (w : CommandWord) (t : State), exec (decodeCommand w) s = .next t →
      t.voiceCount.toNat = s.voiceCount.toNat ∨ t.voiceCount.toNat = s.voiceCount.toNat + 1

/-! ### The host side -/

/-- R160 to R162: the adapter's frequency of a MIDI key is `440 × 2^((m − 69)/12)` rounded once (it is what two
rationals around the real value both round to), and the velocity is `v7 / 127` rounded once.  A MIDI note-on is sent as
a NOTE_ON of these, but at velocity 0 it may be sent as a NOTE_OFF; a MIDI note-off is sent as a NOTE_OFF. -/
def Obligations.AdapterRoundsOnce : Prop :=
  ∀ m v7 : Fin 128,
    (∃ lo hi : ℚ, (lo : ℝ) ≤ 440 * (2 : ℝ) ^ (((m.val : ℝ) - 69) / 12) ∧
      440 * (2 : ℝ) ^ (((m.val : ℝ) - 69) / 12) ≤ (hi : ℝ) ∧ F32.F lo = freqOf m ∧ F32.F hi = freqOf m) ∧
    velOf v7 = F32.F ((v7.val : ℚ) / 127) ∧ (midiKey m).toNat = m.val ∧
    (v7 ≠ 0 → adapterNoteOn m v7 = .noteOn (midiKey m) (freqOf m) (velOf v7)) ∧
    adapterNoteOn m 0 ∈ [Instr.noteOn (midiKey m) (freqOf m) (velOf 0), .noteOff (midiKey m)] ∧
    adapterNoteOff m = .noteOff (midiKey m)

/-- R81 and R82: the requests each line of the assembler is assembled to decode to the operations it stands for, with
every form of a frequency or velocity operand. -/
def Obligations.AssembledLinesDecode : Prop :=
  (∀ key freq vel, (assemble (.noteOn key freq vel)).map decode =
    [.noteOn key (F32.ofBits (asmWord freq)) (F32.ofBits (asmWord vel))]) ∧
  (∀ x : ℚ, F32.ofBits (asmWord (.decimal x)) = F32.F x) ∧ (∀ w, asmWord (.pattern w) = w) ∧
  asmWord .inf = 0x7F800000#32 ∧ asmWord .negInf = 0xFF800000#32 ∧ asmWord .nan = 0x7FC00000#32 ∧
  F32.ofBits (asmWord .inf) = .inf false ∧ F32.ofBits (asmWord .negInf) = .inf true ∧
  F32.ofBits (asmWord .nan) = .nan ∧
  (∀ key, (assemble (.noteOff key)).map decode = [.noteOff key]) ∧
  (assemble .nop).map decode = [.nop] ∧ (assemble .tick).map decode = [.tick] ∧
  (assemble .reset).map decode = [.reset] ∧
  (∀ op, (AsmLine.rsvd op).valid = true →
    assemble (.rsvd op) = [.command (packCommand 0#32 0#32 0#8 op)] ∧
    ∀ s, exec (decode (.command (packCommand 0#32 0#32 0#8 op))) s = .next s) ∧
  (∀ m v7, (assemble (.midiOn m v7)).map decode = [.noteOn (midiKey m) (freqOf m) (velOf v7)]) ∧
  (∀ m, (assemble (.midiOff m)).map decode = [.noteOff (midiKey m)]) ∧
  ∀ n, (assemble (.ticks n)).map decode = List.replicate n .tick
end

