-- ==== Sys2Proof/Laws/Rounding.lean ====
section
/-!
SUPPORT. The rounding of spec/00_scope.md rule R11 in whole numbers: rounding to an integer is within a half, monotone
and exact, and so is rounding to the binary32 grid.
-/

namespace Sys2Proof

/-! ### Rounding to an integer -/

/-- `roundNearestEven p q` is at most half a unit above or below `p / q`. -/
theorem roundNearestEven_bounds (p : Nat) {q : Nat} (hq : 0 < q) :
    2 * p ≤ q * (2 * roundNearestEven p q + 1) ∧ q * (2 * roundNearestEven p q) ≤ 2 * p + q := by
  have hp := Nat.div_add_mod p q
  have hr := Nat.mod_lt p hq
  unfold roundNearestEven
  generalize p / q = d at *
  generalize p % q = r at *
  subst hp
  split_ifs <;> constructor <;> ring_nf <;> omega

/-- A tie goes to the even neighbour. -/
theorem roundNearestEven_tie {p q n : Nat} (hq : 0 < q) (h : 2 * p = q * (2 * n + 1)) :
    roundNearestEven p q = if n % 2 = 0 then n else n + 1 := by
  have hd : p / q = n := Nat.div_eq_of_lt_le (by nlinarith) (by nlinarith)
  have hp := Nat.div_add_mod p q
  rw [hd] at hp
  have hr : 2 * (p % q) = q := by nlinarith
  unfold roundNearestEven
  rw [hd, if_neg (by omega), if_neg (by omega)]

/-- Rounding to an integer is monotone. -/
theorem roundNearestEven_mono {p q p' q' : Nat} (hq : 0 < q) (hq' : 0 < q') (h : p * q' ≤ p' * q) :
    roundNearestEven p q ≤ roundNearestEven p' q' := by
  by_contra hlt
  have hb := roundNearestEven_bounds p hq
  have hb' := roundNearestEven_bounds p' hq'
  have t := @roundNearestEven_tie p q (roundNearestEven p' q') hq
  have t' := @roundNearestEven_tie p' q' (roundNearestEven p' q') hq'
  generalize roundNearestEven p q = n at *
  generalize roundNearestEven p' q' = n' at *
  have h1 : q * (2 * n' + 1) ≤ 2 * p := by nlinarith
  have h2 : 2 * p' ≤ q' * (2 * n' + 1) := hb'.1
  have e1 : 2 * p = q * (2 * n' + 1) := by
    refine le_antisymm ?_ h1
    have : 2 * p * q' ≤ q * (2 * n' + 1) * q' := by nlinarith
    exact Nat.le_of_mul_le_mul_right this hq'
  have e2 : 2 * p' = q' * (2 * n' + 1) := by
    refine le_antisymm h2 ?_
    have : q' * (2 * n' + 1) * q ≤ 2 * p' * q := by nlinarith
    exact Nat.le_of_mul_le_mul_right this hq
  have r1 := t e1
  have r2 := t' e2
  omega

/-- A whole number is rounded to itself. -/
theorem roundNearestEven_exact (n : Nat) {q : Nat} (hq : 0 < q) : roundNearestEven (n * q) q = n := by
  have h0 : n * q % q = 0 := Nat.mul_mod_left n q
  have h1 : n * q / q = n := Nat.mul_div_cancel n hq
  unfold roundNearestEven
  rw [h0, h1, if_pos (by omega)]

/-- Rounding never passes a whole number that the value does not pass. -/
theorem roundNearestEven_le {p q n : Nat} (hq : 0 < q) (h : p ≤ n * q) : roundNearestEven p q ≤ n := by
  have := roundNearestEven_mono (p := p) (q := q) (p' := n * q) (q' := q) hq hq (Nat.mul_le_mul_right q h)
  rwa [roundNearestEven_exact n hq] at this

/-- Rounding never falls below a whole number that the value does not fall below. -/
theorem le_roundNearestEven {p q n : Nat} (hq : 0 < q) (h : n * q ≤ p) : n ≤ roundNearestEven p q := by
  have := roundNearestEven_mono (p := n * q) (q := q) (p' := p) (q' := q) hq hq (Nat.mul_le_mul_right q h)
  rwa [roundNearestEven_exact n hq] at this

/-! ### Rounding to the binary32 grid -/

/-- The exponent of the grid a magnitude of `p / q` units is rounded on. -/
def gridExp (p q : Nat) : Nat := Nat.log2 (p / q) - 23

/-- A magnitude of `p / q` units of `2^-149` rounded to 24 significant bits, in whole units. -/
def gridRound (p q : Nat) : Nat := roundNearestEven p (q * 2 ^ gridExp p q) * 2 ^ gridExp p q

/-- The magnitude lies below the top of its grid. -/
theorem lt_gridTop (p : Nat) {q : Nat} (hq : 0 < q) : p < 2 ^ 24 * (q * 2 ^ gridExp p q) := by
  have h : p / q < 2 ^ (24 + gridExp p q) := by
    by_cases h0 : p / q = 0
    · rw [h0]; positivity
    · have := (Nat.log2_lt (n := p / q) (k := Nat.log2 (p / q) + 1) h0).1 (by omega)
      refine lt_of_lt_of_le this (Nat.pow_le_pow_right (by norm_num) ?_)
      unfold gridExp; omega
  have := (Nat.div_lt_iff_lt_mul hq).1 h
  rw [pow_add] at this
  calc p < _ := this
    _ = _ := by ring

/-- On a grid above the lowest the magnitude has its 24 significant bits. -/
theorem gridBottom_le {p q : Nat} (h : 0 < gridExp p q) : 2 ^ 23 * (q * 2 ^ gridExp p q) ≤ p := by
  have h0 : p / q ≠ 0 := by
    intro h0
    simp [gridExp, h0] at h
  have hl := Nat.log2_self_le h0
  have he : Nat.log2 (p / q) = 23 + gridExp p q := by unfold gridExp at *; omega
  rw [he] at hl
  calc _ = 2 ^ (23 + gridExp p q) * q := by rw [pow_add]; ring
    _ ≤ p / q * q := Nat.mul_le_mul_right q hl
    _ ≤ p := Nat.div_mul_le_self p q

/-- A larger magnitude is not rounded on a finer grid. -/
theorem gridExp_mono {p q p' q' : Nat} (hq : 0 < q) (hq' : 0 < q') (h : p * q' ≤ p' * q) :
    gridExp p q ≤ gridExp p' q' := by
  have hd : p / q ≤ p' / q' := by
    rw [Nat.le_div_iff_mul_le hq']
    have h1 : p / q * q' * q ≤ p' * q := by
      calc p / q * q' * q = p / q * q * q' := by ring
        _ ≤ p * q' := Nat.mul_le_mul_right q' (Nat.div_mul_le_self p q)
        _ ≤ _ := h
    exact Nat.le_of_mul_le_mul_right h1 hq
  have : Nat.log2 (p / q) ≤ Nat.log2 (p' / q') := by
    by_cases h0 : p / q = 0
    · simp [h0]
    · have h0' : p' / q' ≠ 0 := fun h1 => h0 (Nat.le_zero.1 (h1 ▸ hd))
      rw [Nat.le_log2 h0']
      exact le_trans (Nat.log2_self_le h0) hd
  unfold gridExp; omega

/-- The rounded magnitude fits in 24 bits on its grid. -/
theorem gridRound_le_top (p : Nat) {q : Nat} (hq : 0 < q) :
    roundNearestEven p (q * 2 ^ gridExp p q) ≤ 2 ^ 24 :=
  roundNearestEven_le (by positivity) (lt_gridTop p hq).le

/-- The rounded magnitude keeps its 24 significant bits on a grid above the lowest. -/
theorem gridRound_ge_bottom {p q : Nat} (hq : 0 < q) (h : 0 < gridExp p q) :
    2 ^ 23 ≤ roundNearestEven p (q * 2 ^ gridExp p q) :=
  le_roundNearestEven (by positivity) (gridBottom_le h)

/-- Rounding to the grid is monotone. -/
theorem gridRound_mono {p q p' q' : Nat} (hq : 0 < q) (hq' : 0 < q') (h : p * q' ≤ p' * q) :
    gridRound p q ≤ gridRound p' q' := by
  rcases Nat.lt_or_eq_of_le (gridExp_mono hq hq' h) with hlt | heq
  · have h1 := gridRound_le_top p hq
    have h2 := gridRound_ge_bottom hq' (lt_of_le_of_lt (Nat.zero_le _) hlt)
    unfold gridRound
    calc _ ≤ 2 ^ 24 * 2 ^ gridExp p q := Nat.mul_le_mul_right _ h1
      _ = 2 ^ 23 * 2 ^ (gridExp p q + 1) := by rw [pow_succ]; ring
      _ ≤ 2 ^ 23 * 2 ^ gridExp p' q' :=
        Nat.mul_le_mul_left _ (Nat.pow_le_pow_right (by norm_num) hlt)
      _ ≤ _ := Nat.mul_le_mul_right _ h2
  · unfold gridRound
    rw [heq]
    refine Nat.mul_le_mul_right _ (roundNearestEven_mono (by positivity) (by positivity) ?_)
    calc p * (q' * 2 ^ gridExp p' q') = p * q' * 2 ^ gridExp p' q' := by ring
      _ ≤ p' * q * 2 ^ gridExp p' q' := Nat.mul_le_mul_right _ h
      _ = _ := by ring

/-- A magnitude on the grid is unchanged: `m` units of `2^e` with `m` of at most 24 bits. -/
theorem gridRound_exact {m e q : Nat} (hq : 0 < q) (hm : m ≤ 2 ^ 24) :
    gridRound (m * 2 ^ e * q) q = m * 2 ^ e := by
  have key : ∀ g, gridExp (m * 2 ^ e * q) q = g → g ≤ e → gridRound (m * 2 ^ e * q) q = m * 2 ^ e := by
    intro g hg hge
    unfold gridRound
    rw [hg]
    obtain ⟨c, rfl⟩ := Nat.exists_eq_add_of_le hge
    have : m * 2 ^ (g + c) * q = m * 2 ^ c * (q * 2 ^ g) := by rw [pow_add]; ring
    rw [this, roundNearestEven_exact _ (by positivity), pow_add]; ring
  rcases Nat.lt_or_eq_of_le hm with hlt | rfl
  · refine key _ rfl ?_
    unfold gridExp
    rw [Nat.mul_div_cancel _ hq]
    by_cases h0 : m * 2 ^ e = 0
    · simp [h0]
    · have : Nat.log2 (m * 2 ^ e) < 24 + e := by
        rw [Nat.log2_lt h0, pow_add]
        exact Nat.mul_lt_mul_of_pos_right hlt (by positivity)
      omega
  · have he : gridExp (2 ^ 24 * 2 ^ e * q) q = e + 1 := by
      unfold gridExp
      rw [Nat.mul_div_cancel _ hq, ← pow_add, Nat.log2_two_pow]; omega
    unfold gridRound
    rw [he]
    have : 2 ^ 24 * 2 ^ e * q = 2 ^ 23 * (q * 2 ^ (e + 1)) := by rw [pow_succ]; ring
    rw [this, roundNearestEven_exact _ (by positivity), pow_succ]; ring

/-- The rounded magnitude is within half a grid step of the exact one. -/
theorem gridRound_within (p : Nat) {q : Nat} (hq : 0 < q) :
    2 * p ≤ q * (2 * gridRound p q + 2 ^ gridExp p q) ∧ q * (2 * gridRound p q) ≤ 2 * p + q * 2 ^ gridExp p q := by
  have h := roundNearestEven_bounds p (q := q * 2 ^ gridExp p q) (by positivity)
  unfold gridRound
  constructor
  · calc 2 * p ≤ _ := h.1
      _ = _ := by ring
  · calc _ = q * 2 ^ gridExp p q * (2 * roundNearestEven p (q * 2 ^ gridExp p q)) := by ring
      _ ≤ _ := h.2

end Sys2Proof
end

