-- ==== Sys2Proof/Laws/Float.lean ====
section
/-!
SUPPORT. What the binary32 primitives of spec/00_scope.md rules R11 to R16 do, through one order-preserving key: the
value in units of `2^-149`, with the infinities beyond every finite value.  The key of a NaN means nothing.
-/

namespace Sys2Proof

/-- The magnitude of the infinities' keys: `2^128` in units of `2^-149`. -/
def magTop : Nat := 2 ^ 23 * 2 ^ 254

/-- The key of +∞. -/
def keyTop : Int := magTop

theorem magTop_gt : 2 ^ 23 < magTop := by decide +kernel
theorem keyTop_pos : 0 < keyTop := by decide +kernel

/-- The value in units of `2^-149`; −0 and +0 share the key 0. -/
def F32.key : F32 → Int
  | .inf neg => if neg then -keyTop else keyTop
  | x => x.units

/-! ### Shape of the values -/

@[simp] theorem F32.key_nan : F32.nan.key = 0 := rfl
@[simp] theorem F32.key_zero (s : Bool) : (F32.zero s).key = 0 := rfl
@[simp] theorem F32.key_posInf : (F32.inf false).key = keyTop := rfl
@[simp] theorem F32.key_negInf : (F32.inf true).key = -keyTop := rfl
@[simp] theorem F32.units_zero (s : Bool) : (F32.zero s).units = 0 := rfl
@[simp] theorem F32.toRat_zero (s : Bool) : (F32.zero s).toRat = 0 := by simp [F32.toRat]

theorem F32.key_norm (s : Bool) (e : Fin 254) (f : BitVec 23) :
    (F32.norm s e f).key = if s then -((2 ^ 23 + f.toNat) * 2 ^ e.val : Int) else (2 ^ 23 + f.toNat) * 2 ^ e.val := rfl

/-- The magnitude of a normal value in units lies in the normal range. -/
theorem F32.norm_magnitude (e : Fin 254) (f : BitVec 23) :
    2 ^ 23 ≤ (2 ^ 23 + f.toNat) * 2 ^ e.val ∧ (2 ^ 23 + f.toNat) * 2 ^ e.val < magTop := by
  have hf := f.isLt
  have he := e.isLt
  constructor
  · exact le_trans (Nat.le_add_right _ _) (Nat.le_mul_of_pos_right _ (by positivity))
  · calc _ < 2 ^ 24 * 2 ^ e.val := Nat.mul_lt_mul_of_pos_right (by omega) (by positivity)
      _ ≤ 2 ^ 24 * 2 ^ 253 := Nat.mul_le_mul_left _ (Nat.pow_le_pow_right (by norm_num) (by omega))
      _ = magTop := by unfold magTop; rw [← pow_add, ← pow_add]

theorem F32.isFinite_iff (x : F32) : x.isFinite = true ↔ (∃ s, x = .zero s) ∨ ∃ s e f, x = .norm s e f := by
  cases x <;> simp [F32.isFinite]

theorem F32.isNormal_isFinite {x : F32} (h : x.isNormal = true) : x.isFinite = true := by
  cases x <;> simp_all [F32.isNormal, F32.isFinite]

theorem F32.isFinite_not_nan {x : F32} (h : x.isFinite = true) : x ≠ .nan := by
  rintro rfl; simp [F32.isFinite] at h

theorem F32.key_eq_units {x : F32} (h : x.isFinite = true) : x.key = x.units := by
  cases x <;> simp_all [F32.isFinite, F32.key]

/-- The key of a normal value is its magnitude with its sign. -/
theorem F32.key_norm' (s : Bool) (e : Fin 254) (f : BitVec 23) :
    (F32.norm s e f).key =
      if s then -(((2 ^ 23 + f.toNat) * 2 ^ e.val : Nat) : Int) else ((2 ^ 23 + f.toNat) * 2 ^ e.val : Nat) := by
  rw [F32.key_norm]; push_cast; rfl

/-- Exactly the finite values have a key inside the infinities. -/
theorem F32.isFinite_iff_key {x : F32} (h : x ≠ .nan) : x.isFinite = true ↔ -keyTop < x.key ∧ x.key < keyTop := by
  have ht := keyTop_pos
  cases x with
  | nan => exact absurd rfl h
  | inf s => cases s <;> simp [F32.isFinite, F32.key]
  | zero s => simpa [F32.isFinite] using ht
  | norm s e f =>
    have hm := (F32.norm_magnitude e f).2
    rw [F32.key_norm']
    unfold keyTop
    generalize (2 ^ 23 + f.toNat) * 2 ^ e.val = m at *
    cases s <;> simp [F32.isFinite] <;> omega

theorem F32.key_le_top (x : F32) : x.key ≤ keyTop ∧ -keyTop ≤ x.key := by
  have ht := keyTop_pos
  by_cases h : x = .nan
  · subst h; simp; omega
  · by_cases hf : x.isFinite = true
    · have := (F32.isFinite_iff_key h).1 hf; omega
    · cases x with
      | inf s => cases s <;> simp <;> omega
      | _ => simp_all [F32.isFinite]

theorem F32.toRat_eq (x : F32) : x.toRat = (x.units : ℚ) / 2 ^ 149 := by
  rw [F32.toRat, Rat.mkRat_eq_div]; norm_num

theorem F32.toRat_eq_key {x : F32} (h : x.isFinite = true) : x.toRat = (x.key : ℚ) / 2 ^ 149 := by
  rw [F32.toRat_eq, F32.key_eq_units h]

theorem F32.toRat_le_iff {x y : F32} (hx : x.isFinite = true) (hy : y.isFinite = true) :
    x.toRat ≤ y.toRat ↔ x.key ≤ y.key := by
  rw [F32.toRat_eq_key hx, F32.toRat_eq_key hy, div_le_div_iff_of_pos_right (by positivity)]
  exact_mod_cast Iff.rfl

@[simp] theorem F32.key_neg (x : F32) : x.neg.key = -x.key := by
  cases x with
  | nan => rfl
  | inf s => cases s <;> simp [F32.neg]
  | zero s => rfl
  | norm s e f => cases s <;> simp [F32.neg, F32.key_norm]

@[simp] theorem F32.isFinite_neg (x : F32) : x.neg.isFinite = x.isFinite := by cases x <;> rfl

@[simp] theorem F32.toRat_neg (x : F32) : x.neg.toRat = -x.toRat := by
  by_cases h : x.isFinite = true
  · rw [F32.toRat_eq_key h, F32.toRat_eq_key (by simpa using h), F32.key_neg]; push_cast; ring
  · cases x with
    | nan => simp [F32.neg, F32.toRat, F32.units]
    | inf s => simp [F32.neg, F32.toRat, F32.units]
    | _ => simp_all [F32.isFinite]

/-! ### Comparisons (R14) -/

theorem F32.le_of_finite {x y : F32} (hx : x.isFinite = true) (hy : y.isFinite = true) :
    F32.le x y = decide (x.toRat ≤ y.toRat) := by
  cases x <;> cases y <;> simp_all [F32.isFinite, F32.le, F32.isNaN, F32.isInfinite]

/-- `<=` is the order of the keys, and false when either side is a NaN. -/
theorem F32.le_iff {x y : F32} : F32.le x y = true ↔ x ≠ .nan ∧ y ≠ .nan ∧ x.key ≤ y.key := by
  have ht := keyTop_pos
  by_cases hx : x = .nan
  · subst hx; simp [F32.le, F32.isNaN]
  by_cases hy : y = .nan
  · subst hy; simp [F32.le, F32.isNaN]
  by_cases hfx : x.isFinite = true
  · by_cases hfy : y.isFinite = true
    · rw [F32.le_of_finite hfx hfy, decide_eq_true_iff, F32.toRat_le_iff hfx hfy]
      simp [hx, hy]
    · have hk := (F32.isFinite_iff_key hx).1 hfx
      cases y with
      | inf s =>
        cases x <;> cases s <;>
          simp_all [F32.isFinite, F32.le, F32.isNaN, F32.isInfinite, F32.sign] <;> omega
      | _ => simp_all [F32.isFinite]
  · cases x with
    | inf s =>
      by_cases hfy : y.isFinite = true
      · have hk := (F32.isFinite_iff_key hy).1 hfy
        cases y <;> cases s <;>
          simp_all [F32.isFinite, F32.le, F32.isNaN, F32.isInfinite, F32.sign] <;> omega
      · cases y with
        | inf s' =>
          cases s <;> cases s' <;> simp [F32.le, F32.isNaN, F32.isInfinite, F32.sign] <;> omega
        | _ => simp_all [F32.isFinite]
    | _ => simp_all [F32.isFinite]

theorem F32.isNaN_iff {x : F32} : x.isNaN = true ↔ x = .nan := by cases x <;> simp [F32.isNaN]

/-- `<` is the strict order of the keys, and false when either side is a NaN. -/
theorem F32.lt_iff {x y : F32} : F32.lt x y = true ↔ x ≠ .nan ∧ y ≠ .nan ∧ x.key < y.key := by
  unfold F32.lt
  rw [Bool.and_eq_true, Bool.and_eq_true, Bool.not_eq_true', Bool.not_eq_true', Bool.not_eq_true',
    ← Bool.not_eq_true, ← Bool.not_eq_true, ← Bool.not_eq_true, F32.isNaN_iff, F32.isNaN_iff, F32.le_iff]
  constructor
  · rintro ⟨⟨hx, hy⟩, h⟩
    exact ⟨hx, hy, by by_contra hc; exact h ⟨hy, hx, by omega⟩⟩
  · rintro ⟨hx, hy, h⟩
    exact ⟨⟨hx, hy⟩, fun hc => by omega⟩

/-- `==` is equality of the keys, and false when either side is a NaN. -/
theorem F32.feq_iff {x y : F32} : F32.feq x y = true ↔ x ≠ .nan ∧ y ≠ .nan ∧ x.key = y.key := by
  unfold F32.feq
  rw [Bool.and_eq_true, F32.le_iff, F32.le_iff]
  constructor
  · rintro ⟨⟨hx, hy, h1⟩, _, _, h2⟩; exact ⟨hx, hy, le_antisymm h1 h2⟩
  · rintro ⟨hx, hy, h⟩; exact ⟨⟨hx, hy, h.le⟩, hy, hx, h.ge⟩

/-! ### The rounding `F` (R11) -/

/-- What packing a rounded magnitude gives. -/
theorem packRounded_cases (neg : Bool) {e n : Nat} (hn : n < 2 ^ 24) :
    (n < 2 ^ 23 ∧ packRounded neg e n = .zero neg) ∨
    (2 ^ 23 ≤ n ∧ n * 2 ^ e < magTop ∧ ∃ e' f, packRounded neg e n = .norm neg e' f ∧
      (2 ^ 23 + f.toNat) * 2 ^ e'.val = n * 2 ^ e) ∨
    (2 ^ 23 ≤ n ∧ magTop ≤ n * 2 ^ e ∧ packRounded neg e n = .inf neg) := by
  unfold packRounded
  by_cases h23 : n < 2 ^ 23
  · left; rw [if_pos h23]; exact ⟨h23, rfl⟩
  · rw [if_neg h23]
    by_cases he : e < 254
    · right; left
      rw [dif_pos he]
      have hf : (BitVec.ofNat 23 (n - 2 ^ 23)).toNat = n - 2 ^ 23 := by
        rw [BitVec.toNat_ofNat, Nat.mod_eq_of_lt (by omega)]
      have hs : 2 ^ 23 + (BitVec.ofNat 23 (n - 2 ^ 23)).toNat = n := by omega
      have hm := F32.norm_magnitude ⟨e, he⟩ (BitVec.ofNat 23 (n - 2 ^ 23))
      rw [hs] at hm
      exact ⟨by omega, hm.2, ⟨e, he⟩, _, rfl, by rw [hs]⟩
    · right; right
      rw [dif_neg he]
      refine ⟨by omega, ?_, rfl⟩
      calc magTop = 2 ^ 23 * 2 ^ 254 := rfl
        _ ≤ n * 2 ^ e := Nat.mul_le_mul (by omega) (Nat.pow_le_pow_right (by norm_num) (by omega))

/-- What rounding a magnitude gives: a flushed zero, a normal value of the rounded magnitude, or an infinity. -/
theorem roundMagnitude_cases (neg : Bool) (p : Nat) {q : Nat} (hq : 0 < q) :
    (gridRound p q < 2 ^ 23 ∧ roundMagnitude neg p q = .zero neg) ∨
    (gridRound p q < magTop ∧ ∃ e f, roundMagnitude neg p q = .norm neg e f ∧
      (2 ^ 23 + f.toNat) * 2 ^ e.val = gridRound p q) ∨
    (magTop ≤ gridRound p q ∧ roundMagnitude neg p q = .inf neg) := by
  have htop := gridRound_le_top p hq
  have hbot := @gridRound_ge_bottom p q hq
  have hr : roundMagnitude neg p q =
      if roundNearestEven p (q * 2 ^ gridExp p q) = 2 ^ 24 then packRounded neg (gridExp p q + 1) (2 ^ 23)
      else packRounded neg (gridExp p q) (roundNearestEven p (q * 2 ^ gridExp p q)) := rfl
  rw [hr]
  unfold gridRound
  generalize gridExp p q = e at *
  generalize roundNearestEven p (q * 2 ^ e) = n at *
  by_cases h24 : n = 2 ^ 24
  · subst h24
    have hs : 2 ^ 24 * 2 ^ e = 2 ^ 23 * 2 ^ (e + 1) := by rw [pow_succ 2 e]; ring
    rw [if_pos rfl, hs]
    rcases packRounded_cases neg (e := e + 1) (n := 2 ^ 23) (by norm_num) with h | h | h
    · exact absurd h.1 (by norm_num)
    · exact Or.inr (Or.inl h.2)
    · exact Or.inr (Or.inr h.2)
  · rw [if_neg h24]
    rcases packRounded_cases neg (e := e) (n := n) (lt_of_le_of_ne htop h24) with h | h | h
    · have he : e = 0 := by
        by_contra h0
        have := hbot (by omega)
        omega
      subst he
      exact Or.inl ⟨by simpa using h.1, h.2⟩
    · exact Or.inr (Or.inl h.2)
    · exact Or.inr (Or.inr h.2)

/-- The rounded magnitude of a rational, in units of `2^-149`. -/
def gridOf (x : ℚ) : Nat := gridRound (x.num.natAbs * 2 ^ 149) x.den

/-- The magnitude of the key of `F x`: flushed below the normal range, capped at the infinities. -/
def flushCap (g : Nat) : Nat := if g < 2 ^ 23 then 0 else min g magTop

theorem flushCap_mono {g h : Nat} (hgh : g ≤ h) : flushCap g ≤ flushCap h := by
  have ht := magTop_gt
  unfold flushCap; split_ifs <;> omega

theorem F32.F_ne_nan (x : ℚ) : F32.F x ≠ .nan := by
  unfold F32.F
  rcases roundMagnitude_cases (decide (x < 0)) (x.num.natAbs * 2 ^ 149) x.den_pos with h | h | h
  · rw [h.2]; simp
  · obtain ⟨_, e, f, h, _⟩ := h; rw [h]; simp
  · rw [h.2]; simp

/-- The sign of `F x` is the sign of `x`. -/
theorem F32.sign_F (x : ℚ) : (F32.F x).sign = decide (x < 0) := by
  unfold F32.F
  rcases roundMagnitude_cases (decide (x < 0)) (x.num.natAbs * 2 ^ 149) x.den_pos with h | h | h
  · rw [h.2]; rfl
  · obtain ⟨_, e, f, h, _⟩ := h; rw [h]; rfl
  · rw [h.2]; rfl

/-- The key of `F x`. -/
theorem F32.key_F (x : ℚ) :
    (F32.F x).key = if x < 0 then -(flushCap (gridOf x) : Int) else flushCap (gridOf x) := by
  unfold F32.F
  have key : ∀ b : Bool, (roundMagnitude b (x.num.natAbs * 2 ^ 149) x.den).key =
      if b then -(flushCap (gridOf x) : Int) else flushCap (gridOf x) := by
    intro b
    rcases roundMagnitude_cases b (x.num.natAbs * 2 ^ 149) x.den_pos with h | h | h
    · rw [h.2]
      have : flushCap (gridOf x) = 0 := by unfold flushCap gridOf; rw [if_pos h.1]
      rw [this]; simp
    · obtain ⟨hlt, e, f, hr, hm⟩ := h
      rw [hr, F32.key_norm]
      have hb := (F32.norm_magnitude e f).1
      have : flushCap (gridOf x) = (2 ^ 23 + f.toNat) * 2 ^ e.val := by
        unfold flushCap gridOf; rw [← hm, if_neg (by omega)]; omega
      rw [this]; push_cast; rfl
    · rw [h.2]
      have ht := magTop_gt
      have : flushCap (gridOf x) = magTop := by
        unfold flushCap gridOf; rw [if_neg (by omega)]; omega
      rw [this]; cases b <;> rfl
  rw [key]
  by_cases hx : x < 0 <;> simp [hx]

theorem gridOf_mono {x y : ℚ} (h : |x| ≤ |y|) : gridOf x ≤ gridOf y := by
  unfold gridOf
  refine gridRound_mono x.den_pos y.den_pos ?_
  have hx : |x| = (x.num.natAbs : ℚ) / x.den := by
    conv_lhs => rw [← Rat.num_div_den x]
    rw [abs_div, Nat.abs_cast, Nat.cast_natAbs, Int.cast_abs]
  have hy : |y| = (y.num.natAbs : ℚ) / y.den := by
    conv_lhs => rw [← Rat.num_div_den y]
    rw [abs_div, Nat.abs_cast, Nat.cast_natAbs, Int.cast_abs]
  rw [hx, hy, div_le_div_iff₀ (by exact_mod_cast x.den_pos) (by exact_mod_cast y.den_pos)] at h
  have h' : x.num.natAbs * y.den ≤ y.num.natAbs * x.den := by exact_mod_cast h
  calc x.num.natAbs * 2 ^ 149 * y.den = x.num.natAbs * y.den * 2 ^ 149 := by ring
    _ ≤ y.num.natAbs * x.den * 2 ^ 149 := Nat.mul_le_mul_right _ h'
    _ = _ := by ring

/-- Rounding is monotone. -/
theorem F32.key_F_mono {x y : ℚ} (h : x ≤ y) : (F32.F x).key ≤ (F32.F y).key := by
  rw [F32.key_F, F32.key_F]
  by_cases hx : x < 0
  · by_cases hy : y < 0
    · have := flushCap_mono (gridOf_mono (x := y) (y := x) (by rw [abs_of_neg hx, abs_of_neg hy]; linarith))
      rw [if_pos hx, if_pos hy]; omega
    · rw [if_pos hx, if_neg hy]; omega
  · have hy : ¬ y < 0 := by linarith
    have := flushCap_mono (gridOf_mono (x := x) (y := y)
      (by rw [abs_of_nonneg (by linarith), abs_of_nonneg (by linarith)]; exact h))
    rw [if_neg hx, if_neg hy]; omega

/-- The rounded magnitude of a whole number of units with at most 24 significant bits. -/
theorem gridOf_exact {m e : Nat} (hm : m ≤ 2 ^ 24) {x : ℚ} (hx : |x| = (m * 2 ^ e : Nat) / 2 ^ 149) :
    gridOf x = m * 2 ^ e := by
  have hx' : |x| = (x.num.natAbs : ℚ) / x.den := by
    conv_lhs => rw [← Rat.num_div_den x]
    rw [abs_div, Nat.abs_cast, Nat.cast_natAbs, Int.cast_abs]
  have : x.num.natAbs * 2 ^ 149 = m * 2 ^ e * x.den := by
    have hd : (x.den : ℚ) ≠ 0 := by exact_mod_cast x.den_pos.ne'
    rw [hx, div_eq_div_iff (by positivity) hd] at hx'
    exact_mod_cast hx'.symm
  unfold gridOf
  rw [this, gridRound_exact x.den_pos hm]

/-- A binary32 value is rounded to itself (as a key: the sign of a zero is not part of it). -/
theorem F32.key_F_toRat {x : F32} (h : x.isFinite = true) : (F32.F x.toRat).key = x.key := by
  rcases (F32.isFinite_iff x).1 h with ⟨s, rfl⟩ | ⟨s, e, f, rfl⟩
  · rw [F32.toRat_zero, F32.key_F]
    have : gridOf 0 = 0 := by decide +kernel
    simp [this, flushCap]
  · have hm := F32.norm_magnitude e f
    have hf := f.isLt
    have hpos : (0 : ℚ) < ((2 ^ 23 + f.toNat) * 2 ^ e.val : Nat) := by
      have : 0 < (2 ^ 23 + f.toNat) * 2 ^ e.val := by positivity
      exact_mod_cast this
    have hr : (F32.norm s e f).toRat = (if s then -1 else 1) * (((2 ^ 23 + f.toNat) * 2 ^ e.val : Nat) / 2 ^ 149) := by
      rw [F32.toRat_eq_key h, F32.key_norm]
      cases s <;> simp
      ring
    have hg : gridOf (F32.norm s e f).toRat = (2 ^ 23 + f.toNat) * 2 ^ e.val := by
      refine gridOf_exact (by omega) ?_
      rw [hr, abs_mul, abs_of_pos (a := _ / _) (by positivity)]
      cases s <;> simp
    have hc : flushCap ((2 ^ 23 + f.toNat) * 2 ^ e.val) = (2 ^ 23 + f.toNat) * 2 ^ e.val := by
      unfold flushCap; rw [if_neg (by omega)]; omega
    rw [F32.key_F, hg, hc, F32.key_norm]
    have hq : (0 : ℚ) < (((2 ^ 23 + f.toNat) * 2 ^ e.val : Nat) : ℚ) / 2 ^ 149 := by positivity
    cases s
    · rw [hr, if_neg (by simp; positivity)]; push_cast; simp
    · rw [hr, if_pos (by simp only [if_true]; linarith)]; push_cast; simp

/-- A normal value is determined by its key. -/
theorem F32.norm_key_injective {s s' : Bool} {e e' : Fin 254} {f f' : BitVec 23}
    (h : (F32.norm s e f).key = (F32.norm s' e' f').key) : F32.norm s e f = F32.norm s' e' f' := by
  have main : ∀ (e e' : Fin 254) (f f' : BitVec 23),
      (2 ^ 23 + f.toNat) * 2 ^ e.val = (2 ^ 23 + f'.toNat) * 2 ^ e'.val → e.val ≤ e'.val → e = e' ∧ f = f' := by
    intro e e' f f' h hle
    obtain ⟨c, hc⟩ := Nat.exists_eq_add_of_le hle
    have hf := f.isLt
    have hf' := f'.isLt
    rw [hc, pow_add] at h
    have h1 : 2 ^ 23 + f.toNat = (2 ^ 23 + f'.toNat) * 2 ^ c :=
      Nat.eq_of_mul_eq_mul_right (show 0 < 2 ^ e.val by positivity) (by rw [h]; ring)
    have hc0 : c = 0 := by
      by_contra hne
      have : 2 ^ 1 ≤ 2 ^ c := Nat.pow_le_pow_right (by norm_num) (by omega)
      nlinarith
    subst hc0
    refine ⟨Fin.ext (by omega), BitVec.eq_of_toNat_eq (by simpa using h1)⟩
  have hp := F32.norm_magnitude e f
  have hp' := F32.norm_magnitude e' f'
  have both : (2 ^ 23 + f.toNat) * 2 ^ e.val = (2 ^ 23 + f'.toNat) * 2 ^ e'.val → e = e' ∧ f = f' := by
    intro h
    rcases Nat.le_total e.val e'.val with hle | hle
    · exact main e e' f f' h hle
    · have := main e' e f' f h.symm hle
      exact ⟨this.1.symm, this.2.symm⟩
  rw [F32.key_norm, F32.key_norm] at h
  have q : ((((2 ^ 23 + f.toNat) * 2 ^ e.val : Nat)) : Int) = (2 ^ 23 + f.toNat) * 2 ^ e.val := by push_cast; rfl
  have q' : ((((2 ^ 23 + f'.toNat) * 2 ^ e'.val : Nat)) : Int) = (2 ^ 23 + f'.toNat) * 2 ^ e'.val := by push_cast; rfl
  rw [← q, ← q'] at h
  cases s <;> cases s' <;> simp only [if_true, if_false, Bool.false_eq_true] at h
  · obtain ⟨rfl, rfl⟩ := both (by exact_mod_cast h); rfl
  · omega
  · omega
  · obtain ⟨rfl, rfl⟩ := both (by omega); rfl

/-- Two values with the same key other than 0, neither a NaN, are the same value. -/
theorem F32.eq_of_key_eq {x y : F32} (hx : x ≠ .nan) (hy : y ≠ .nan) (h : x.key = y.key) (h0 : x.key ≠ 0) : x = y := by
  have hfin : x.isFinite = y.isFinite := by
    rw [Bool.eq_iff_iff, F32.isFinite_iff_key hx, F32.isFinite_iff_key hy, h]
  cases x with
  | nan => exact absurd rfl hx
  | zero s => exact absurd rfl h0
  | inf s =>
    cases y with
    | inf s' =>
      have ht := keyTop_pos
      cases s <;> cases s' <;> simp at h ⊢ <;> omega
    | _ => simp_all [F32.isFinite]
  | norm s e f =>
    cases y with
    | norm s' e' f' => exact F32.norm_key_injective h
    | zero s' => exact absurd h (by simpa using h0)
    | _ => simp_all [F32.isFinite]

/-- A normal value is rounded to itself (R11, R13). -/
theorem F32.F_toRat {x : F32} (h : x.isNormal = true) : F32.F x.toRat = x := by
  have hf := F32.isNormal_isFinite h
  refine F32.eq_of_key_eq (F32.F_ne_nan _) (F32.isFinite_not_nan hf) (F32.key_F_toRat hf) ?_
  rw [F32.key_F_toRat hf]
  cases x with
  | norm s e f =>
    have hm := (F32.norm_magnitude e f).1
    have : (0 : Int) < (2 ^ 23 + f.toNat) * 2 ^ e.val := by positivity
    rw [F32.key_norm]
    cases s <;> simp <;> omega
  | _ => simp [F32.isNormal] at h

/-- A rounded result does not pass a binary32 value its exact result does not pass. -/
theorem F32.key_F_le {x : ℚ} {y : F32} (hy : y.isFinite = true) (h : x ≤ y.toRat) : (F32.F x).key ≤ y.key := by
  rw [← F32.key_F_toRat hy]; exact F32.key_F_mono h

/-- A rounded result does not fall below a binary32 value its exact result does not fall below. -/
theorem F32.le_key_F {x : ℚ} {y : F32} (hy : y.isFinite = true) (h : y.toRat ≤ x) : y.key ≤ (F32.F x).key := by
  rw [← F32.key_F_toRat hy]; exact F32.key_F_mono h

@[simp] theorem F32.F_zero : F32.F 0 = F32.posZero := by decide +kernel

/-! ### The four operations on finite values (R14), as keys -/

theorem F32.isFinite_iff_not {x : F32} : x.isFinite = true ↔ x.isNaN = false ∧ x.isInfinite = false := by
  cases x <;> simp [F32.isFinite, F32.isNaN, F32.isInfinite]

theorem F32.isZero_toRat {x : F32} (h : x.isZero = true) : x.toRat = 0 := by
  cases x <;> simp_all [F32.isZero]

theorem F32.add_finite {a b : F32} (ha : a.isFinite = true) (hb : b.isFinite = true) :
    a.add b ≠ .nan ∧ (a.add b).key = (F32.F (a.toRat + b.toRat)).key := by
  rw [F32.isFinite_iff_not] at ha hb
  unfold F32.add
  simp only [ha, hb, Bool.or_self, Bool.false_eq_true, if_false, Bool.and_self]
  split_ifs with h
  · rw [h]; simp
  · exact And.intro (F32.F_ne_nan _) rfl

theorem F32.sub_finite {a b : F32} (ha : a.isFinite = true) (hb : b.isFinite = true) :
    a.sub b ≠ .nan ∧ (a.sub b).key = (F32.F (a.toRat - b.toRat)).key := by
  have h := F32.add_finite (b := b.neg) ha (by simpa using hb)
  rw [F32.toRat_neg, ← sub_eq_add_neg] at h
  exact h

theorem F32.mul_finite {a b : F32} (ha : a.isFinite = true) (hb : b.isFinite = true) :
    a.mul b ≠ .nan ∧ (a.mul b).key = (F32.F (a.toRat * b.toRat)).key := by
  rw [F32.isFinite_iff_not] at ha hb
  unfold F32.mul
  simp only [ha, hb, Bool.or_self, Bool.false_eq_true, if_false, Bool.and_false, Bool.false_and]
  split_ifs with h
  · have : a.toRat * b.toRat = 0 := by
      rcases Bool.or_eq_true_iff.1 h with h | h <;> simp [F32.isZero_toRat h]
    rw [this]; simp
  · exact And.intro (F32.F_ne_nan _) rfl

theorem F32.div_finite {a b : F32} (ha : a.isFinite = true) (hb : b.isNormal = true) :
    a.div b ≠ .nan ∧ (a.div b).key = (F32.F (a.toRat / b.toRat)).key := by
  have hz : b.isZero = false := by cases b <;> simp_all [F32.isNormal, F32.isZero]
  have hb := F32.isNormal_isFinite hb
  rw [F32.isFinite_iff_not] at ha hb
  unfold F32.div
  simp only [ha, hb, hz, Bool.or_self, Bool.false_eq_true, if_false, Bool.and_false, Bool.or_false]
  split_ifs with h
  · rw [F32.isZero_toRat h]; simp
  · exact And.intro (F32.F_ne_nan _) rfl

/-! ### Bounds on rounded results -/

section bounds
variable {a b c : F32}

theorem F32.add_key_le (ha : a.isFinite = true) (hb : b.isFinite = true) (hc : c.isFinite = true)
    (h : a.toRat + b.toRat ≤ c.toRat) : (a.add b).key ≤ c.key := by
  rw [(F32.add_finite ha hb).2]; exact F32.key_F_le hc h

theorem F32.le_add_key (ha : a.isFinite = true) (hb : b.isFinite = true) (hc : c.isFinite = true)
    (h : c.toRat ≤ a.toRat + b.toRat) : c.key ≤ (a.add b).key := by
  rw [(F32.add_finite ha hb).2]; exact F32.le_key_F hc h

theorem F32.sub_key_le (ha : a.isFinite = true) (hb : b.isFinite = true) (hc : c.isFinite = true)
    (h : a.toRat - b.toRat ≤ c.toRat) : (a.sub b).key ≤ c.key := by
  rw [(F32.sub_finite ha hb).2]; exact F32.key_F_le hc h

theorem F32.le_sub_key (ha : a.isFinite = true) (hb : b.isFinite = true) (hc : c.isFinite = true)
    (h : c.toRat ≤ a.toRat - b.toRat) : c.key ≤ (a.sub b).key := by
  rw [(F32.sub_finite ha hb).2]; exact F32.le_key_F hc h

theorem F32.mul_key_le (ha : a.isFinite = true) (hb : b.isFinite = true) (hc : c.isFinite = true)
    (h : a.toRat * b.toRat ≤ c.toRat) : (a.mul b).key ≤ c.key := by
  rw [(F32.mul_finite ha hb).2]; exact F32.key_F_le hc h

theorem F32.le_mul_key (ha : a.isFinite = true) (hb : b.isFinite = true) (hc : c.isFinite = true)
    (h : c.toRat ≤ a.toRat * b.toRat) : c.key ≤ (a.mul b).key := by
  rw [(F32.mul_finite ha hb).2]; exact F32.le_key_F hc h

theorem F32.div_key_le (ha : a.isFinite = true) (hb : b.isNormal = true) (hc : c.isFinite = true)
    (h : a.toRat / b.toRat ≤ c.toRat) : (a.div b).key ≤ c.key := by
  rw [(F32.div_finite ha hb).2]; exact F32.key_F_le hc h

theorem F32.le_div_key (ha : a.isFinite = true) (hb : b.isNormal = true) (hc : c.isFinite = true)
    (h : c.toRat ≤ a.toRat / b.toRat) : c.key ≤ (a.div b).key := by
  rw [(F32.div_finite ha hb).2]; exact F32.le_key_F hc h

/-- A value between two finite ones is finite. -/
theorem F32.isFinite_of_between (hc : c ≠ .nan) (ha : a.isFinite = true) (hb : b.isFinite = true)
    (h1 : a.key ≤ c.key) (h2 : c.key ≤ b.key) : c.isFinite = true := by
  have ka := (F32.isFinite_iff_key (F32.isFinite_not_nan ha)).1 ha
  have kb := (F32.isFinite_iff_key (F32.isFinite_not_nan hb)).1 hb
  exact (F32.isFinite_iff_key hc).2 ⟨by omega, by omega⟩
end bounds

/-! ### FSUM and FMEAN (R16) -/

/-- The exact sum is the sum of the exact values. -/
theorem F32.exactSum_eq (xs : List F32) : F32.exactSum xs = (xs.map F32.toRat).sum := by
  rw [F32.exactSum, Rat.mkRat_eq_div]
  induction xs with
  | nil => simp
  | cons x xs ih =>
    rw [List.map_cons, List.sum_cons, List.map_cons, List.sum_cons, ← ih, F32.toRat_eq]
    push_cast
    ring

/-- A sum over finite values is the exact sum over `n`, rounded once. -/
theorem F32.sumOver_finite {n : Nat} {xs : List F32} (h : ∀ x ∈ xs, x.isFinite = true) :
    F32.sumOver n xs ≠ .nan ∧ (F32.sumOver n xs).key = (F32.F ((xs.map F32.toRat).sum / n)).key := by
  have h1 : xs.any F32.isNaN = false := by
    rw [List.any_eq_false]; intro x hx
    have := h x hx
    cases x <;> simp_all [F32.isFinite, F32.isNaN]
  have h2 : ∀ b, xs.any (F32.isInf b) = false := by
    intro b
    rw [List.any_eq_false]; intro x hx
    have := h x hx
    cases x <;> simp_all [F32.isFinite, F32.isInf]
  unfold F32.sumOver
  simp only [h1, h2, Bool.false_or, Bool.and_self, Bool.false_eq_true, if_false]
  rw [← F32.exactSum_eq]
  split_ifs with h0
  · rw [h0]; simp
  · exact And.intro (F32.F_ne_nan _) rfl

end Sys2Proof
end

