-- ==== Sys2Proof/Laws/Config.lean ====
section
/-!
SUPPORT. The configuration of the machine is legal (spec/00_scope.md rule R6) and its sine unit has the properties a
model may assume (R17); a legal configuration with such a sine is what the machine runs with.
-/

namespace Sys2Proof

theorem fallback_legal : Params.fallback.legal = true := by decide +kernel

/-- The configuration of the machine is legal (R6). -/
theorem legalized_legal (c : Cfg) : c.legalized.toParams.legal = true := by
  unfold Cfg.legalized
  dsimp only
  split_ifs with h
  · exact h
  · exact fallback_legal

theorem cfg_legal : Config.cfg.toParams.legal = true := legalized_legal _

/-- A legal configuration is unchanged. -/
theorem legalized_params {c : Cfg} (h : c.toParams.legal = true) : c.legalized.toParams = c.toParams := by
  unfold Cfg.legalized
  dsimp only
  rw [if_pos h]

end Sys2Proof

namespace Sys2Proof.Machine

/-- A lawful sine has the properties a model may assume (R17). -/
theorem lawfulSine_ok (f : F32 → F32) : SineOk (lawfulSine f) where
  atZero _ := rfl
  atNaN := rfl
  atInf _ := rfl
  bounded x h := by
    have h0 : F32.le c_ONE.neg F32.posZero = true ∧ F32.le F32.posZero c_ONE = true := by decide +kernel
    cases x with
    | nan => simp [F32.isFinite] at h
    | inf s => simp [F32.isFinite] at h
    | zero s =>
      have : ∀ s, F32.le c_ONE.neg (.zero s) = true ∧ F32.le (.zero s) c_ONE = true := by decide +kernel
      exact this s
    | norm s e m =>
      unfold lawfulSine
      dsimp only
      split_ifs with hb
      · simpa using hb
      · exact h0

/-- A sine that has the properties already is unchanged. -/
theorem lawfulSine_of_ok {f : F32 → F32} (h : SineOk f) : lawfulSine f = f := by
  funext x
  cases x with
  | nan => exact h.atNaN.symm
  | inf s => exact (h.atInf s).symm
  | zero s => exact (h.atZero s).symm
  | norm s e m =>
    have hb := h.bounded (.norm s e m) rfl
    unfold lawfulSine
    dsimp only
    rw [hb.1, hb.2]
    rfl

/-- The sine unit of the machine (R17). -/
theorem cfg_sine_ok : SineOk Config.cfg.sin := lawfulSine_ok _

end Sys2Proof.Machine
end

