-- ==== Sys2Proof/Laws/Decode.lean ====
section
/-!
SUPPORT. What the bit-pattern operations do (spec/00_scope.md rules R11 and R12): a value's pattern reads back as the
value, and the fields of a packed command are what was packed (spec/30_encoding.md rule R70).
-/

namespace Sys2Proof

theorem packBits_exp (neg : Bool) (exp : BitVec 8) (frac : BitVec 23) :
    (packBits neg exp frac).extractLsb' 23 8 = exp := by
  ext i hi
  simp only [packBits, BitVec.getElem_extractLsb', BitVec.getLsbD_append]
  simp only [show ¬ (23 + i < 23) by omega, if_false, show 23 + i - 23 = i by omega, hi, if_true]
  exact BitVec.getLsbD_eq_getElem hi

theorem packBits_frac (neg : Bool) (exp : BitVec 8) (frac : BitVec 23) :
    (packBits neg exp frac).extractLsb' 0 23 = frac := by
  ext i hi
  simp only [packBits, BitVec.getElem_extractLsb', BitVec.getLsbD_append, zero_add, hi, if_true]
  exact BitVec.getLsbD_eq_getElem hi

theorem packBits_sign (neg : Bool) (exp : BitVec 8) (frac : BitVec 23) :
    (packBits neg exp frac).getLsbD 31 = neg := by
  simp only [packBits, BitVec.getLsbD_append]
  cases neg <;> rfl

/-- The pattern of a value reads back as the value (R11). -/
theorem F32.ofBits_toBits (x : F32) : F32.ofBits x.toBits = x := by
  cases x with
  | nan => decide
  | inf s => cases s <;> decide
  | zero s => cases s <;> decide
  | norm s e f =>
    have he := e.isLt
    have hn : (BitVec.ofNat 8 (e.val + 1)).toNat = e.val + 1 := by
      rw [BitVec.toNat_ofNat, Nat.mod_eq_of_lt (by omega)]
    have h1 : BitVec.ofNat 8 (e.val + 1) ≠ 255#8 := by
      intro h; have := congrArg BitVec.toNat h; rw [hn] at this; simp at this; omega
    have h2 : BitVec.ofNat 8 (e.val + 1) ≠ 0#8 := by
      intro h; have := congrArg BitVec.toNat h; rw [hn] at this; simp at this
    have h3 : (BitVec.ofNat 8 (e.val + 1)).toNat - 1 < 254 := by omega
    simp only [F32.ofBits, F32.toBits, packBits_exp, packBits_frac, packBits_sign, if_neg h1, if_neg h2, dif_pos h3]
    congr
    omega

/-- A pattern that is neither subnormal nor a NaN is the pattern of its value (R73). -/
theorem F32.toBits_ofBits {w : SampleWord} (hn : isNaNWord w = false)
    (hs : w.extractLsb' 23 8 = 0#8 → w.extractLsb' 0 23 = 0#23) : (F32.ofBits w).toBits = w := by
  have split : w = packBits (w.getLsbD 31) (w.extractLsb' 23 8) (w.extractLsb' 0 23) := by
    refine BitVec.eq_of_getLsbD_eq fun i hi => ?_
    simp only [packBits, BitVec.getLsbD_append, BitVec.getLsbD_extractLsb']
    split_ifs with h1 h2
    · simp [h1]
    · rw [show 23 + (i - 23) = i by omega]; simp [h2]
    · have : i = 31 := by omega
      subst this
      simp
  conv_rhs => rw [split]
  unfold F32.ofBits
  by_cases h255 : w.extractLsb' 23 8 = 255#8
  · have hf : w.extractLsb' 0 23 = 0#23 := by
      by_contra hne
      simp [isNaNWord, h255, hne] at hn
    simp only [h255, hf, if_true, F32.toBits]
  · by_cases h0 : w.extractLsb' 23 8 = 0#8
    · simp only [if_neg h255, if_pos h0, F32.toBits, hs h0]
      rw [h0]
    · have hlt := (w.extractLsb' 23 8).isLt
      have h254 : (w.extractLsb' 23 8).toNat ≠ 255 := fun h => h255 (BitVec.eq_of_toNat_eq (by rw [h]; rfl))
      have hpos : (w.extractLsb' 23 8).toNat ≠ 0 := fun h => h0 (BitVec.eq_of_toNat_eq (by rw [h]; rfl))
      have h3 : (w.extractLsb' 23 8).toNat - 1 < 254 := by omega
      simp only [if_neg h255, if_neg h0, dif_pos h3, F32.toBits]
      congr 1
      apply BitVec.eq_of_toNat_eq
      rw [BitVec.toNat_ofNat, Nat.mod_eq_of_lt (by omega)]
      omega

/-! ### The fields of a packed command (R70) -/

section
variable (freq vel : SampleWord) (key : Key) (op : BitVec 8)

@[simp] theorem opField_pack : opField (packCommand freq vel key op) = op := by
  ext i hi
  simp only [opField, packCommand, BitVec.getElem_extractLsb', BitVec.getLsbD_append]
  simp [hi]

@[simp] theorem keyField_pack : keyField (packCommand freq vel key op) = key := by
  ext i hi
  simp only [keyField, packCommand, BitVec.getElem_extractLsb', BitVec.getLsbD_append]
  simp [hi]

theorem velBits_pack : (packCommand freq vel key op).extractLsb' 32 32 = vel := by
  ext i hi
  simp only [packCommand, BitVec.getElem_extractLsb', BitVec.getLsbD_append]
  simp [hi, show ¬ (32 + i < 8) by omega, show ¬ (32 + i - 8 < 8) by omega, show ¬ (32 + i - 8 - 8 < 16) by omega,
    show 32 + i - 8 - 8 - 16 = i by omega]

theorem freqBits_pack : (packCommand freq vel key op).extractLsb' 64 32 = freq := by
  ext i hi
  simp only [packCommand, BitVec.getElem_extractLsb', BitVec.getLsbD_append]
  simp [hi, show ¬ (64 + i < 8) by omega, show ¬ (64 + i - 8 < 8) by omega, show ¬ (64 + i - 8 - 8 < 16) by omega,
    show ¬ (64 + i - 8 - 8 - 16 < 32) by omega, show 64 + i - 8 - 8 - 16 - 32 = i by omega]

@[simp] theorem velField_pack : velField (packCommand freq vel key op) = F32.ofBits vel := by
  rw [velField, velBits_pack]

@[simp] theorem freqField_pack : freqField (packCommand freq vel key op) = F32.ofBits freq := by
  rw [freqField, freqBits_pack]
end

/-! ### What a command word can decode to (R80) -/

/-- A command word asks for no TICK and no RESET. -/
theorem decodeCommand_ne_port (w : CommandWord) : decodeCommand w ≠ .tick ∧ decodeCommand w ≠ .reset := by
  unfold decodeCommand
  dsimp only
  split_ifs <;> simp

end Sys2Proof
end

