-- ==== Sys2Proof/Laws/State.lean ====
section
/-!
SUPPORT. One lemma per field per update of the state, true by rfl, and what the slot file's read and write do.
-/

namespace Sys2Proof.Machine

/-! ### `setSlot` -/

section setSlot
variable (s : State) (k : SlotIndex) (v : Option Voice)
@[simp] theorem setSlot_slots : (s.setSlot k v).slots = s.slots.set k v := rfl
@[simp] theorem setSlot_resBuf : (s.setSlot k v).resBuf = s.resBuf := rfl
@[simp] theorem setSlot_lpfPrev : (s.setSlot k v).lpfPrev = s.lpfPrev := rfl
@[simp] theorem setSlot_eventPort : (s.setSlot k v).eventPort = s.eventPort := rfl
@[simp] theorem setSlot_samplePort : (s.setSlot k v).samplePort = s.samplePort := rfl
@[simp] theorem setSlot_resetLine : (s.setSlot k v).resetLine = s.resetLine := rfl
@[simp] theorem setSlot_lastGrant : (s.setSlot k v).lastGrant = s.lastGrant := rfl
@[simp] theorem setSlot_sampleOut : (s.setSlot k v).sampleOut = s.sampleOut := rfl
@[simp] theorem setSlot_arrivals : (s.setSlot k v).arrivals = s.arrivals := rfl
@[simp] theorem setSlot_draws : (s.setSlot k v).draws = s.draws := rfl

/-- A read of the slot written gives what was written. -/
@[simp] theorem slot_setSlot_same : (s.setSlot k v).slot k = v := by simp [State.slot]

/-- A write leaves every other slot alone. -/
theorem slot_setSlot_of_ne {j : SlotIndex} (h : j ≠ k) : (s.setSlot k v).slot j = s.slot j := by
  have : k.val ≠ j.val := fun e => h (Fin.ext e.symm)
  simp [State.slot, this]

theorem slot_setSlot (j : SlotIndex) : (s.setSlot k v).slot j = if j = k then v else s.slot j := by
  split_ifs with h
  · subst h; simp
  · exact slot_setSlot_of_ne s k v h
end setSlot

/-- Two slot files with the same slots are the same. -/
theorem slots_ext {s t : State} (h : ∀ k, s.slot k = t.slot k) : s.slots = t.slots := by
  ext1 i hi
  exact h ⟨i, hi⟩

/-! ### `tickWith` -/

section tick
variable (cfg : Cfg) (s : State)
@[simp] theorem tickWith_slots : (tickWith cfg s).slots = tickSlots cfg s.slots := rfl
@[simp] theorem tickWith_resBuf : (tickWith cfg s).resBuf = tickBuffer s.resBuf (mixed cfg s.slots) := rfl
@[simp] theorem tickWith_lpfPrev : (tickWith cfg s).lpfPrev = filterOutput cfg s := rfl
@[simp] theorem tickWith_sampleOut :
    (tickWith cfg s).sampleOut = some (sampleWord s.draws (sampleValue cfg s)) := rfl
@[simp] theorem tickWith_eventPort : (tickWith cfg s).eventPort = s.eventPort := rfl
@[simp] theorem tickWith_samplePort : (tickWith cfg s).samplePort = s.samplePort := rfl
@[simp] theorem tickWith_resetLine : (tickWith cfg s).resetLine = s.resetLine := rfl
@[simp] theorem tickWith_lastGrant : (tickWith cfg s).lastGrant = s.lastGrant := rfl
@[simp] theorem tickWith_arrivals : (tickWith cfg s).arrivals = s.arrivals := rfl
@[simp] theorem tickWith_draws : (tickWith cfg s).draws = s.draws + 1 := rfl
end tick

/-! ### `resetState` and `State.reset` -/

section reset
variable (s : State)
@[simp] theorem resetState_slots : (resetState s).slots = emptySlots := rfl
@[simp] theorem resetState_resBuf : (resetState s).resBuf = zeroBuffer := rfl
@[simp] theorem resetState_lpfPrev : (resetState s).lpfPrev = F32.posZero := rfl
@[simp] theorem resetState_eventPort : (resetState s).eventPort = s.eventPort := rfl
@[simp] theorem resetState_samplePort : (resetState s).samplePort = s.samplePort := rfl
@[simp] theorem resetState_resetLine : (resetState s).resetLine = s.resetLine := rfl
@[simp] theorem resetState_lastGrant : (resetState s).lastGrant = none := rfl
@[simp] theorem resetState_arrivals : (resetState s).arrivals = s.arrivals := rfl
@[simp] theorem resetState_draws : (resetState s).draws = s.draws + 1 := rfl
@[simp] theorem resetState_slot (k : SlotIndex) : (resetState s).slot k = none := by
  simp [State.slot, emptySlots]
@[simp] theorem reset_slot (k : SlotIndex) : State.reset.slot k = none := by
  simp [State.slot, State.reset, emptySlots]
end reset

/-! ### `arriveOne` -/

section arrive
variable (s : State) (a : Arrival)
@[simp] theorem arriveOne_slots : (s.arriveOne a).slots = s.slots := by cases a <;> rfl
@[simp] theorem arriveOne_resBuf : (s.arriveOne a).resBuf = s.resBuf := by cases a <;> rfl
@[simp] theorem arriveOne_lpfPrev : (s.arriveOne a).lpfPrev = s.lpfPrev := by cases a <;> rfl
@[simp] theorem arriveOne_lastGrant : (s.arriveOne a).lastGrant = s.lastGrant := by cases a <;> rfl
@[simp] theorem arriveOne_sampleOut : (s.arriveOne a).sampleOut = s.sampleOut := by cases a <;> rfl
@[simp] theorem arriveOne_arrivals : (s.arriveOne a).arrivals = s.arrivals := by cases a <;> rfl
@[simp] theorem arriveOne_draws : (s.arriveOne a).draws = s.draws := by cases a <;> rfl
end arrive

end Sys2Proof.Machine
end

