-- ==== Sys2Proof/Laws/Ports.lean ====
section
/-!
SUPPORT. What a grant and a round of arrivals can do (spec/20_memory.md rules R55 to R58).
-/

namespace Sys2Proof.Machine

/-! ### Arrivals -/

@[simp] theorem command?_command (w : CommandWord) : (Arrival.command w).command? = some w := rfl
@[simp] theorem command?_sampleRequest : Arrival.sampleRequest.command? = none := rfl
@[simp] theorem command?_resetLevel (b : Bool) : (Arrival.resetLevel b).command? = none := rfl

/-- What a list of arrivals leaves alone, and that exactly its requests wait behind those held, in order. -/
theorem foldl_arriveOne (as : List Arrival) (s : State) :
    let t := as.foldl State.arriveOne s
    t.slots = s.slots ∧ t.resBuf = s.resBuf ∧ t.lpfPrev = s.lpfPrev ∧ t.lastGrant = s.lastGrant ∧
    t.sampleOut = s.sampleOut ∧ t.arrivals = s.arrivals ∧ t.draws = s.draws ∧
    t.eventPort = s.eventPort ++ as.filterMap Arrival.command? ∧
    t.samplePort = s.samplePort + as.count .sampleRequest := by
  induction as generalizing s with
  | nil => exact ⟨rfl, rfl, rfl, rfl, rfl, rfl, rfl, by simp, rfl⟩
  | cons a as ih =>
    obtain ⟨h1, h2, h3, h4, h5, h6, h7, h8, h9⟩ := ih (s.arriveOne a)
    refine ⟨by simpa using h1, by simpa using h2, by simpa using h3, by simpa using h4, by simpa using h5,
      by simpa using h6, by simpa using h7, ?_, ?_⟩
    · cases a <;> simpa [State.arriveOne, List.filterMap_cons] using h8
    · cases a <;> simpa [State.arriveOne, Nat.add_right_comm, Nat.add_assoc] using h9

/-- A round of arrivals leaves the block alone, is used up, and adds exactly its requests behind those held. -/
theorem arrive_spec (s : State) :
    s.arrive.slots = s.slots ∧ s.arrive.resBuf = s.resBuf ∧ s.arrive.lpfPrev = s.lpfPrev ∧
    s.arrive.lastGrant = s.lastGrant ∧ s.arrive.sampleOut = s.sampleOut ∧ s.arrive.draws = s.draws ∧
    s.arrive.eventPort = s.eventPort ++ (s.arrivals.headD []).filterMap Arrival.command? ∧
    s.arrive.samplePort = s.samplePort + (s.arrivals.headD []).count .sampleRequest ∧
    s.arrive.arrivals = s.arrivals.tail := by
  unfold State.arrive
  split
  · rename_i h
    simp [h]
  · rename_i round rest h
    obtain ⟨h1, h2, h3, h4, h5, h6, h7, h8, h9⟩ := foldl_arriveOne round { s with arrivals := rest }
    rw [h]
    exact ⟨h1, h2, h3, h4, h5, h7, h8, h9, h6⟩

@[simp] theorem arrive_slots (s : State) : s.arrive.slots = s.slots := (arrive_spec s).1
@[simp] theorem arrive_resBuf (s : State) : s.arrive.resBuf = s.resBuf := (arrive_spec s).2.1
@[simp] theorem arrive_lpfPrev (s : State) : s.arrive.lpfPrev = s.lpfPrev := (arrive_spec s).2.2.1
@[simp] theorem arrive_lastGrant (s : State) : s.arrive.lastGrant = s.lastGrant := (arrive_spec s).2.2.2.1
@[simp] theorem arrive_sampleOut (s : State) : s.arrive.sampleOut = s.sampleOut := (arrive_spec s).2.2.2.2.1
@[simp] theorem arrive_draws (s : State) : s.arrive.draws = s.draws := (arrive_spec s).2.2.2.2.2.1
@[simp] theorem arrive_eventPort (s : State) :
    s.arrive.eventPort = s.eventPort ++ (s.arrivals.headD []).filterMap Arrival.command? :=
  (arrive_spec s).2.2.2.2.2.2.1
@[simp] theorem arrive_samplePort (s : State) :
    s.arrive.samplePort = s.samplePort + (s.arrivals.headD []).count .sampleRequest :=
  (arrive_spec s).2.2.2.2.2.2.2.1
@[simp] theorem arrive_arrivals (s : State) : s.arrive.arrivals = s.arrivals.tail :=
  (arrive_spec s).2.2.2.2.2.2.2.2
@[simp] theorem arrive_slot (s : State) (k : SlotIndex) : s.arrive.slot k = s.slot k := by simp [State.slot]

/-- Nothing arrives when the outside world does nothing more. -/
theorem arrive_of_nil {s : State} (h : s.arrivals = []) : s.arrive = s := by
  unfold State.arrive; rw [h]

/-! ### Grants -/

/-- The ways a grant can go: reset first; then an event, a sample request, or nothing. -/
theorem grant_cases (s : State) :
    (s.resetLine = true ∧ s.grant = (some .reset, s)) ∨
    (s.resetLine = false ∧ s.eventPort = [] ∧ s.samplePort = 0 ∧ s.grant = (none, s)) ∨
    (s.resetLine = false ∧ ∃ w ws d, s.eventPort = w :: ws ∧
      s.grant = (some (.command w), { s with eventPort := ws, lastGrant := some .event, draws := d }) ∧
      (0 < s.samplePort → s.lastGrant ≠ some .event)) ∨
    (s.resetLine = false ∧ ∃ n d, s.samplePort = n + 1 ∧
      s.grant = (some .sample, { s with samplePort := n, lastGrant := some .sample, draws := d }) ∧
      (s.eventPort ≠ [] → s.lastGrant ≠ some .sample)) := by
  cases hr : s.resetLine with
  | true => left; exact ⟨rfl, by simp [State.grant, hr]⟩
  | false =>
    right
    cases he : s.eventPort with
    | nil =>
      cases hs : s.samplePort with
      | zero => left; exact ⟨rfl, rfl, rfl, by simp [State.grant, hr, he, hs]⟩
      | succ n =>
        right; right
        exact ⟨rfl, n, s.draws, rfl, by simp [State.grant, hr, he, hs, State.grantSample], by simp⟩
    | cons w ws =>
      cases hs : s.samplePort with
      | zero =>
        right; left
        exact ⟨rfl, w, ws, s.draws, rfl, by simp [State.grant, hr, he, hs, State.grantEvent], by simp⟩
      | succ n =>
        right
        cases hg : s.lastGrant with
        | some p =>
          cases p with
          | event =>
            right
            exact ⟨rfl, n, s.draws, rfl,
              by simp [State.grant, hr, he, hs, State.contended, hg, State.grantSample], by simp⟩
          | sample =>
            left
            exact ⟨rfl, w, ws, s.draws, rfl,
              by simp [State.grant, hr, he, hs, State.contended, hg, State.grantEvent], by simp⟩
        | none =>
          cases hf : Config.freeGrant s.draws with
          | event =>
            left
            exact ⟨rfl, w, ws, s.draws + 1, rfl,
              by simp [State.grant, hr, he, hs, State.contended, hg, hf, State.grantEvent], by simp⟩
          | sample =>
            right
            exact ⟨rfl, n, s.draws + 1, rfl,
              by simp [State.grant, hr, he, hs, State.contended, hg, hf, State.grantSample], by simp⟩

/-- A grant leaves the block's own state alone. -/
theorem grant_block (s : State) :
    s.grant.2.slots = s.slots ∧ s.grant.2.resBuf = s.resBuf ∧ s.grant.2.lpfPrev = s.lpfPrev := by
  rcases grant_cases s with ⟨_, h⟩ | ⟨_, _, _, h⟩ | ⟨_, w, ws, d, _, h, _⟩ | ⟨_, n, d, _, h, _⟩ <;>
    rw [h] <;> exact ⟨rfl, rfl, rfl⟩

/-- A placed request is the next one granted. -/
theorem grant_place (s : State) (r : Request) : (s.place r).grant.1 = some r := by
  cases r with
  | command w => cases hs : s.samplePort <;> simp [State.place, State.grant, hs, State.contended, State.grantEvent]
  | sample => cases he : s.eventPort <;> simp [State.place, State.grant, he, State.contended, State.grantSample]
  | reset => simp [State.place, State.grant]

end Sys2Proof.Machine
end

