-- ==== Sys2Proof/Laws/Slots.lean ====
section
/-!
SUPPORT. What a TICK does with the slot file and the resonance buffer, slot by slot and entry by entry
(spec/42_generate_sample.md rules R130, R141 to R144; spec/20_memory.md rules R62 and R63), and how the number of
valid slots changes (spec/10_state.md rule R31).
-/

namespace Sys2Proof.Machine

/-! ### The slot file after a TICK -/

theorem slotTicks_length (cfg : Cfg) (slots : Vector (Option Voice) numSlots) :
    (slotTicks cfg slots).length = numSlots := by simp [slotTicks]

/-- What a TICK does with slot `k` depends on slot `k` alone (R65). -/
theorem getElem_slotTicks (cfg : Cfg) (slots : Vector (Option Voice) numSlots) (k : SlotIndex)
    (h : k.val < (slotTicks cfg slots).length) :
    (slotTicks cfg slots)[k.val] = slots[k].bind (voiceTick cfg k) := by
  simp [slotTicks, List.getElem_zipWith]

/-- Slot `k` after a TICK. -/
theorem tickWith_slot (cfg : Cfg) (s : State) (k : SlotIndex) :
    (tickWith cfg s).slot k = (s.slot k).bind fun v => (voiceTick cfg k v).map Prod.fst := by
  have h := getElem_slotTicks cfg s.slots k (by rw [slotTicks_length]; exact k.isLt)
  simp only [State.slot, tickWith_slots, tickSlots, Fin.getElem_fin, Vector.getElem_mk, List.getElem_toArray,
    List.getElem_map] at h ⊢
  rw [h]
  cases s.slots[k.val] <;> rfl

/-- The contributions, slot by slot (R141). -/
theorem contributions_eq (cfg : Cfg) (s : State) :
    contributions cfg s.slots =
      (List.finRange numSlots).filterMap fun k => (s.slot k).bind fun v => (voiceTick cfg k v).map Prod.snd := by
  have h : slotTicks cfg s.slots = (List.finRange numSlots).map fun k => (s.slot k).bind (voiceTick cfg k) := by
    refine List.ext_getElem (by simp [slotTicks]) fun i h1 h2 => ?_
    have := getElem_slotTicks cfg s.slots ⟨i, by simpa [slotTicks] using h1⟩ h1
    simpa [State.slot] using this
  rw [contributions, h, List.filterMap_map]
  congr 1
  funext k
  simp only [Function.comp]
  cases s.slot k <;> rfl

/-- With no voice there is no contribution. -/
theorem contributions_of_noVoices (cfg : Cfg) {s : State} (h : ∀ k, s.slot k = none) :
    contributions cfg s.slots = [] := by
  rw [contributions_eq]
  simp [h]

/-! ### The resonance buffer (R62) -/

@[simp] theorem resPush_toList (buf : Vector F32 resLen) (r : F32) :
    (resPush buf r).toList = buf.toList.tail ++ [r] := rfl

/-! ### The number of valid slots (R31) -/

theorem validCount_eq (s : State) :
    s.validCount = (List.finRange numSlots).countP fun k => (s.slot k).isSome := by
  have h : s.slots.toList = (List.finRange numSlots).map s.slot := by
    refine List.ext_getElem (by simp) fun i h1 h2 => ?_
    simp [State.slot]
  rw [State.validCount, h, List.countP_map]
  rfl

/-- At most 256 slots are valid, so `VOICE_COUNT` needs 9 bits (R18, R31). -/
theorem validCount_le (s : State) : s.validCount ≤ numSlots := by
  have := List.countP_le_length (p := Option.isSome) (l := s.slots.toList)
  simpa [State.validCount] using this

theorem voiceCount_toNat (s : State) : s.voiceCount.toNat = s.validCount := by
  have := validCount_le s
  rw [State.voiceCount, BitVec.toNat_ofNat, Nat.mod_eq_of_lt (lt_of_le_of_lt this (by norm_num [numSlots]))]

/-- Writing one slot changes the number of valid slots by that slot alone. -/
theorem validCount_setSlot (s : State) (k : SlotIndex) (v : Option Voice) :
    (s.setSlot k v).validCount + (if s.valid k then 1 else 0) = s.validCount + (if v.isSome then 1 else 0) := by
  have key : ∀ l : List SlotIndex, l.Nodup →
      l.countP (fun j => ((s.setSlot k v).slot j).isSome) + (if k ∈ l ∧ s.valid k then 1 else 0) =
      l.countP (fun j => (s.slot j).isSome) + (if k ∈ l ∧ v.isSome then 1 else 0) := by
    intro l hl
    induction l with
    | nil => simp
    | cons j l ih =>
      obtain ⟨hj, hl⟩ := List.nodup_cons.1 hl
      have ih := ih hl
      rw [List.countP_cons, List.countP_cons, slot_setSlot]
      by_cases hk : j = k
      · subst hk
        simp only [hj, false_and, if_false, add_zero] at ih
        simp only [List.mem_cons, true_or, true_and, if_true, State.valid, ih]
        omega
      · have hk' : k ≠ j := fun e => hk e.symm
        simp only [List.mem_cons, hk', false_or, hk, if_false]
        omega
  have := key (List.finRange numSlots) (List.nodup_finRange _)
  simpa [validCount_eq] using this

end Sys2Proof.Machine
end

