-- ==== Sys2Proof/Laws/Voices.lean ====
section
/-!
SUPPORT. What one envelope step and one voice's part of a TICK can do (spec/40_envelope.md rules R103 to R109;
spec/42_generate_sample.md rules R131 to R134), said once.
-/

namespace Sys2Proof.Machine

/-! ### ENV_PROCESS -/

/-- Everything ENV_PROCESS can do: per state, the voice after it and the amplitude returned (R104 to R108). -/
theorem envProcess_cases (cfg : Cfg) (v : Voice) :
    (v.envState = .idle ∧ envProcess cfg v = (v, F32.posZero)) ∨
    (v.envState = .attack ∧ F32.le c_ONE (v.envAmp.add (atkInc cfg)) = true ∧
      envProcess cfg v = ({ v with envAmp := c_ONE, envState := .decay }, c_ONE)) ∨
    (v.envState = .attack ∧ F32.le c_ONE (v.envAmp.add (atkInc cfg)) = false ∧
      envProcess cfg v = ({ v with envAmp := v.envAmp.add (atkInc cfg) }, v.envAmp.add (atkInc cfg))) ∨
    (v.envState = .decay ∧ F32.le (v.envAmp.sub (decInc cfg)) cfg.sustain = true ∧
      envProcess cfg v = ({ v with envAmp := cfg.sustain, envState := .sustain }, cfg.sustain)) ∨
    (v.envState = .decay ∧ F32.le (v.envAmp.sub (decInc cfg)) cfg.sustain = false ∧
      envProcess cfg v = ({ v with envAmp := v.envAmp.sub (decInc cfg) }, v.envAmp.sub (decInc cfg))) ∨
    (v.envState = .sustain ∧ envProcess cfg v = (v, cfg.sustain)) ∨
    (v.envState = .release ∧ F32.lt (releaseStep cfg v.envAmp) c_REL_THRESHOLD = true ∧
      envProcess cfg v = ({ v with envAmp := F32.posZero, envState := .idle }, F32.posZero)) ∨
    (v.envState = .release ∧ F32.lt (releaseStep cfg v.envAmp) c_REL_THRESHOLD = false ∧
      envProcess cfg v = ({ v with envAmp := releaseStep cfg v.envAmp }, releaseStep cfg v.envAmp)) := by
  unfold envProcess
  cases hs : v.envState with
  | idle => simp [envIdle]
  | attack => cases h : F32.le c_ONE (v.envAmp.add (atkInc cfg)) <;> simp [envAttack, h, hs]
  | decay => cases h : F32.le (v.envAmp.sub (decInc cfg)) cfg.sustain <;> simp [envDecay, h, hs]
  | sustain => simp [envSustain]
  | release => cases h : F32.lt (releaseStep cfg v.envAmp) c_REL_THRESHOLD <;> simp [envReleaseArm, h, hs]

/-- ENV_PROCESS writes the envelope fields and no other. -/
theorem envProcess_fields (cfg : Cfg) (v : Voice) :
    (envProcess cfg v).1.freq = v.freq ∧ (envProcess cfg v).1.vel = v.vel ∧
    (envProcess cfg v).1.phase = v.phase := by
  rcases envProcess_cases cfg v with ⟨_, h⟩ | ⟨_, _, h⟩ | ⟨_, _, h⟩ | ⟨_, _, h⟩ | ⟨_, _, h⟩ | ⟨_, h⟩ | ⟨_, _, h⟩ |
    ⟨_, _, h⟩ <;> rw [h] <;> exact ⟨rfl, rfl, rfl⟩

@[simp] theorem envProcess_freq (cfg : Cfg) (v : Voice) : (envProcess cfg v).1.freq = v.freq :=
  (envProcess_fields cfg v).1
@[simp] theorem envProcess_vel (cfg : Cfg) (v : Voice) : (envProcess cfg v).1.vel = v.vel :=
  (envProcess_fields cfg v).2.1
@[simp] theorem envProcess_phase (cfg : Cfg) (v : Voice) : (envProcess cfg v).1.phase = v.phase :=
  (envProcess_fields cfg v).2.2

/-- Outside IDLE the amplitude returned is the one stored, or the sustain level in SUSTAIN (R103). -/
theorem envProcess_returned {cfg : Cfg} {v : Voice} (h0 : v.envState ≠ .idle)
    (hs : v.envState = .sustain → v.envAmp = cfg.sustain) :
    (envProcess cfg v).2 = (envProcess cfg v).1.envAmp := by
  rcases envProcess_cases cfg v with ⟨h1, h⟩ | ⟨_, _, h⟩ | ⟨_, _, h⟩ | ⟨_, _, h⟩ | ⟨_, _, h⟩ | ⟨h1, h⟩ | ⟨_, _, h⟩ |
    ⟨_, _, h⟩ <;> rw [h]
  · exact absurd h1 h0
  · exact (hs h1).symm

/-! ### One voice's part of a TICK -/

theorem removalTest_iff (v : Voice) (a : F32) :
    removalTest v a = true ↔ F32.feq a F32.posZero = true ∧ v.envState = .idle := by
  simp [removalTest]

/-- A voice is marked, and drops out, or goes on with its next phase (R131, R133). -/
theorem voiceTick_cases (cfg : Cfg) (k : SlotIndex) (v : Voice) :
    (F32.feq (envProcess cfg v).2 F32.posZero = true ∧ (envProcess cfg v).1.envState = .idle ∧
      voiceTick cfg k v = none) ∨
    (¬ (F32.feq (envProcess cfg v).2 F32.posZero = true ∧ (envProcess cfg v).1.envState = .idle) ∧
      voiceTick cfg k v =
        some ({ (envProcess cfg v).1 with phase := nextPhase cfg v },
          voiceOut cfg k v.vel (nextPhase cfg v) (envProcess cfg v).2)) := by
  have hp : nextPhase cfg (envProcess cfg v).1 = nextPhase cfg v := by simp [nextPhase]
  by_cases h : removalTest (envProcess cfg v).1 (envProcess cfg v).2 = true
  · left
    obtain ⟨h1, h2⟩ := (removalTest_iff _ _).1 h
    exact ⟨h1, h2, by simp [voiceTick, h]⟩
  · right
    refine ⟨fun h' => h ((removalTest_iff _ _).2 h'), ?_⟩
    simp [voiceTick, h, hp]

/-- From a state other than IDLE, only a release step below the threshold marks a voice (R131). -/
theorem voiceTick_eq_none {cfg : Cfg} {k : SlotIndex} {v : Voice} (h0 : v.envState ≠ .idle) :
    voiceTick cfg k v = none ↔
      v.envState = .release ∧ F32.lt (releaseStep cfg v.envAmp) c_REL_THRESHOLD = true := by
  have hz : F32.feq F32.posZero F32.posZero = true := by decide +kernel
  rcases voiceTick_cases cfg k v with ⟨h1, h2, h3⟩ | ⟨h1, h3⟩ <;> rw [h3] <;>
    rcases envProcess_cases cfg v with ⟨e, h⟩ | ⟨e, _, h⟩ | ⟨e, _, h⟩ | ⟨e, _, h⟩ | ⟨e, _, h⟩ | ⟨e, h⟩ | ⟨e, f, h⟩ |
      ⟨e, f, h⟩ <;> simp_all

/-- A TICK removes a slot's voice or keeps it, by `voiceTick`. -/
theorem tickWith_slot_of_some {cfg : Cfg} {s : State} {k : SlotIndex} {v : Voice} (h : s.slot k = some v) :
    (tickWith cfg s).slot k = (voiceTick cfg k v).map Prod.fst := by
  rw [tickWith_slot, h]; rfl

theorem tickWith_slot_of_none {cfg : Cfg} {s : State} {k : SlotIndex} (h : s.slot k = none) :
    (tickWith cfg s).slot k = none := by
  rw [tickWith_slot, h]; rfl

/-! ### What exec answers -/

@[simp] theorem exec_nop (s : State) : exec .nop s = .next s := rfl
@[simp] theorem exec_tick (s : State) : exec .tick s = .next (tickWith Config.cfg s) := rfl
@[simp] theorem exec_reset (s : State) : exec .reset s = .next (resetState s) := rfl
@[simp] theorem exec_noteOn (key : Key) (freq vel : F32) (s : State) :
    exec (.noteOn key freq vel) s = .next (s.setSlot (slotIndex key) (some (envTrigger (newVoice freq vel)))) := rfl
theorem exec_noteOff (key : Key) (s : State) :
    exec (.noteOff key) s = .next (s.setSlot (slotIndex key) ((s.slot (slotIndex key)).map envRelease)) := by
  show execNoteOff key s = _
  unfold execNoteOff
  cases h : s.slot (slotIndex key) with
  | some v => rfl
  | none =>
    have : s.slots.set (slotIndex key) none = s.slots := by
      have hk : s.slots[(slotIndex key).val] = none := h
      rw [← hk]; exact Vector.set_getElem_self _
    simp only [State.setSlot, Option.map_none, this]

end Sys2Proof.Machine
end

