-- ==== Sys2Proof/Laws/Step.lean ====
section
/-!
SUPPORT. What a step can do, said once: nothing, one operation from a port, or RESET, and then the outside world's
next round (spec/20_memory.md rules R53 to R58; spec/60_exceptions.md rule R175); and running operations in order.
-/

namespace Sys2Proof.Machine

/-- Every operation completes (R170). -/
theorem exec_next (i : Instr) (s : State) : ∃ t, exec i s = .next t := by
  cases i with
  | noteOff key => exact ⟨_, exec_noteOff key s⟩
  | _ => exact ⟨_, rfl⟩

/-- No operation touches the ports, the reset input or what the outside world does next. -/
theorem exec_ports {i : Instr} {s t : State} (h : exec i s = .next t) :
    t.eventPort = s.eventPort ∧ t.samplePort = s.samplePort ∧ t.resetLine = s.resetLine ∧
    t.arrivals = s.arrivals ∧ (i ≠ .reset → t.lastGrant = s.lastGrant) := by
  cases i with
  | noteOff key =>
    rw [exec_noteOff] at h
    cases h
    exact ⟨rfl, rfl, rfl, rfl, fun _ => rfl⟩
  | reset => cases h; exact ⟨rfl, rfl, rfl, rfl, fun h => absurd rfl h⟩
  | _ => cases h; exact ⟨rfl, rfl, rfl, rfl, fun _ => rfl⟩

/-- Everything a step can do. -/
theorem step_cases (s : State) :
    (s.resetLine = true ∧ step s = .next (resetState s).arrive) ∨
    (s.resetLine = false ∧ s.eventPort = [] ∧ s.samplePort = 0 ∧ step s = .next s.arrive) ∨
    (s.resetLine = false ∧ ∃ w ws d t, s.eventPort = w :: ws ∧ s.grant.1 = some (.command w) ∧
      exec (decodeCommand w) { s with eventPort := ws, lastGrant := some .event, draws := d } = .next t ∧
      step s = .next t.arrive ∧ (0 < s.samplePort → s.lastGrant ≠ some .event)) ∨
    (s.resetLine = false ∧ ∃ n d, s.samplePort = n + 1 ∧ s.grant.1 = some .sample ∧
      step s = .next (tickWith Config.cfg
        { s with samplePort := n, lastGrant := some .sample, draws := d }).arrive ∧
      (s.eventPort ≠ [] → s.lastGrant ≠ some .sample)) := by
  rcases grant_cases s with ⟨h0, h⟩ | ⟨h0, h1, h2, h⟩ | ⟨h0, w, ws, d, h1, h, h2⟩ | ⟨h0, n, d, h1, h, h2⟩
  · exact .inl ⟨h0, by unfold step; rw [h]; rfl⟩
  · exact .inr (.inl ⟨h0, h1, h2, by unfold step; rw [h]⟩)
  · obtain ⟨t, ht⟩ := exec_next (decodeCommand w)
      { s with eventPort := ws, lastGrant := some .event, draws := d }
    refine .inr (.inr (.inl ⟨h0, w, ws, d, t, h1, by rw [h], ht, ?_, h2⟩))
    unfold step
    rw [h]
    show thenArrive (exec (decodeCommand w) _) = _
    rw [ht]; rfl
  · exact .inr (.inr (.inr ⟨h0, n, d, h1, by rw [h], by unfold step; rw [h]; rfl, h2⟩))

/-! ### The machine under a given configuration -/

@[simp] theorem execWith_tick (cfg : Cfg) (s : State) : execWith cfg .tick s = .next (tickWith cfg s) := rfl

/-- Only TICK reads the configuration. -/
theorem execWith_of_ne_tick (cfg : Cfg) {i : Instr} (h : i ≠ .tick) (s : State) : execWith cfg i s = exec i s := by
  cases i <;> first | rfl | exact absurd rfl h

theorem execWith_next (cfg : Cfg) (i : Instr) (s : State) : ∃ t, execWith cfg i s = .next t := by
  by_cases h : i = .tick
  · subst h; exact ⟨_, rfl⟩
  · rw [execWith_of_ne_tick cfg h]; exact exec_next i s

theorem exec_eq_execWith (i : Instr) (s : State) : exec i s = execWith Config.cfg i s := by cases i <;> rfl

/-- Everything a step under a configuration can do: nothing, or one operation, and then the outside world's round. -/
theorem stepWith_cases (cfg : Cfg) (s : State) :
    (s.grant.1 = none ∧ stepWith cfg s = .next s.grant.2.arrive) ∨
    ∃ r t, s.grant.1 = some r ∧ execWith cfg (decode r) s.grant.2 = .next t ∧ stepWith cfg s = .next t.arrive := by
  unfold stepWith
  rcases hg : s.grant with ⟨_ | r, u⟩
  · exact .inl ⟨rfl, rfl⟩
  · obtain ⟨t, ht⟩ := execWith_next cfg (decode r) u
    exact .inr ⟨r, t, rfl, ht, congrArg thenArrive ht⟩

/-- Everything a step can do, by the request granted. -/
theorem step_performs (s : State) :
    (s.grant.1 = none ∧ step s = .next s.grant.2.arrive) ∨
    ∃ r t, s.grant.1 = some r ∧ exec (decode r) s.grant.2 = .next t ∧ step s = .next t.arrive := by
  unfold step
  rcases hg : s.grant with ⟨_ | r, u⟩
  · exact .inl ⟨rfl, rfl⟩
  · obtain ⟨t, ht⟩ := exec_next (decode r) u
    exact .inr ⟨r, t, rfl, ht, congrArg thenArrive ht⟩

/-! ### Performing operations in order (R54) -/

@[simp] theorem performAll_nil (s : State) : performAll [] s = .next s := rfl

theorem performAll_cons {i : Instr} {s t : State} (is : List Instr) (h : exec i s = .next t) :
    performAll (i :: is) s = performAll is t := by
  rw [performAll, h]

theorem performAll_append {is js : List Instr} {s t : State} (h : performAll is s = .next t) :
    performAll (is ++ js) s = performAll js t := by
  induction is generalizing s with
  | nil => cases h; rfl
  | cons i is ih =>
    obtain ⟨u, hu⟩ := exec_next i s
    rw [performAll_cons is hu] at h
    rw [List.cons_append, performAll_cons _ hu, ih h]

end Sys2Proof.Machine
end

