-- ==== Sys2Proof/Laws/Observe.lean ====
section
/-!
SUPPORT. What the hosts observe (spec/10_state.md rule R39): an observation depends on the state an operation left and not
on what arrives after it, a sample word has the value TICK returned, and a run's observations go step by step.
-/

namespace Sys2Proof.Machine

/-- What the outside world does next is not observed. -/
@[simp] theorem observe_arrive (i : Instr) (t : State) : observe i t.arrive = observe i t := by
  simp [observe, State.voiceCount, State.validCount]

@[simp] theorem observe_voiceCount (i : Instr) (t : State) : (observe i t).voiceCount = t.voiceCount := rfl
@[simp] theorem observe_tick_sample (t : State) : (observe .tick t).sample = t.sampleOut := rfl
theorem observe_sample_of_ne {i : Instr} (h : i ≠ .tick) (t : State) : (observe i t).sample = none := if_neg h

/-- A sample word has the value TICK returned (R146), whichever NaN pattern a NaN is delivered as (93 U3). -/
@[simp] theorem ofBits_sampleWord (n : Nat) (y : F32) : F32.ofBits (sampleWord n y) = y := by
  have hn : ∀ w : SampleWord, isNaNWord w = true → F32.ofBits w = .nan := by
    intro w h
    simp only [isNaNWord, Bool.and_eq_true, beq_iff_eq, bne_iff_ne] at h
    unfold F32.ofBits
    simp only [h.1, if_true, h.2, if_false]
  cases y with
  | nan =>
    apply hn
    show isNaNWord (nanWord n) = true
    unfold nanWord
    split_ifs with h
    · exact h
    · decide
  | _ => exact F32.ofBits_toBits _

/-! ### The block alone decides -/

theorem arrive_block (s : State) : s.arrive.block = s.block := by simp [State.block]

theorem grant_block_eq (s : State) : s.grant.2.block = s.block := by
  obtain ⟨h1, h2, h3⟩ := grant_block s
  simp [State.block, h1, h2, h3]

theorem voiceCount_of_slots {s t : State} (h : s.slots = t.slots) : s.voiceCount = t.voiceCount := by
  simp [State.voiceCount, State.validCount, h]

/-- What an operation does to the block, and what is observed of it up to the pattern of a NaN, depends on the block
alone (R20, R39). -/
theorem exec_of_block_eq (i : Instr) {s u : State} (h : s.block = u.block) :
    ∃ t v, exec i s = .next t ∧ exec i u = .next v ∧ t.block = v.block ∧
      (observe i t).value = (observe i v).value := by
  have h1 : s.slots = u.slots := congrArg (·.1) h
  have h2 : s.resBuf = u.resBuf := congrArg (·.2.1) h
  have h3 : s.lpfPrev = u.lpfPrev := congrArg (·.2.2) h
  have quiet : ∀ {t v : State}, i ≠ .tick → t.block = v.block → (observe i t).value = (observe i v).value := by
    intro t v hi hb
    simp [Observation.value, observe_sample_of_ne hi, voiceCount_of_slots (congrArg (·.1) hb : t.slots = v.slots)]
  cases i with
  | tick =>
    have hf : filterOutput Config.cfg s = filterOutput Config.cfg u := by unfold filterOutput; rw [h1, h2, h3]
    have hs : sampleValue Config.cfg s = sampleValue Config.cfg u := by unfold sampleValue; rw [hf]
    have hv : (tickWith Config.cfg s).voiceCount = (tickWith Config.cfg u).voiceCount :=
      voiceCount_of_slots (by simp [h1])
    exact ⟨_, _, rfl, rfl, by simp [State.block, h1, h2, hf], by simp [Observation.value, hs, hv]⟩
  | noteOff key =>
    have hb : (s.setSlot (slotIndex key) ((s.slot (slotIndex key)).map envRelease)).block =
        (u.setSlot (slotIndex key) ((u.slot (slotIndex key)).map envRelease)).block := by
      simp [State.block, State.slot, h1, h2, h3]
    exact ⟨_, _, exec_noteOff _ _, exec_noteOff _ _, hb, quiet (by simp) hb⟩
  | noteOn key freq vel =>
    have hb : (s.setSlot (slotIndex key) (some (envTrigger (newVoice freq vel)))).block =
        (u.setSlot (slotIndex key) (some (envTrigger (newVoice freq vel)))).block := by
      simp [State.block, h1, h2, h3]
    exact ⟨_, _, rfl, rfl, hb, quiet (by simp) hb⟩
  | reset => exact ⟨_, _, rfl, rfl, rfl, rfl⟩
  | _ => exact ⟨_, _, rfl, rfl, h, quiet (by simp) h⟩

/-! ### Runs, step by step -/

/-- A run goes on from the state its first step leaves. -/
theorem coreRun_succ (M : Host.Core) (n : Nat) {s t : M.State} (h : M.step s = .next t) : M.run (n + 1) s = M.run n t := by
  rw [Host.Core.run, h]

theorem run_succ (n : Nat) {s t : State} (h : step s = .next t) :
    Host.Core.run Sys2Proof.core (n + 1) s = Host.Core.run Sys2Proof.core n t :=
  coreRun_succ Sys2Proof.core n h

@[simp] theorem trace_zero (s : State) : trace 0 s = [] := rfl

/-- A step that performs nothing adds nothing to the trace. -/
theorem trace_succ_idle (n : Nat) {s t : State} (hg : s.grant.1 = none) (h : step s = .next t) :
    trace (n + 1) s = trace n t := by
  rw [trace, h, hg]; rfl

/-- A step that performs a request adds it and its observation. -/
theorem trace_succ (n : Nat) {s t : State} {r : Request} (hg : s.grant.1 = some r) (h : step s = .next t) :
    trace (n + 1) s = (r, observe (decode r) t) :: trace n t := by
  rw [trace, h, hg]; rfl

@[simp] theorem observeAll_nil (s : State) : observeAll [] s = [] := rfl

theorem observeAll_cons {i : Instr} {s t : State} (is : List Instr) (h : exec i s = .next t) :
    observeAll (i :: is) s = observe i t :: observeAll is t := by
  rw [observeAll, h]

end Sys2Proof.Machine
end

