-- ==== Sys2Proof/Laws/PerInstr.lean ====
section
/-!
SUPPORT. Statements made per instruction.  Family `TableRow`: the word an instruction is encoded to lies in that
instruction's row of spec/opcode_table.json and in no other row (spec/30_encoding.md rule R71).
-/

namespace Sys2Proof.Laws.TableRow

/-- The mask and match of the ten command-word rows of spec/opcode_table.json, on the OP bits 7:0. -/
def rows : List (BitVec 8 × BitVec 8) :=
  [(0xFF#8, 0x00#8), (0xFF#8, 0x01#8), (0xFF#8, 0x02#8), (0xFF#8, 0x03#8), (0xFC#8, 0x04#8), (0xF8#8, 0x08#8),
    (0xF0#8, 0x10#8), (0xE0#8, 0x20#8), (0xC0#8, 0x40#8), (0x80#8, 0x80#8)]

/-- The row a constructor stands for, if it is a command. -/
def rowOf : Instr → Option (BitVec 8 × BitVec 8)
  | .nop => some (0xFF#8, 0x00#8)
  | .noteOn _ _ _ => some (0xFF#8, 0x01#8)
  | .noteOff _ => some (0xFF#8, 0x02#8)
  | .reserved03 => some (0xFF#8, 0x03#8)
  | .reserved04 _ => some (0xFC#8, 0x04#8)
  | .reserved08 _ => some (0xF8#8, 0x08#8)
  | .reserved10 _ => some (0xF0#8, 0x10#8)
  | .reserved20 _ => some (0xE0#8, 0x20#8)
  | .reserved40 _ => some (0xC0#8, 0x40#8)
  | .reserved80 _ => some (0x80#8, 0x80#8)
  | .tick => none
  | .reset => none

/-- The rows an OP value lies in. -/
def rowsHolding (op : BitVec 8) : List (BitVec 8 × BitVec 8) := rows.filter fun r => inRow r.1 r.2 op

/-- A well-formed command's word lies in its own row alone; TICK and RESET are no command words. -/
def Statement (i : Instr) : Prop :=
  i.WellFormed →
    match encode i with
    | .command w => rowsHolding (opField w) = (rowOf i).toList
    | .sample => i = .tick
    | .reset => i = .reset

theorem nop : Statement .nop := fun _ => by
  show rowsHolding (opField (packCommand _ _ _ _)) = _
  rw [opField_pack]; decide
theorem noteOn (key : Key) (freq vel : F32) : Statement (.noteOn key freq vel) := fun _ => by
  show rowsHolding (opField (packCommand _ _ _ _)) = _
  rw [opField_pack]; show rowsHolding _ = [_]; decide
theorem noteOff (key : Key) : Statement (.noteOff key) := fun _ => by
  show rowsHolding (opField (packCommand _ _ _ _)) = _
  rw [opField_pack]; show rowsHolding _ = [_]; decide
theorem reserved03 : Statement .reserved03 := fun _ => by
  show rowsHolding (opField (packCommand _ _ _ _)) = _
  rw [opField_pack]; decide
theorem reserved04 (op : BitVec 8) : Statement (.reserved04 op) := fun h => by
  show rowsHolding (opField (packCommand _ _ _ _)) = _
  rw [opField_pack]; revert op; decide +kernel
theorem reserved08 (op : BitVec 8) : Statement (.reserved08 op) := fun h => by
  show rowsHolding (opField (packCommand _ _ _ _)) = _
  rw [opField_pack]; revert op; decide +kernel
theorem reserved10 (op : BitVec 8) : Statement (.reserved10 op) := fun h => by
  show rowsHolding (opField (packCommand _ _ _ _)) = _
  rw [opField_pack]; revert op; decide +kernel
theorem reserved20 (op : BitVec 8) : Statement (.reserved20 op) := fun h => by
  show rowsHolding (opField (packCommand _ _ _ _)) = _
  rw [opField_pack]; revert op; decide +kernel
theorem reserved40 (op : BitVec 8) : Statement (.reserved40 op) := fun h => by
  show rowsHolding (opField (packCommand _ _ _ _)) = _
  rw [opField_pack]; revert op; decide +kernel
theorem reserved80 (op : BitVec 8) : Statement (.reserved80 op) := fun h => by
  show rowsHolding (opField (packCommand _ _ _ _)) = _
  rw [opField_pack]; revert op; decide +kernel
theorem tick : Statement .tick := fun _ => rfl
theorem reset : Statement .reset := fun _ => rfl

end Sys2Proof.Laws.TableRow
end

