-- ==== Sys2Proof/Tests/Slice0.lean ====
section
/-!
SUPPORT. Tests and witnesses.  Expected values are those of spec/30_encoding.md section 8, spec/43_host_adapter.md and
spec/95_test_vectors.md, whose vectors use `SIN_CR`; the sine here is the finite table of `SIN_CR` values those
vectors give (V-OSC-3).  Each witness shows a state and operands that meet the hypotheses of one statement.
-/

namespace Sys2Proof.Tests

/- Kernel evaluations one after the other: run side by side they wait on each other in too many threads. -/
set_option Elab.async false

open Sys2Proof Sys2Proof.Machine

/-! ### Helpers -/

/-- The value of a bit pattern. -/
abbrev f (w : SampleWord) : F32 := F32.ofBits w

/-- The `SIN_CR` values of V-OSC-3, and +0 elsewhere. -/
def tableSine (x : F32) : F32 :=
  let w := x.toBits
  if w = 0x3F490FDB#32 then f 0x3F3504F3#32
  else if w = 0x3FC90FDB#32 then f 0x3F800000#32
  else if w = 0x4016CBE4#32 then f 0x3F3504F3#32
  else if w = 0x40490FDB#32 then f 0xB3BBBD2E#32
  else if w = 0x4096CBE4#32 then f 0xBF800000#32
  else if w = 0x40C90FDB#32 then f 0x343BBD2E#32
  else if w = 0x4116CBE4#32 then f 0xB2CCDE2E#32
  else F32.posZero

/-- Test configuration TC2 with this sustain level and release time: `SR` 8, `ATTACK_S` 0.5, `DECAY_S` 0.5. -/
def tc2With (sustain releaseS : F32) : Cfg :=
  { sr := f 0x41000000#32, attackS := f 0x3F000000#32, decayS := f 0x3F000000#32
    sustain := sustain, releaseS := releaseS, latency := 0, sin := lawfulSine tableSine }

/-- Test configuration TC2. -/
def tc2 : Cfg := tc2With (f 0x3F000000#32) (f 0x3E800000#32)

/-- A voice of `FREQ` 2 and `VEL` 1. -/
def voice (envState : EnvState) (envAmp phase : F32) : Voice :=
  { freq := f 0x40000000#32, vel := f 0x3F800000#32, phase := phase, envState := envState, envAmp := envAmp }

/-- The reset state with one voice. -/
def one (k : SlotIndex) (v : Voice) : State := State.reset.setSlot k (some v)

/-- The amplitudes `n` ENV_PROCESS calls return, as words, and the state they end in. -/
def envRun (cfg : Cfg) : Nat → Voice → List SampleWord × EnvState
  | 0, v => ([], v.envState)
  | n + 1, v =>
    let e := envProcess cfg v
    let rest := envRun cfg n e.1
    (e.2.toBits :: rest.1, rest.2)

theorem one_slot (k : SlotIndex) (v : Voice) : (one k v).slot k = some v := slot_setSlot_same ..

theorem one_slot_ne {j k : SlotIndex} (v : Voice) (h : j ≠ k) : (one k v).slot j = none := by
  rw [one, slot_setSlot, if_neg h, reset_slot]

/-! ### Well-formedness: an ill-formed term for each check -/

theorem test_ill_formed_refused :
    (Instr.reserved04 0x08#8).wellFormed = false ∧ (Instr.reserved08 0x10#8).wellFormed = false ∧
    (Instr.reserved10 0x0F#8).wellFormed = false ∧ (Instr.reserved20 0x40#8).wellFormed = false ∧
    (Instr.reserved40 0x80#8).wellFormed = false ∧ (Instr.reserved80 0x7F#8).wellFormed = false := by decide

theorem test_well_formed_accepted :
    (Instr.reserved04 0x07#8).WellFormed ∧ (Instr.reserved08 0x08#8).WellFormed ∧
    (Instr.reserved10 0x1F#8).WellFormed ∧ (Instr.reserved20 0x20#8).WellFormed ∧
    (Instr.reserved40 0x7F#8).WellFormed ∧ (Instr.reserved80 0xFF#8).WellFormed := by decide

/-! ### Decoding: words of 30_encoding.md section 8 and V-ENC, and the rows of opcode_table.json -/

theorem test_decode_nop :
    decodeCommand 0x000000000000000000000000#96 = .nop ∧
    decodeCommand 0xFFFFFFFFFFFFFFFFFFFFFF00#96 = .nop := by decide +kernel

theorem test_decode_noteOn :
    decodeCommand 0x4382D0A43F80000000003C01#96 = .noteOn 60#8 (F32.F (mkRat 26163 100)) (F32.F 1) ∧
    decodeCommand 0x400000003F800000ABCD0001#96 = .noteOn 0#8 (F32.F 2) (F32.F 1) ∧
    decodeCommand 0x00000000000000000000FF01#96 = .noteOn 255#8 (.zero false) (.zero false) := by decide +kernel

theorem test_decode_noteOff :
    decodeCommand 0x000000000000000000003C02#96 = .noteOff 60#8 ∧
    decodeCommand 0x123456789ABCDEF000003C02#96 = .noteOff 60#8 := by decide +kernel

theorem test_decode_reserved :
    decodeCommand 0x000000000000000000000003#96 = .reserved03 ∧
    decodeCommand 0x000000000000000000000007#96 = .reserved04 0x07#8 ∧
    decodeCommand 0x000000000000000000000008#96 = .reserved08 0x08#8 ∧
    decodeCommand 0x00000000000000000000001F#96 = .reserved10 0x1F#8 ∧
    decodeCommand 0x000000000000000000000020#96 = .reserved20 0x20#8 ∧
    decodeCommand 0x00000000000000000000007F#96 = .reserved40 0x7F#8 ∧
    decodeCommand 0xFFFFFFFFFFFFFFFFFFFF7FFF#96 = .reserved80 0xFF#8 := by decide +kernel

/-- V-ENC, 93 U10 and R12: subnormals read as zeros of their sign, a NaN stays a NaN, infinities are kept. -/
theorem test_decode_operands :
    decodeCommand 0x000000013F80000000000001#96 = .noteOn 0#8 (.zero false) (F32.F 1) ∧
    decodeCommand 0x800000013F80000000000001#96 = .noteOn 0#8 (.zero true) (F32.F 1) ∧
    decodeCommand 0x7FC000003F80000000000001#96 = .noteOn 0#8 .nan (F32.F 1) ∧
    decodeCommand 0x7F80000180000001FFFF8001#96 = .noteOn 128#8 .nan (.zero true) ∧
    decodeCommand 0xFF8000007F80000000000001#96 = .noteOn 0#8 (.inf true) (.inf false) := by decide +kernel

/-- Words built by hand from R70's field places. -/
theorem test_encode_words :
    encode (.noteOn 60#8 (f 0x4382D0A4#32) (F32.F 1)) = .command 0x4382D0A43F80000000003C01#96 ∧
    encode (.noteOff 60#8) = .command 0x000000000000000000003C02#96 ∧
    encode (.reserved80 0xFF#8) = .command 0x0000000000000000000000FF#96 ∧
    encode .tick = .sample ∧ encode .reset = .reset := by decide +kernel

theorem test_table_rows :
    decodeTableWord 96 0 = some .nop ∧ decodeTableWord 8 0 = some .nop ∧
    decodeTableWord 96 1 = some (.noteOn 0#8 (.zero false) (.zero false)) ∧
    decodeTableWord 8 2 = some (.noteOff 0#8) ∧ decodeTableWord 8 3 = some .reserved03 ∧
    decodeTableWord 8 0x80 = some (.reserved80 0x80#8) ∧
    decodeTableWord 0 0 = some .tick ∧ decodeTableWord 1 1 = some .reset ∧ decodeTableWord 1 0 = none := by
  decide +kernel

/-! ### Note events (V-NOTE, R195) -/

/-- V-NOTE-1. -/
theorem test_noteOn_from_reset :
    ∃ t, exec (.noteOn 60#8 (f 0x4382D0A4#32) (F32.F 1)) State.reset = .next t ∧
      t.slot 60 = some { freq := F32.F (mkRat 26163 100), vel := F32.F 1, phase := .zero false, envState := .attack,
                         envAmp := .zero false } ∧
      t.voiceCount = 1#9 := ⟨_, rfl, by decide +kernel⟩

/-- V-NOTE-3: a retrigger drops the release tail. -/
theorem test_noteOn_overwrites :
    ∃ t, exec (.noteOn 60#8 (F32.F 1) (F32.F 1)) (one 60 (voice .release (F32.F (1 / 8)) (f 0x40490FDB#32))) = .next t ∧
      t.slot 60 = some { freq := F32.F 1, vel := F32.F 1, phase := .zero false, envState := .attack,
                         envAmp := .zero false } := ⟨_, rfl, by decide +kernel⟩

/-- V-NOTE-4 and V-NOTE-5. -/
theorem test_noteOff_releases :
    (envRelease (voice .sustain (F32.F (1 / 2)) F32.posZero)) = voice .release (F32.F (1 / 2)) F32.posZero ∧
    (envRelease (voice .release (F32.F (1 / 4)) F32.posZero)) = voice .release (F32.F (1 / 4)) F32.posZero := by
  decide +kernel

/-- V-NOTE-2. -/
theorem test_noteOff_absent (v : Voice) : exec (.noteOff 61#8) (one 60 v) = .next (one 60 v) := by
  have h : (one 60 v).slot (slotIndex 61#8) = none := one_slot_ne v (by decide)
  show execNoteOff 61#8 (one 60 v) = _
  unfold execNoteOff
  rw [h]

/-- V-NOTE-7: `RSVD 0x03` and `RSVD 0xFF`. -/
theorem test_reserved_as_nop :
    exec (decodeCommand 0x03#96) State.reset = .next State.reset ∧
    exec (decodeCommand 0xFF#96) State.reset = .next State.reset :=
  ⟨rfl, rfl⟩

/-! ### The envelope (V-ENV) -/

/-- V-ENV-1: attack, decay, and SUSTAIN forever. -/
theorem test_env_attack_decay_sustain :
    envRun tc2 9 (voice .attack F32.posZero F32.posZero) =
      ([0x3E800000#32, 0x3F000000#32, 0x3F400000#32, 0x3F800000#32, 0x3F600000#32, 0x3F400000#32, 0x3F200000#32,
        0x3F000000#32, 0x3F000000#32], .sustain) := by decide +kernel

/-- V-ENV-2 and V-ENV-7: the threshold is strict. -/
theorem test_env_release :
    envRun tc2 9 (voice .release (F32.F (1 / 2)) F32.posZero) =
      ([0x3E800000#32, 0x3E000000#32, 0x3D800000#32, 0x3D000000#32, 0x3C800000#32, 0x3C000000#32, 0x3B800000#32,
        0x3B000000#32, 0#32], .idle) ∧
    envRun tc2 1 (voice .release (F32.F (1 / 500)) F32.posZero) = ([0x3A83126F#32], .release) := by decide +kernel

/-- V-ENV-11, V-ENV-12 and V-ENV-13: sustain levels 1 and 0, and a release constant above 1. -/
theorem test_env_extremes :
    (envRun (tc2With (F32.F 1) (F32.F (1 / 4))) 5 (voice .attack F32.posZero F32.posZero)).2 = .sustain ∧
    (envRun (tc2With F32.posZero (F32.F (1 / 4))) 8 (voice .attack F32.posZero F32.posZero)).1.getLast? = some 0#32 ∧
    envRun (tc2With (F32.F (1 / 2)) (F32.F (1 / 16))) 1 (voice .release (F32.F (1 / 2)) F32.posZero) =
      ([0#32], .idle) := by decide +kernel

/-! ### Oscillator, waveform and mixer (V-WRAP, V-OSC, V-KS, V-BR, V-MIX) -/

theorem test_wrap :
    (wrap (.zero true)) = .zero false ∧ wrap c_TWO_PI = .zero false ∧
    wrap (f 0x40C90FDA#32) = f 0x40C90FDA#32 ∧ wrap (f 0x40E90FDB#32) = F32.F 1 ∧
    wrap (F32.F (-1 / 2)) = f 0x40B90FDB#32 ∧ wrap (f 0xB089705F#32) = .zero false ∧
    wrap (F32.F 100) = f 0x40B8122B#32 ∧ wrap (F32.F (-100)) = f 0x3F07ED80#32 ∧
    wrap (f 0x7F7FFFFF#32) = f 0x3FDDB0F8#32 ∧ wrap (.inf true) = .nan ∧ wrap .nan = .nan := by decide +kernel

theorem test_pinc :
    pinc tc2 (F32.F 1) = f 0x3F490FDB#32 ∧ pinc tc2 (F32.F 9) = f 0x40E231D6#32 ∧
    pinc tc2 (.zero true) = .zero true ∧ pinc tc2 (F32.F (10 ^ 37)) = f 0x7CBD13E6#32 ∧
    pinc tc2 (f 0x7E967699#32) = .inf false := by decide +kernel

theorem test_keyScale_brightness :
    keyScale 0 = F32.F 1 ∧ keyScale 1 = f 0x3F7F6531#32 ∧ keyScale 69 = f 0x3F564626#32 ∧
    keyScale 255 = f 0x3ECB972E#32 ∧
    brightness (.zero true) = f 0x3F000000#32 ∧ brightness (F32.F (-1)) = .zero false ∧
    brightness (F32.F 3) = F32.F 2 := by decide +kernel

/-- V-OSC-3: the two phases whose sines differ most, and the corner case of key 69. -/
theorem test_voiceOut :
    voiceOut tc2 0 (F32.F 1) (f 0x3FC90FDB#32) (F32.F (1 / 4)) = f 0x3E666666#32 ∧
    voiceOut tc2 0 (F32.F 1) (f 0x40490FDB#32) (F32.F (1 / 4)) = f 0xB2206F40#32 ∧
    voiceOut tc2 69 (F32.F (1 / 2)) (f 0x3F490FDB#32) (F32.F (1 / 2)) = f 0x3E503FBC#32 ∧
    voiceOut tc2 0 (F32.F (-1)) (f 0x3FC90FDB#32) (F32.F 1) = F32.F (-1) := by decide +kernel

theorem test_mix :
    F32.fsum [F32.F (10 ^ 30), F32.F 1, F32.F (-10 ^ 30)] = F32.F 1 ∧
    F32.fsum [F32.F 1, F32.F (1 / 2 ^ 24), F32.F (1 / 2 ^ 24)] = f 0x3F800001#32 ∧
    F32.fsum [] = .zero false ∧ F32.fsum [.zero true, .zero true] = .zero true ∧
    F32.fsum [.zero true, .zero false] = .zero false ∧ F32.fsum [.inf false, .inf true] = .nan ∧
    F32.fsum [.inf false, F32.F 1] = .inf false ∧ F32.fsum [.nan, F32.F 1] = .nan ∧
    F32.fsum [f 0x3E666666#32, f 0x3E503FBC#32] = f 0x3EDB5311#32 := by decide +kernel

/-! ### Resonance, filter and the whole TICK (V-RES, V-LPF, P1) -/

theorem test_resonance_filter :
    withResonance zeroBuffer (F32.F 1) = f 0x3F80019A#32 ∧
    lowPass (F32.F 1) (.zero false) = f 0x3DCCCCCD#32 ∧ lowPass (.zero false) (f 0x3DCCCCCD#32) = f 0x3DB851EB#32 ∧
    lowPass (.zero false) (f 0x7F7FFFFF#32) = f 0x7F666665#32 ∧
    lowPass (.zero false) (f 0x00800000#32) = .zero false ∧ lowPass (.zero false) (f 0x80800000#32) = .zero false ∧
    c_MASTER_GAIN.mul (f 0x3DCCCCCD#32) = f 0x3CF5C290#32 := by decide +kernel

/-- The first TICK of program P1: its sample, its filter state and the entry it pushes. -/
theorem test_tick_P1 :
    let t := tickWith tc2 (one 0 (voice .attack F32.posZero F32.posZero))
    t.sampleOut = some 0x3BDD31DF#32 ∧ t.lpfPrev = f 0x3CB85439#32 ∧
    t.resBuf.toList.getLast? = some (f 0x3C3851EB#32) ∧
    t.slot 0 = some (voice .attack (F32.F (1 / 4)) (f 0x3FC90FDB#32)) := by decide +kernel

/-- R196, V-NOTE-8 and the first TICK of P4: the voice goes without a sound. -/
theorem test_tick_removes :
    let t := tickWith tc2 (one 5 (voice .release F32.posZero F32.posZero))
    t.sampleOut = some 0#32 ∧ t.slot 5 = none ∧ t.voiceCount = 0#9 := by decide +kernel

/-- P5: RESET clears a NaN; a voice and requests at the ports show what it leaves alone. -/
theorem test_reset_clears :
    let s := { one 0 (voice .sustain (F32.F (1 / 2)) .nan) with lpfPrev := .nan, eventPort := [1#96], samplePort := 2 }
    (resetState s).slot 0 = none ∧ (resetState s).lpfPrev = .zero false ∧ (resetState s).eventPort = [1#96] ∧
    (resetState s).samplePort = 2 := by decide +kernel

/-! ### Steps and placed words -/

theorem test_withFetchWord :
    (State.reset.withFetchWord 96 1).grant.1 = some (.command 1#96) ∧
    (State.reset.withFetchWord 0 0).grant.1 = some .sample ∧ (State.reset.withFetchWord 1 1).grant.1 = some .reset := by
  decide +kernel

/-- R57: after an event the sample port is next, and the other way round. -/
theorem test_round_robin :
    let s := { State.reset with eventPort := [0#96], samplePort := 1 }
    ({ s with lastGrant := some .event }).grant.1 = some .sample ∧
    ({ s with lastGrant := some .sample }).grant.1 = some (.command 0#96) ∧
    ({ s with resetLine := true }).grant.1 = some .reset := by decide +kernel

/-- One step performs the first word of P1 and lets the next round arrive. -/
theorem test_step_noteOn :
    ∃ t, step { State.reset with eventPort := [0x400000003F80000000000001#96], arrivals := [[.sampleRequest]] } =
      .next t ∧
      t.slot 0 = some (voice .attack F32.posZero F32.posZero) ∧ t.eventPort = [] ∧ t.samplePort = 1 :=
  ⟨_, rfl, by decide +kernel⟩

/-- R39: a NOTE_ON and a NOTE_OFF as the hosts see them (V-NOTE-8), by operations and by steps. -/
theorem test_observations :
    observeAll [.noteOn 5#8 (F32.F 100) (F32.F 1), .noteOff 5#8] State.reset = [⟨none, 1#9⟩, ⟨none, 1#9⟩] ∧
    trace 3 { State.reset with eventPort := [0x42C800003F80000000000501#96, 0x0502#96] } =
      [(.command 0x42C800003F80000000000501#96, ⟨none, 1#9⟩), (.command 0x0502#96, ⟨none, 1#9⟩)] := by decide +kernel

/-- R194 and V-RESET: from reset two TICKs return 0x00000000 and leave VOICE_COUNT 0. -/
theorem test_sample_words :
    sampleWords 2 { State.reset with samplePort := 2 } = [0#32, 0#32] ∧
    voiceCounts 2 { State.reset with samplePort := 2 } = [0#9, 0#9] := by decide +kernel

/-! ### The host side (43_host_adapter.md examples) -/

theorem test_adapter :
    freqOf 69 = f 0x43DC0000#32 ∧ freqOf 60 = f 0x4382D013#32 ∧ freqOf 21 = F32.F (mkRat 55 2) ∧
    freqOf 0 = f 0x4102D013#32 ∧ freqOf 127 = f 0x4643FF6A#32 ∧
    velOf 127 = F32.F 1 ∧ velOf 64 = f 0x3F010204#32 ∧ velOf 1 = f 0x3C010204#32 := by decide +kernel

theorem test_assemble :
    assemble (.noteOn 60#8 (.decimal (mkRat 26163 100)) (.decimal 1)) = [.command 0x4382D0A43F80000000003C01#96] ∧
    assemble (.noteOn 0#8 .nan .negInf) = [.command 0x7FC00000FF80000000000001#96] ∧
    assemble (.rsvd 0xFF#8) = [.command 0xFF#96] ∧ assemble (.ticks 2) = [.sample, .sample] := by decide +kernel

/-! ### Witnesses: the hypotheses of each statement can be met, each clause at a boundary of its range -/

/-- For `EncodeThenDecode`. -/
theorem witness_wellFormed : (Instr.noteOn 255#8 .nan (.inf true)).WellFormed ∧ (Instr.reserved04 0x04#8).WellFormed ∧
    (Instr.reserved80 0x80#8).WellFormed := by decide

/-- For `CommandDecodesByOp`, `NoteOnStartsVoice`, `NoteOffReleasesVoice` and `NopAndReservedChangeNothing`. -/
theorem witness_ops :
    (0x00#96 : CommandWord).extractLsb' 0 8 = 0x00#8 ∧ (0x01#96 : CommandWord).extractLsb' 0 8 = 0x01#8 ∧
    (0x02#96 : CommandWord).extractLsb' 0 8 = 0x02#8 ∧ 3 ≤ ((0x03#96 : CommandWord).extractLsb' 0 8).toNat ∧
    3 ≤ ((0xFF#96 : CommandWord).extractLsb' 0 8).toNat := by decide

/-- For `IgnoredBitsHaveNoEffect`: words that differ in the ignored bits only. -/
theorem witness_ignored :
    (let w : CommandWord := 0x400000003F800000ABCD0001#96
     let w' : CommandWord := 0x400000003F80000000000001#96
     w ≠ w' ∧ w.extractLsb' 0 8 = w'.extractLsb' 0 8 ∧ w.extractLsb' 8 8 = w'.extractLsb' 8 8 ∧
       w.extractLsb' 32 64 = w'.extractLsb' 32 64) ∧
    (let w : CommandWord := 0x123456789ABCDEF000003C02#96
     let w' : CommandWord := 0x3C02#96
     w ≠ w' ∧ w.extractLsb' 0 8 = w'.extractLsb' 0 8 ∧ w.extractLsb' 0 8 ≠ 0x01#8 ∧
       w.extractLsb' 8 8 = w'.extractLsb' 8 8) ∧
    (let w : CommandWord := 0xFFFFFFFFFFFFFFFFFFFFFF00#96
     let w' : CommandWord := 0x00#96
     w ≠ w' ∧ w.extractLsb' 0 8 = w'.extractLsb' 0 8 ∧ w.extractLsb' 0 8 ≠ 0x01#8 ∧
       w.extractLsb' 0 8 ≠ 0x02#8) := by decide

/-- For `OperandsReadSubnormalsAsZero`: the largest subnormal, the first NaN, and the patterns next to them. -/
theorem witness_operands :
    (0x807FFFFF7F80000100000001#96 : CommandWord).extractLsb' 0 8 = 0x01#8 ∧
    (0x807FFFFF#32 : SampleWord).extractLsb' 23 8 = 0#8 ∧
    ((0x7F800001#32 : SampleWord).extractLsb' 23 8 = 255#8 ∧ (0x7F800001#32 : SampleWord).extractLsb' 0 23 ≠ 0#23) ∧
    ((0x00800000#32 : SampleWord).extractLsb' 23 8 ≠ 0#8 ∧
      ((0x00800000#32 : SampleWord).extractLsb' 23 8 = 255#8 →
        (0x00800000#32 : SampleWord).extractLsb' 0 23 = 0#23)) ∧
    ((0xFF800000#32 : SampleWord).extractLsb' 23 8 ≠ 0#8 ∧
      ((0xFF800000#32 : SampleWord).extractLsb' 23 8 = 255#8 →
        (0xFF800000#32 : SampleWord).extractLsb' 0 23 = 0#23)) := by decide

/-- For the clauses of `NoteOffReleasesVoice`: an absent voice, one in RELEASE, and another slot. -/
theorem witness_noteOff :
    State.reset.slot (slotIndex 61#8) = none ∧
    (∃ v, (one 60 (voice .release F32.posZero F32.posZero)).slot (slotIndex 60#8) = some v ∧ v.envState = .release) ∧
    ((60 : SlotIndex).val ≠ (61#8 : Key).toNat) :=
  ⟨reset_slot _, ⟨_, one_slot _ _, rfl⟩, by decide⟩

/-- For `TickInAttack`, `TickInDecay`, `TickInSustain` and `TickInRelease`. -/
theorem witness_envelope_arms (st : EnvState) :
    ∃ (s : State) (k : SlotIndex) (v : Voice), s.slot k = some v ∧ v.envState = st :=
  ⟨one 255 (voice st F32.posZero F32.posZero), 255, _, one_slot _ _, rfl⟩

/-- For `EnvelopeTransitions`: a step that changes the state. -/
theorem witness_transition :
    (envProcess tc2 (voice .attack (F32.F 1) F32.posZero)).1.envState ≠ .attack ∧
    (envProcess tc2 (voice .decay (F32.F (1 / 2)) F32.posZero)).1.envState ≠ .decay ∧
    (envProcess tc2 (voice .release F32.posZero F32.posZero)).1.envState ≠ .release ∧
    (voice .idle c_ONE .nan).envState = .idle ∧ (voice .sustain c_ONE .nan).envState = .sustain := by decide +kernel

/-- For `AmplitudeStaysInUnit`: a legal configuration, and the amplitudes at the ends of the unit interval. -/
theorem witness_unit :
    tc2.toParams.legal = true ∧ inUnit (.zero false) ∧ inUnit (.zero true) ∧ inUnit c_ONE := by
  unfold inUnit; decide +kernel

/-- For `IncrementsAreFinite`: the sustain levels 1 and −0, and the times at the bound and above it. -/
theorem witness_increments :
    (tc2With (F32.F 1) (F32.F (1 / 4))).toParams.legal = true ∧
    F32.feq (tc2With (F32.F 1) (F32.F (1 / 4))).sustain c_ONE = true ∧
    (tc2With (.zero true) (F32.F (2 ^ 123))).toParams.legal = true ∧
    F32.le (tc2.attackS.mul tc2.sr) (F32.F (2 ^ 126)) = true ∧
    F32.le ((tc2With (.zero true) (F32.F (2 ^ 123))).releaseS.mul tc2.sr) (F32.F (2 ^ 126)) = true ∧
    (tc2With (.zero true) (F32.F (2 ^ 124))).toParams.legal = true ∧
    relK (tc2With (.zero true) (F32.F (2 ^ 124))) = .zero false := by
  decide +kernel

/-- For `ReleaseStepStrictlyFalls`: `REL_K` exactly `2^-23`, and the amplitudes at both ends. -/
theorem witness_release_falls :
    (tc2With (F32.F (1 / 2)) (F32.F (2 ^ 20))).toParams.legal = true ∧
    relK (tc2With (F32.F (1 / 2)) (F32.F (2 ^ 20))) = F32.F (mkRat 1 (2 ^ 23)) ∧
    F32.le (F32.F (mkRat 1 (2 ^ 23))) (relK (tc2With (F32.F (1 / 2)) (F32.F (2 ^ 20)))) = true ∧
    F32.le c_REL_THRESHOLD c_REL_THRESHOLD = true ∧ F32.le c_REL_THRESHOLD c_ONE = true ∧
    F32.le c_ONE c_ONE = true := by decide +kernel

/-- For `ReleaseEndsWithinBound`: the configuration of `witness_release_falls`, a voice at amplitude 1 and one at −0. -/
theorem witness_release_ends :
    F32.lt (.zero true) c_REL_THRESHOLD = true ∧ inUnit (.zero true) ∧ inUnit c_ONE ∧
    F32.le (.zero true) c_ONE = true ∧ releaseBound c_REL_THRESHOLD = 1 ∧ releaseBound c_ONE = 83684754 ∧
    ∀ amp ∈ [c_ONE, .zero true], ∃ v, (one 255 (voice .release amp F32.posZero)).slot 255 = some v ∧
      v.envState = .release ∧ inUnit v.envAmp := by
  refine ⟨by decide +kernel, by unfold inUnit; decide +kernel, by unfold inUnit; decide +kernel, by decide +kernel,
    by decide +kernel, by decide +kernel, fun amp h => ⟨_, one_slot _ _, rfl, ?_⟩⟩
  revert amp
  unfold inUnit
  decide +kernel

/-- For `SlowReleaseNeverEnds`: the release times of TC1-STUCK's kind, at the threshold and at 1. -/
theorem witness_slow_release :
    let cfg := tc2With (F32.F (1 / 2)) (F32.F (2 ^ 23))
    cfg.toParams.legal = true ∧ F32.lt (relK cfg) (F32.F (mkRat 1 (2 ^ 25))) = true ∧
    (∃ v, (one 0 (voice .release c_REL_THRESHOLD F32.posZero)).slot 0 = some v ∧ v.envState = .release ∧
      F32.le c_REL_THRESHOLD v.envAmp = true ∧ F32.le v.envAmp c_ONE = true) ∧
    (∃ v, (one 0 (voice .release c_ONE F32.posZero)).slot 0 = some v ∧ v.envState = .release ∧
      F32.le c_REL_THRESHOLD v.envAmp = true ∧ F32.le v.envAmp c_ONE = true) :=
  ⟨by decide +kernel, by decide +kernel, ⟨_, one_slot _ _, rfl, by decide +kernel, by decide +kernel⟩,
    ⟨_, one_slot _ _, rfl, by decide +kernel, by decide +kernel⟩⟩

/-- For `SlotsAreIndependent`: two states that differ outside slot 0, and the parts of a state below and above slot 1. -/
theorem witness_independent :
    let v := voice .sustain F32.posZero F32.posZero
    ((one 0 v).slot 0 = ((one 0 v).setSlot 1 (some v)).slot 0 ∧
      (one 0 v).slot 1 ≠ ((one 0 v).setSlot 1 (some v)).slot 1) ∧
    let s := ((one 0 v).setSlot 1 (some v)).setSlot 255 (some v)
    (∀ j, (one 0 v).slot j = if j < 1 then s.slot j else none) ∧
    (∀ j, (one 255 v).slot j = if 1 < j then s.slot j else none) := by
  refine ⟨⟨by rw [slot_setSlot, if_neg (by decide)],
    by rw [slot_setSlot, if_pos rfl, one_slot_ne _ (by decide)]; simp⟩, fun j => ?_, fun j => ?_⟩
  · simp only [slot_setSlot, one, reset_slot]
    revert j; decide +kernel
  · simp only [slot_setSlot, one, reset_slot]
    revert j; decide +kernel

/-- For `TwoVoicesSuperpose`: two voices with the contributions of V-OSC-3. -/
theorem witness_superpose :
    let v1 := voice .attack F32.posZero F32.posZero
    let v2 : Voice := { v1 with freq := F32.F 1, vel := F32.F (1 / 2), envAmp := F32.F (1 / 4) }
    let s := (one 0 v1).setSlot 69 (some v2)
    ∃ v1' v2' c1 c2, (0 : SlotIndex) < 69 ∧ s.slot 0 = some v1 ∧ s.slot 69 = some v2 ∧
      (∀ i, i ≠ 0 → i ≠ 69 → s.slot i = none) ∧
      voiceTick tc2 0 v1 = some (v1', c1) ∧ voiceTick tc2 69 v2 = some (v2', c2) ∧
      c1.isFinite = true ∧ c2.isFinite = true := by
  refine ⟨voice .attack (F32.F (1 / 4)) (f 0x3FC90FDB#32),
    { voice .attack (F32.F (1 / 2)) (f 0x3F490FDB#32) with freq := F32.F 1, vel := F32.F (1 / 2) },
    f 0x3E666666#32, f 0x3E503FBC#32, by decide, by rw [slot_setSlot, if_neg (by decide), one_slot],
    slot_setSlot_same .., fun i h0 h1 => by rw [slot_setSlot, if_neg h1, one_slot_ne _ h0], ?_, ?_, ?_, ?_⟩ <;>
    decide +kernel

/-- For `TwoVoicesSuperpose` where both contributions are −0: two voices of `FREQ` +0 and `VEL` −0. -/
theorem witness_superpose_zero :
    let v : Voice := { voice .attack F32.posZero F32.posZero with freq := .zero false, vel := .zero true }
    ∃ v', voiceTick tc2 0 v = some (v', .zero true) ∧ voiceTick tc2 69 v = some (v', .zero true) :=
  ⟨{ voice .attack (F32.F (1 / 4)) F32.posZero with freq := .zero false, vel := .zero true }, by decide +kernel⟩

/-- For `WrapExact`: the ends of both ranges, and finite values outside them. -/
theorem witness_wrap :
    ((F32.zero false).sign = false ∧ F32.lt (.zero false) c_TWO_PI = true) ∧
    ((f 0x40C90FDA#32).sign = false ∧ F32.lt (f 0x40C90FDA#32) c_TWO_PI = true) ∧
    (F32.le c_TWO_PI c_TWO_PI = true ∧ F32.lt c_TWO_PI (c_TWO.mul c_TWO_PI) = true) ∧
    (F32.le c_TWO_PI (f 0x41490FDA#32) = true ∧ F32.lt (f 0x41490FDA#32) (c_TWO.mul c_TWO_PI) = true) ∧
    (F32.zero true).isFinite = true ∧ (f 0x80800000#32).isFinite = true ∧ (f 0x7F7FFFFF#32).isFinite = true := by
  decide +kernel

/-- For `RoundingIsNearest` and `RoundingMonotoneAndExact`: the least normal magnitude and the largest finite one. -/
theorem witness_rounding :
    ((1 / 2 ^ 126 : ℚ) ≤ |1 / 2 ^ 126| ∧ (F32.F (1 / 2 ^ 126)).isFinite = true) ∧
    ((1 / 2 ^ 126 : ℚ) ≤ |-(2 ^ 128 - 2 ^ 104)| ∧ (F32.F (-(2 ^ 128 - 2 ^ 104))).isFinite = true) ∧
    (F32.zero true).isFinite = true ∧ (F32.F (1 / 2 ^ 126)).isNormal = true := by
  refine ⟨⟨le_abs_self _, by decide +kernel⟩, ⟨?_, by decide +kernel⟩, rfl, by decide +kernel⟩
  rw [abs_neg, abs_of_pos (by norm_num)]; norm_num

/-- For `RoundingIsNearest`: the ties above 1, whose even neighbour lies below or above. -/
theorem witness_ties :
    (1 / 2 ^ 126 ≤ |(1 + 1 / 2 ^ 24 : ℚ)| ∧ F32.F (1 + 1 / 2 ^ 24) = f 0x3F800000#32 ∧
      (f 0x3F800001#32).isFinite = true ∧ (f 0x3F800001#32).toRat ≠ (f 0x3F800000#32).toRat ∧
      |(1 + 1 / 2 ^ 24 : ℚ) - (f 0x3F800001#32).toRat| = |1 + 1 / 2 ^ 24 - (f 0x3F800000#32).toRat|) ∧
    (1 / 2 ^ 126 ≤ |(1 + 3 / 2 ^ 24 : ℚ)| ∧ F32.F (1 + 3 / 2 ^ 24) = f 0x3F800002#32 ∧
      (f 0x3F800001#32).toRat ≠ (f 0x3F800002#32).toRat ∧
      |(1 + 3 / 2 ^ 24 : ℚ) - (f 0x3F800001#32).toRat| = |1 + 3 / 2 ^ 24 - (f 0x3F800002#32).toRat|) := by
  decide +kernel

/-- For `SumsDoNotDependOnOrder`. -/
theorem witness_order : [F32.F 1, .nan].Perm [.nan, F32.F 1] ∧ [F32.F 1, .nan] ≠ [] :=
  ⟨List.Perm.swap .., by simp⟩

/-- For `SumsAreRoundedOnce`: one list for each clause, the last two of the shape of RES_BUF. -/
theorem witness_sums :
    (F32.nan ∈ [F32.F 1, .nan] ∧ F32.inf false ∈ [F32.inf true, .inf false] ∧
      F32.inf true ∈ [F32.inf true, .inf false]) ∧
    (F32.nan ∉ [F32.F 1, .inf true] ∧ F32.inf true ∈ [F32.F 1, .inf true] ∧ F32.inf (!true) ∉ [F32.F 1, .inf true]) ∧
    (∀ x ∈ [F32.zero true, .zero true], x = .zero true) ∧
    ((∀ x ∈ [F32.F 1, F32.F (-1)], x.isFinite = true) ∧ ([F32.F 1, F32.F (-1)].map F32.toRat).sum = 0 ∧
      ∃ x ∈ [F32.F 1, F32.F (-1)], x ≠ .zero true) ∧
    ((∀ x ∈ (resPush zeroBuffer (f 0x3D4CCCCD#32)).toList, x.isFinite = true) ∧
      ((resPush zeroBuffer (f 0x3D4CCCCD#32)).toList.map F32.toRat).sum ≠ 0) := by decide +kernel

/-- For `IeeeSpecialCases` and `InfinitiesFollowIeee`: finite operands with zero and nonzero sums, and zeros. -/
theorem witness_special :
    (F32.zero true).isFinite = true ∧ c_ONE.isFinite = true ∧ c_ONE.neg.isFinite = true ∧ c_ONE.isZero = false ∧
    c_ONE.toRat + c_ONE.toRat ≠ 0 ∧ c_ONE.toRat + c_ONE.neg.toRat = 0 ∧ c_ONE.toRat - c_ONE.toRat = 0 ∧
    c_ONE.toRat - c_ONE.neg.toRat ≠ 0 := by
  decide +kernel

/-- For `ResetRule`: reset asserted while both ports hold requests. -/
theorem witness_reset_asserted :
    ({ one 0 (voice .attack c_ONE F32.posZero) with
        resetLine := true, eventPort := [1#96], samplePort := 1 } : State).resetLine = true := rfl

/-- For `SilenceUntilNoteOn`: requests held at the ports do not matter. -/
theorem witness_silence :
    ({ State.reset with eventPort := [2#96] } : State).block = State.reset.block ∧
    ∀ key freq vel, Instr.tick ≠ .noteOn key freq vel := ⟨rfl, fun _ _ _ h => by cases h⟩

/-- For `NonFiniteFilterUntilReset`: an infinity and a NaN. -/
theorem witness_nonfinite :
    ({ State.reset with lpfPrev := .inf true } : State).lpfPrev.isFinite = false ∧
    ({ State.reset with lpfPrev := .nan } : State).lpfPrev.isFinite = false ∧ Instr.tick ≠ .reset :=
  ⟨rfl, rfl, by decide⟩

/-- For `NaNPhasePoisonsSample`. -/
theorem witness_nan_phase :
    ∃ v, (one 127 (voice .sustain c_ONE .nan)).slot 127 = some v ∧ v.phase = .nan := ⟨_, one_slot _ _, rfl⟩

/-- For `SilentTickStaysFinite`: the largest finite values everywhere. -/
theorem witness_silent :
    let s : State := { State.reset with lpfPrev := f 0x7F7FFFFF#32, resBuf := Vector.replicate resLen (f 0x7F7FFFFF#32) }
    s.NoVoices ∧ (∀ x ∈ s.resBuf.toList, x.isFinite = true) ∧ s.lpfPrev.isFinite = true := by
  refine ⟨reset_slot, fun x hx => ?_, by decide +kernel⟩
  have : x = f 0x7F7FFFFF#32 := by simpa using hx
  rw [this]; decide +kernel

/-- For `FilterDrainsWithin1672Ticks`: the largest finite filter state. -/
theorem witness_drain :
    let s : State := { State.reset with lpfPrev := f 0xFF7FFFFF#32 }
    s.NoVoices ∧ (∀ x ∈ s.resBuf.toList, x = .zero false) ∧ s.lpfPrev.isFinite = true ∧ 1672 ≤ 1672 := by
  refine ⟨reset_slot, fun x hx => ?_, by decide +kernel, le_refl _⟩
  have hx : x ∈ zeroBuffer.toList := hx
  simpa [zeroBuffer] using hx

/-- For `BoundedInputsStayFinite` and `StepKeepsBounds`: a voice and a NOTE_ON at the bounds of R149. -/
theorem witness_bounded :
    tc2.toParams.legal = true ∧ SineOk tc2.sin ∧ F32.le c_ONE tc2.sr = true ∧
    (one 0 { voice .attack c_ONE (f 0x40C90FDA#32) with freq := freqBound.neg, vel := velBound }).Bounded := by
  refine ⟨by decide +kernel, lawfulSine_ok _, by decide +kernel, ⟨fun k v h => ?_, fun x hx => ?_, ?_⟩⟩
  · by_cases hk : k = 0
    · rw [hk, one_slot] at h
      rw [← Option.some.inj h]
      exact ⟨by unfold absLe; decide +kernel, by unfold absLe; decide +kernel, by unfold inUnit; decide +kernel, rfl,
        .inr ⟨rfl, by decide +kernel⟩⟩
    · rw [one_slot_ne _ hk] at h; cases h
  · have : x = .zero false := by
      rw [one, setSlot_resBuf] at hx
      simpa [State.reset, zeroBuffer] using hx
    rw [this]; unfold absLe; decide +kernel
  · unfold absLe; decide +kernel

/-- For `BoundedInputsStayFinite` and `StepKeepsBounds`: operands at the bounds, held and presented. -/
theorem witness_host_bounded :
    opBounded (.noteOn 255#8 freqBound velBound.neg) ∧ opBounded .tick ∧
    ({ State.reset with eventPort := [0x400000003F80000000000001#96],
                        arrivals := [[.command 0x02#96, .sampleRequest]] } : State).HostBounded ∧
    ∃ t, stepWith tc2 { State.reset with samplePort := 1 } = .next t := by
  refine ⟨⟨by unfold absLe; decide +kernel, by unfold absLe; decide +kernel⟩, trivial, ⟨fun w hw => ?_, ?_⟩, _, rfl⟩
  · have hw : w = 0x400000003F80000000000001#96 := by simpa using hw
    have hd : decodeCommand 0x400000003F80000000000001#96 = .noteOn 0#8 (F32.F 2) (F32.F 1) := by decide +kernel
    rw [hw, hd]
    exact ⟨by unfold absLe; decide +kernel, by unfold absLe; decide +kernel⟩
  · intro round hr w hw
    have hr : round = [.command 0x02#96, .sampleRequest] := by simpa using hr
    have hw : w = 0x02#96 := by simpa [hr] using hw
    have hd : decodeCommand 0x02#96 = .noteOff 0#8 := by decide +kernel
    rw [hw, hd]
    trivial

/-- For `ValidWrittenOnlyBy`: a NOTE_ON that sets, and a TICK and a RESET that clear. -/
theorem witness_valid :
    (∃ s t, exec (.noteOn 255#8 .nan .nan) s = .next t ∧ s.valid 255 ≠ t.valid 255) ∧
    (∃ s t, exec .tick s = .next t ∧ s.valid 0 ≠ t.valid 0) ∧
    (∃ s t, exec .reset s = .next t ∧ s.valid 0 ≠ t.valid 0) := by
  refine ⟨⟨State.reset, _, rfl, by simp [State.valid, slotIndex]⟩,
    ⟨one 0 (voice .idle F32.posZero F32.posZero), _, rfl, ?_⟩,
    ⟨one 0 (voice .sustain F32.posZero F32.posZero), _, rfl, by simp [State.valid, one_slot]⟩⟩
  have h : voiceTick Config.cfg 0 (voice .idle F32.posZero F32.posZero) = none := by
    rcases voiceTick_cases Config.cfg 0 (voice .idle F32.posZero F32.posZero) with ⟨_, _, h⟩ | ⟨h, _⟩
    · exact h
    · exact absurd (by constructor <;> decide +kernel) h
  rw [State.valid, State.valid, tickWith_slot, one_slot]
  simp [h]

/-- For `VoiceFieldsWrittenOnlyBy`: a NOTE_ON of another key, and a TICK. -/
theorem witness_voice_fields :
    let s := one 0 (voice .attack F32.posZero F32.posZero)
    (∃ t v v', exec (.noteOn 1#8 .nan .nan) s = .next t ∧ s.slot 0 = some v ∧ t.slot 0 = some v' ∧
      ∀ key freq vel, Instr.noteOn 1#8 .nan .nan = .noteOn key freq vel → slotIndex key ≠ 0) ∧
    (∃ t v v', exec .tick s = .next t ∧ s.slot 0 = some v ∧ t.slot 0 = some v') := by
  refine ⟨⟨_, _, _, rfl, one_slot _ _, by rw [slot_setSlot, if_neg (by decide)]; exact one_slot _ _, ?_⟩, ?_⟩
  · intro key freq vel h
    cases h
    decide
  · have h : ∃ x, voiceTick Config.cfg 0 (voice .attack F32.posZero F32.posZero) = some x := by
      cases h : voiceTick Config.cfg 0 (voice .attack F32.posZero F32.posZero) with
      | some x => exact ⟨x, rfl⟩
      | none =>
        have := ((voiceTick_eq_none (by decide)).1 h).1
        cases this
    obtain ⟨x, h⟩ := h
    exact ⟨_, _, x.1, rfl, one_slot _ _, by rw [tickWith_slot, one_slot]; simp [h]⟩

/-- For `SharedStateWrittenOnlyBy`. -/
theorem witness_shared : exec .nop State.reset = .next State.reset ∧ Instr.nop ≠ .tick ∧ Instr.nop ≠ .reset :=
  ⟨rfl, by decide, by decide⟩

/-- For `StepPerformsDecodedRequest`, `EventPortIsFifo`, `IdleKeepsState` and `EveryInterleavingIsARun`; the run of
`RunsAreOperationsInOrder` has no hypothesis. -/
theorem witness_ports :
    ({ State.reset with resetLine := true } : State).resetLine = true ∧
    (∃ w ws, ({ State.reset with eventPort := [1#96, 2#96] } : State).eventPort = w :: ws ∧
      State.reset.samplePort = 0) ∧
    (∃ n, ({ State.reset with samplePort := 1 } : State).samplePort = n + 1 ∧ State.reset.eventPort = []) ∧
    (State.reset.resetLine = false ∧ State.reset.eventPort = [] ∧ State.reset.samplePort = 0 ∧
      State.reset.arrivals = []) ∧
    (∃ t, step State.reset = .next t) :=
  ⟨rfl, ⟨_, _, rfl, rfl⟩, ⟨_, rfl, rfl⟩, ⟨rfl, rfl, rfl, rfl⟩, ⟨_, rfl⟩⟩

/-- For the contended clauses of `StepPerformsDecodedRequest`: both ports hold a request, after either port's grant and
after none. -/
theorem witness_contended :
    ∀ g ∈ [none, some Port.event, some Port.sample],
      let s : State := { State.reset with eventPort := [0#96, 1#96], samplePort := 2, lastGrant := g }
      s.resetLine = false ∧ (∃ w ws, s.eventPort = w :: ws) ∧ (∃ n, s.samplePort = n + 1) ∧ s.lastGrant = g :=
  fun _ _ => ⟨rfl, ⟨_, _, rfl⟩, ⟨_, rfl⟩, rfl⟩

/-- For `EventPortIsFifo`: the event port granted and not granted, while a round of both ports' requests arrives. -/
theorem witness_fifo :
    (let s : State := { State.reset with eventPort := [1#96], arrivals := [[.command 2#96, .sampleRequest]] }
     s.grant.1 = some (.command 1#96) ∧ ∃ t, step s = .next t) ∧
    (let s : State := { State.reset with samplePort := 1, arrivals := [[.command 2#96, .command 3#96]] }
     (∀ w, s.grant.1 ≠ some (.command w)) ∧ ∃ t, step s = .next t) :=
  ⟨⟨rfl, _, rfl⟩, ⟨(fun _ h => nomatch h), _, rfl⟩⟩

/-- For `AdapterRoundsOnce`: the least velocity that is never sent as a note-off. -/
theorem witness_velocity : (1 : Fin 128) ≠ 0 := by decide

/-- For `PendingRequestWaitsAtMostOne`: both ports hold a request and reset stays released. -/
theorem witness_contention :
    let s : State := { State.reset with eventPort := [0#96], samplePort := 1, lastGrant := some .sample }
    s.resetLine = false ∧ (∃ t, step s = .next t ∧ t.resetLine = false) ∧ (∃ w ws, s.eventPort = w :: ws) ∧
      0 < s.samplePort :=
  ⟨rfl, ⟨_, rfl, rfl⟩, ⟨_, _, rfl⟩, Nat.one_pos⟩

/-- For `StepKeepsInvariants`: a state with a voice that meets the invariants, and a step from it. -/
theorem witness_invariants :
    let s := one 0 (voice .attack c_ONE F32.posZero)
    s.Inv Config.cfg ∧ ∃ t, step { s with samplePort := 1 } = .next t := by
  refine ⟨fun k v h => ?_, _, rfl⟩
  by_cases hk : k = 0
  · rw [hk, one_slot] at h
    cases h
    exact ⟨by decide, by unfold inUnit; decide +kernel, (fun h => by cases h), .inr ⟨rfl, by decide +kernel⟩⟩
  · rw [one_slot_ne _ hk] at h; cases h

/-- For `VoiceCountCountsValidSlots`. -/
theorem witness_voiceCount : ∃ t, exec (decodeCommand 0x01#96) State.reset = .next t := ⟨_, rfl⟩

/-- For `AssembledLinesDecode`: the least OP value `RSVD` takes, and the greatest it refuses. -/
theorem witness_rsvd : (AsmLine.rsvd 0x03#8).valid = true ∧ (AsmLine.rsvd 0x02#8).valid = false := by decide

end Sys2Proof.Tests
end

section
/-!
SUPPORT. Which binary32 values lie on which grid, which rationals the rounding `F` leaves as they are, and where it
overflows, flushes and takes the nearest value (spec/00_scope.md rules R11 and R13).
-/

namespace Sys2Proof

/-! ### The grid of a value -/

/-- The units of a value lie strictly below the bottom of a grid, or are a whole number of its steps. -/
theorem F32.units_lt_or_dvd (x : F32) (e : Nat) : |x.units| < 2 ^ (23 + e) ∨ (2 ^ e : Int) ∣ x.units := by
  cases x with
  | norm s e' f =>
    have habs : |(F32.norm s e' f).units| = (2 ^ 23 + f.toNat) * 2 ^ e'.val := by
      cases s <;> simp only [F32.units, if_true, Bool.false_eq_true, if_false, abs_neg] <;>
        exact abs_of_nonneg (by positivity)
    rcases Nat.lt_or_ge e'.val e with hlt | hge
    · left
      have hf : (2 ^ 23 + f.toNat : Int) < 2 ^ 24 := by have := f.isLt; omega
      calc |(F32.norm s e' f).units| = (2 ^ 23 + f.toNat) * 2 ^ e'.val := habs
        _ < 2 ^ 24 * 2 ^ e'.val := by gcongr
        _ = 2 ^ (23 + (e'.val + 1)) := by ring
        _ ≤ 2 ^ (23 + e) := pow_le_pow_right₀ (by norm_num) (by omega)
    · right
      rw [← dvd_abs, habs]
      exact (pow_dvd_pow 2 hge).mul_left _
  | _ => left; simp [F32.units]

/-! ### Exact results -/

/-- `F` leaves every rational of at most 24 significant bits within the normal range as it is. -/
theorem F32.F_exact {x : ℚ} {k e : Nat} (hk : k ≤ 2 ^ 24) (hx : |x| = (k * 2 ^ e : Nat) / 2 ^ 149)
    (hlo : 2 ^ 23 ≤ k * 2 ^ e) (hhi : k * 2 ^ e < magTop) : (F32.F x).isFinite = true ∧ (F32.F x).toRat = x := by
  have hkey : (F32.F x).key = if x < 0 then -((k * 2 ^ e : Nat) : Int) else (k * 2 ^ e : Nat) := by
    rw [F32.key_F, gridOf_exact hk hx, flushCap, if_neg hlo.not_gt, min_eq_left hhi.le]
  have hfin : (F32.F x).isFinite = true := by
    rw [F32.isFinite_iff_key (F32.F_ne_nan x), hkey, keyTop]
    split_ifs <;> omega
  refine ⟨hfin, ?_⟩
  rw [F32.toRat_eq_key hfin, hkey]
  split_ifs with hneg
  · rw [abs_of_neg hneg] at hx
    push_cast at hx ⊢
    linarith
  · rw [abs_of_nonneg (not_lt.1 hneg)] at hx
    rw [hx]; rfl

/-- `i2f` is exact up to `2^24` (R13). -/
theorem F32.toRat_i2f {k : Nat} (hk : k ≤ 2 ^ 24) : (F32.i2f k).toRat = k := by
  rcases Nat.eq_zero_or_pos k with rfl | hpos
  · simp [F32.i2f]
  · refine (F32.F_exact (e := 149) hk ?_ ?_ ?_).2
    · rw [Nat.abs_cast, Nat.cast_mul, Nat.cast_pow, Nat.cast_ofNat, mul_div_cancel_right₀ _ (by positivity)]
    · calc 2 ^ 23 ≤ 1 * 2 ^ 149 := by norm_num
        _ ≤ k * 2 ^ 149 := Nat.mul_le_mul_right _ hpos
    · calc k * 2 ^ 149 ≤ 2 ^ 24 * 2 ^ 149 := Nat.mul_le_mul_right _ hk
        _ < magTop := by decide +kernel

/-! ### Opposite signs -/

theorem packRounded_not (neg : Bool) (e n : Nat) : packRounded (!neg) e n = (packRounded neg e n).neg := by
  unfold packRounded
  split_ifs <;> rfl

theorem roundMagnitude_not (neg : Bool) (p q : Nat) : roundMagnitude (!neg) p q = (roundMagnitude neg p q).neg := by
  unfold roundMagnitude
  dsimp only
  split_ifs <;> exact packRounded_not ..

/-- Away from zero, `F` of the opposite is the opposite. -/
theorem F32.F_neg {x : ℚ} (hx : x ≠ 0) : F32.F (-x) = (F32.F x).neg := by
  have hs : decide (-x < 0) = !decide (x < 0) := by
    rcases lt_or_gt_of_ne hx with h | h <;> simp [h, h.le]
  rw [F32.F, hs, Rat.num_neg_eq_neg_num, Rat.den_neg_eq_den, Int.natAbs_neg, roundMagnitude_not]
  rfl

/-! ### Half a grid step -/

/-- The exponent of the grid a rational is rounded on. -/
def gridExpOf (x : ℚ) : Nat := gridExp (x.num.natAbs * 2 ^ 149) x.den

theorem abs_eq_natAbs_div_den (x : ℚ) : |x| = (x.num.natAbs : ℚ) / x.den := by
  rw [Rat.abs_def, Rat.divInt_eq_div, Int.cast_natCast, Int.cast_natCast]

/-- A magnitude in units, times the denominator, is the whole number that the model rounds. -/
theorem units_mul_den (x : ℚ) : |x| * 2 ^ 149 * x.den = (x.num.natAbs * 2 ^ 149 : Nat) := by
  have hd : (x.den : ℚ) ≠ 0 := by exact_mod_cast x.den_pos.ne'
  rw [abs_eq_natAbs_div_den, Nat.cast_mul, Nat.cast_pow, Nat.cast_ofNat]
  field_simp

/-- Above the lowest grid a magnitude lies at or above the bottom of its grid. -/
theorem gridBottom_le_units {x : ℚ} (h : 0 < gridExpOf x) : 2 ^ (23 + gridExpOf x) ≤ |x| * 2 ^ 149 := by
  have hd : (0 : ℚ) < x.den := by exact_mod_cast x.den_pos
  refine le_of_mul_le_mul_right ?_ hd
  rw [units_mul_den]
  calc 2 ^ (23 + gridExpOf x) * (x.den : ℚ) = (2 ^ 23 * (x.den * 2 ^ gridExpOf x) : Nat) := by push_cast; ring
    _ ≤ (x.num.natAbs * 2 ^ 149 : Nat) := by exact_mod_cast gridBottom_le h

/-- A magnitude in the normal range lies at or above the bottom of its grid. -/
theorem gridBottom_le_units_of_normal {x : ℚ} (h : 1 / 2 ^ 126 ≤ |x|) :
    2 ^ (23 + gridExpOf x) ≤ |x| * 2 ^ 149 := by
  rcases Nat.eq_zero_or_pos (gridExpOf x) with h0 | h0
  · rw [h0, add_zero]; linarith
  · exact gridBottom_le_units h0

/-- The multiple of the grid step that a rational is rounded to. -/
def gridSteps (x : ℚ) : Nat := roundNearestEven (x.num.natAbs * 2 ^ 149) (x.den * 2 ^ gridExpOf x)

theorem gridOf_eq_steps (x : ℚ) : gridOf x = gridSteps x * 2 ^ gridExpOf x := rfl

theorem gridSteps_le (x : ℚ) : gridSteps x ≤ 2 ^ 24 := gridRound_le_top _ x.den_pos

/-- The rounded magnitude is within half a grid step of the exact one. -/
theorem gridOf_within (x : ℚ) : |2 * (|x| * 2 ^ 149) - 2 * gridOf x| ≤ 2 ^ gridExpOf x := by
  have hd : (0 : ℚ) < x.den := by exact_mod_cast x.den_pos
  obtain ⟨hup, hdown⟩ := gridRound_within (x.num.natAbs * 2 ^ 149) x.den_pos
  have hup : (2 * (x.num.natAbs * 2 ^ 149 : Nat) : ℚ) ≤ x.den * (2 * gridOf x + 2 ^ gridExpOf x) := by
    exact_mod_cast hup
  have hdown : (x.den * (2 * gridOf x) : ℚ) ≤ 2 * (x.num.natAbs * 2 ^ 149 : Nat) + x.den * 2 ^ gridExpOf x := by
    exact_mod_cast hdown
  rw [← units_mul_den] at hup hdown
  rw [abs_le]
  constructor <;> nlinarith

/-! ### Overflow and flush (R11) -/

theorem F32.isInfinite_iff_not_finite {x : F32} (h : x ≠ .nan) : x.isInfinite = true ↔ ¬ x.isFinite = true := by
  cases x <;> simp_all [F32.isInfinite, F32.isFinite]

theorem F32.isZero_iff_key {x : F32} (h : x ≠ .nan) : x.isZero = true ↔ x.key = 0 := by
  have ht := keyTop_pos
  cases x with
  | nan => exact absurd rfl h
  | zero s => simp [F32.isZero]
  | inf s => cases s <;> simp [F32.isZero] <;> omega
  | norm s e f =>
    have hm := (F32.norm_magnitude e f).1
    rw [F32.key_norm']
    generalize (2 ^ 23 + f.toNat) * 2 ^ e.val = m at *
    cases s <;> simp [F32.isZero] <;> omega

theorem F32.isFinite_F_iff (x : ℚ) : (F32.F x).isFinite = true ↔ gridOf x < magTop := by
  have ht := magTop_gt
  rw [F32.isFinite_iff_key (F32.F_ne_nan x), F32.key_F, keyTop, flushCap]
  split_ifs <;> omega

theorem F32.isZero_F_iff (x : ℚ) : (F32.F x).isZero = true ↔ gridOf x < 2 ^ 23 := by
  have ht := magTop_gt
  rw [F32.isZero_iff_key (F32.F_ne_nan x), F32.key_F, flushCap]
  split_ifs <;> omega

/-- Rounded on the grid of step `2^e` or a finer one, a rational stays below a bound that it misses by more than half
that step. -/
theorem gridOf_lt {x : ℚ} {e T : Nat} (he : gridExpOf x ≤ e) (h : 2 * (|x| * 2 ^ 149) + 2 ^ e < 2 * T) :
    gridOf x < T := by
  have hw := (abs_le.1 (gridOf_within x)).1
  have hp : (2 : ℚ) ^ gridExpOf x ≤ 2 ^ e := pow_le_pow_right₀ (by norm_num) he
  have : (gridOf x : ℚ) < T := by linarith
  exact_mod_cast this

/-- A magnitude below the bottom of a grid is rounded on a finer grid. -/
theorem gridExpOf_lt {x : ℚ} {e : Nat} (he : 0 < e) (h : |x| * 2 ^ 149 < 2 ^ (23 + e)) : gridExpOf x < e := by
  by_contra hge
  have hb := gridBottom_le_units (x := x) (by omega)
  have hp : (2 : ℚ) ^ (23 + e) ≤ 2 ^ (23 + gridExpOf x) := pow_le_pow_right₀ (by norm_num) (by omega)
  linarith

theorem F32.isInfinite_F_iff (x : ℚ) : (F32.F x).isInfinite = true ↔ 2 ^ 128 - 2 ^ 103 ≤ |x| := by
  rw [F32.isInfinite_iff_not_finite (F32.F_ne_nan x), F32.isFinite_F_iff, not_lt]
  constructor
  · contrapose!
    intro h
    have hexp : gridExpOf x < 254 := gridExpOf_lt (by norm_num) (by
      rw [show (2 : ℚ) ^ (23 + 254) = 2 ^ 128 * 2 ^ 149 by rw [← pow_add]]; linarith)
    refine gridOf_lt (e := 253) (by omega) ?_
    have hT : (magTop : ℚ) = 2 ^ 128 * 2 ^ 149 := by
      rw [show magTop = 2 ^ 128 * 2 ^ 149 by decide +kernel]; norm_num
    rw [hT]; linarith
  · intro h
    have hbound : gridOf (2 ^ 128 - 2 ^ 103) = magTop := by decide +kernel
    rw [← hbound]
    exact gridOf_mono (le_of_eq_of_le (abs_of_pos (by norm_num)) h)

theorem F32.isZero_F_iff_lt (x : ℚ) : (F32.F x).isZero = true ↔ |x| < 1 / 2 ^ 126 - 1 / 2 ^ 150 := by
  rw [F32.isZero_F_iff]
  constructor
  · contrapose!
    intro h
    have hbound : gridOf (1 / 2 ^ 126 - 1 / 2 ^ 150) = 2 ^ 23 := by decide +kernel
    rw [← hbound]
    exact gridOf_mono (le_of_eq_of_le (abs_of_pos (by norm_num)) h)
  · intro h
    have hexp : gridExpOf x < 1 := gridExpOf_lt (by norm_num) (by norm_num; linarith)
    refine gridOf_lt (e := 0) (by omega) ?_
    push_cast; linarith

/-! ### The nearest value (R11 step 1) -/

/-- Where the exact value lies halfway to a neighbour, rounding gives an even number. -/
theorem roundNearestEven_even {p q : Nat} (hq : 0 < q)
    (h : 2 * p = q * (2 * roundNearestEven p q + 1) ∨ 2 * p + q = q * (2 * roundNearestEven p q)) :
    roundNearestEven p q % 2 = 0 := by
  rcases h with h | h
  · have ht := roundNearestEven_tie hq h
    split_ifs at ht <;> omega
  · obtain ⟨m, hm⟩ : ∃ m, roundNearestEven p q = m + 1 := by
      refine Nat.exists_eq_succ_of_ne_zero fun h0 => ?_
      rw [h0] at h; omega
    have ht := roundNearestEven_tie (p := p) (n := m) hq (by rw [hm] at h; nlinarith)
    split_ifs at ht <;> omega

/-- The exact magnitude is within half a step of the steps taken. -/
theorem gridSteps_within (x : ℚ) :
    |(|x| * 2 ^ 149) - gridSteps x * 2 ^ gridExpOf x| ≤ 2 ^ gridExpOf x / 2 := by
  have hw := gridOf_within x
  rw [gridOf_eq_steps] at hw
  push_cast at hw
  rw [abs_le] at hw ⊢
  constructor <;> linarith

/-- Halfway between two steps the even one is taken. -/
theorem gridSteps_even_of_half {x : ℚ}
    (h : |(|x| * 2 ^ 149) - gridSteps x * 2 ^ gridExpOf x| = 2 ^ gridExpOf x / 2) : gridSteps x % 2 = 0 := by
  have hp := units_mul_den x
  refine roundNearestEven_even (p := x.num.natAbs * 2 ^ 149) (q := x.den * 2 ^ gridExpOf x)
    (Nat.mul_pos x.den_pos (by positivity)) ?_
  change _ = _ * (2 * gridSteps x + 1) ∨ _ = _ * (2 * gridSteps x)
  generalize |x| * 2 ^ 149 = X at h hp
  rcases abs_choice (X - gridSteps x * 2 ^ gridExpOf x) with hsign | hsign
  · left
    have : (2 * (x.num.natAbs * 2 ^ 149 : Nat) : ℚ) = x.den * 2 ^ gridExpOf x * (2 * gridSteps x + 1) := by
      rw [← hp, show X = gridSteps x * 2 ^ gridExpOf x + 2 ^ gridExpOf x / 2 by linarith]; ring
    exact_mod_cast this
  · right
    have : (2 * (x.num.natAbs * 2 ^ 149 : Nat) + x.den * 2 ^ gridExpOf x : ℚ) =
        x.den * 2 ^ gridExpOf x * (2 * gridSteps x) := by
      rw [← hp, show X = gridSteps x * 2 ^ gridExpOf x - 2 ^ gridExpOf x / 2 by linarith]; ring
    exact_mod_cast this

/-- The steps taken are nearest among all whole numbers of steps, and even where another number is as near. -/
theorem gridSteps_nearest (x : ℚ) (k : Int) :
    |(|x| * 2 ^ 149) - gridOf x| ≤ |(|x| * 2 ^ 149) - k * 2 ^ gridExpOf x| ∧
    (k ≠ gridSteps x → |(|x| * 2 ^ 149) - k * 2 ^ gridExpOf x| = |(|x| * 2 ^ 149) - gridOf x| →
      gridSteps x % 2 = 0) := by
  have hw := gridSteps_within x
  have heven := @gridSteps_even_of_half x
  have hs : (0 : ℚ) < 2 ^ gridExpOf x := by positivity
  rw [gridOf_eq_steps]
  push_cast
  generalize |x| * 2 ^ 149 = X at *
  rcases eq_or_ne k (gridSteps x) with rfl | hk
  · simp
  have hgap : 2 ^ gridExpOf x ≤ |((k : ℚ) - gridSteps x) * 2 ^ gridExpOf x| := by
    have h1 : (1 : ℚ) ≤ |(k : ℚ) - gridSteps x| := by
      exact_mod_cast Int.one_le_abs (sub_ne_zero.2 hk)
    rw [abs_mul, abs_of_pos hs]
    nlinarith
  have htri : |((k : ℚ) - gridSteps x) * 2 ^ gridExpOf x| ≤
      |X - gridSteps x * 2 ^ gridExpOf x| + |X - k * 2 ^ gridExpOf x| := by
    refine le_trans (le_of_eq ?_) (abs_sub _ _)
    congr 1; ring
  exact ⟨by linarith, fun _ htie => heven (by linarith)⟩

/-- A value below the bottom of a grid is not a nearest one to a magnitude on it. -/
theorem gridOf_nearer_below {x Y : ℚ} (hx : 1 / 2 ^ 126 ≤ |x|) (hY : Y < 2 ^ (23 + gridExpOf x)) :
    |(|x| * 2 ^ 149) - gridOf x| < |(|x| * 2 ^ 149) - Y| := by
  have hb := gridBottom_le_units_of_normal hx
  have hn := (gridSteps_nearest x (2 ^ 23)).1
  have he : ((2 ^ 23 : Int) : ℚ) * 2 ^ gridExpOf x = 2 ^ (23 + gridExpOf x) := by push_cast; ring
  rw [he, abs_of_nonneg (a := _ - 2 ^ (23 + gridExpOf x)) (by linarith)] at hn
  rw [abs_of_pos (a := _ - Y) (by linarith)]
  linarith

/-- The last bit of a pattern is the last bit of the fraction. -/
theorem F32.toBits_norm_lsb (s : Bool) (e : Fin 254) (f : BitVec 23) :
    (F32.norm s e f).toBits.getLsbD 0 = f.getLsbD 0 := by
  rw [F32.toBits, packBits, BitVec.getLsbD_append, if_pos (by norm_num)]

theorem F32.toBits_neg_lsb (x : F32) : x.neg.toBits.getLsbD 0 = x.toBits.getLsbD 0 := by
  cases x with
  | norm s e f => rw [F32.neg, F32.toBits_norm_lsb, F32.toBits_norm_lsb]
  | nan => rfl
  | inf s => cases s <;> rfl
  | zero s => cases s <;> rfl

/-- An even number of steps of at most 24 bits has an even fraction. -/
theorem frac_even_of_steps_even {f e n g : Nat} (hn : n ≤ 2 ^ 24) (heven : n % 2 = 0)
    (h : (2 ^ 23 + f) * 2 ^ e = n * 2 ^ g) : f % 2 = 0 := by
  by_contra hodd
  obtain ⟨m, rfl⟩ : 2 ∣ n := Nat.dvd_of_mod_eq_zero heven
  have hdvd : 2 ^ (g + 1) ∣ (2 ^ 23 + f) * 2 ^ e := ⟨m, by rw [h]; ring⟩
  have hcop : Nat.Coprime (2 ^ (g + 1)) (2 ^ 23 + f) :=
    Nat.Coprime.pow_left _ ((Nat.coprime_two_left).2 (by rw [Nat.odd_iff]; omega))
  have hle : g + 1 ≤ e := (Nat.pow_dvd_pow_iff_le_right (by norm_num)).1 (hcop.dvd_of_dvd_mul_left hdvd)
  have hbig : (2 ^ 23 + f) * 2 ^ (g + 1) ≤ (2 * m) * 2 ^ g := by
    rw [← h]; exact Nat.mul_le_mul_left _ (Nat.pow_le_pow_right (by norm_num) hle)
  have : (2 ^ 23 + f) * 2 ≤ 2 * m := by
    refine Nat.le_of_mul_le_mul_right (c := 2 ^ g) ?_ (by positivity)
    calc (2 ^ 23 + f) * 2 * 2 ^ g = (2 ^ 23 + f) * 2 ^ (g + 1) := by rw [pow_succ]; ring
      _ ≤ _ := hbig
  omega

/-- Where an even number of steps is taken, the last bit of the result is 0. -/
theorem F32.lsb_F_of_steps_even {x : ℚ} (h : gridSteps x % 2 = 0) (hfin : (F32.F x).isFinite = true) :
    (F32.F x).toBits.getLsbD 0 = false := by
  have hkey := F32.key_F x
  have hlt := (F32.isFinite_F_iff x).1 hfin
  rcases (F32.isFinite_iff _).1 hfin with ⟨s, hz⟩ | ⟨s, e, f, hn⟩
  · rw [hz]; cases s <;> rfl
  · have hm := (F32.norm_magnitude e f).1
    have hg : (2 ^ 23 + f.toNat) * 2 ^ e.val = gridSteps x * 2 ^ gridExpOf x := by
      rw [hn, F32.key_norm', flushCap] at hkey
      rw [← gridOf_eq_steps]
      generalize (2 ^ 23 + f.toNat) * 2 ^ e.val = m at *
      cases s <;> split_ifs at hkey <;> simp at * <;> omega
    have hf := frac_even_of_steps_even (gridSteps_le x) h hg
    rw [hn, F32.toBits_norm_lsb, ← BitVec.testBit_toNat]
    simp [Nat.testBit_zero, hf]

/-- For a positive rational in the normal range, `F` takes a nearest value, ties to even. -/
theorem F32.F_nearest_of_pos {x : ℚ} (hx : 1 / 2 ^ 126 ≤ x) (hfin : (F32.F x).isFinite = true) (y : F32) :
    |x - (F32.F x).toRat| ≤ |x - y.toRat| ∧
    (y.toRat ≠ (F32.F x).toRat → |x - y.toRat| = |x - (F32.F x).toRat| → (F32.F x).toBits.getLsbD 0 = false) := by
  have hpos : 0 < x := lt_of_lt_of_le (by positivity) hx
  have habs : |x| = x := abs_of_pos hpos
  have hflush : ¬ gridOf x < 2 ^ 23 := by
    rw [← F32.isZero_F_iff, F32.isZero_F_iff_lt, habs, not_lt]; linarith [hx]
  have hval : (F32.F x).toRat = gridOf x / 2 ^ 149 := by
    rw [F32.toRat_eq_key hfin, F32.key_F, if_neg (not_lt.2 hpos.le), flushCap, if_neg hflush,
      min_eq_left ((F32.isFinite_F_iff x).1 hfin).le]
    rfl
  have hscale : ∀ z : ℚ, |x - z / 2 ^ 149| = |(|x| * 2 ^ 149) - z| / 2 ^ 149 := by
    intro z
    rw [habs, show x - z / 2 ^ 149 = (x * 2 ^ 149 - z) / 2 ^ 149 by field_simp, abs_div,
      abs_of_pos (a := (2 : ℚ) ^ 149) (by positivity)]
  rw [hval, F32.toRat_eq, hscale, hscale, div_le_div_iff_of_pos_right (by positivity),
    div_left_inj' (by positivity), Ne, div_left_inj' (by positivity)]
  rcases F32.units_lt_or_dvd y (gridExpOf x) with hlt | ⟨k, hk⟩
  · have hY : (y.units : ℚ) < 2 ^ (23 + gridExpOf x) := by exact_mod_cast lt_of_le_of_lt (le_abs_self _) hlt
    have := gridOf_nearer_below (by rwa [habs]) hY
    exact ⟨this.le, fun _ h => absurd h this.ne'⟩
  · have hY : (y.units : ℚ) = k * 2 ^ gridExpOf x := by rw [hk]; push_cast; ring
    obtain ⟨hle, htie⟩ := gridSteps_nearest x k
    rw [hY]
    refine ⟨hle, fun hne h => F32.lsb_F_of_steps_even (htie (fun hks => hne ?_) h) hfin⟩
    rw [hks, gridOf_eq_steps]; push_cast; rfl

end Sys2Proof
end

section
/-!
SUPPORT. The four operations and the comparisons, case by case (spec/00_scope.md rule R14).
-/

namespace Sys2Proof

/-! ### Operations on finite values -/

/-- A value without a sign is not negative. -/
theorem F32.toRat_nonneg_of_sign {x : F32} (h : x.sign = false) : 0 ≤ x.toRat := by
  rw [F32.toRat_eq]
  refine div_nonneg ?_ (by positivity)
  cases x with
  | norm s e f =>
    obtain rfl : s = false := h
    simp only [F32.units, Bool.false_eq_true, if_false]
    positivity
  | _ => simp [F32.units]

theorem F32.isNegZero_iff {x : F32} : x.isNegZero = true ↔ x = .zero true := by
  cases x <;> simp [F32.isNegZero]

theorem F32.add_of_finite {a b : F32} (ha : a.isFinite = true) (hb : b.isFinite = true) :
    a.add b = if a.toRat + b.toRat = 0 then .zero (decide (a = .zero true ∧ b = .zero true))
      else F32.F (a.toRat + b.toRat) := by
  have hz : (a.isNegZero && b.isNegZero) = decide (a = .zero true ∧ b = .zero true) := by
    rw [Bool.eq_iff_iff, Bool.and_eq_true, decide_eq_true_iff, F32.isNegZero_iff, F32.isNegZero_iff]
  rw [F32.isFinite_iff_not] at ha hb
  simp [F32.add, ha, hb, hz]

theorem F32.neg_eq_zero_iff {x : F32} {s : Bool} : x.neg = .zero s ↔ x = .zero !s := by
  cases x <;> cases s <;> simp [F32.neg]

theorem F32.sub_of_finite {a b : F32} (ha : a.isFinite = true) (hb : b.isFinite = true) :
    a.sub b = if a.toRat - b.toRat = 0 then .zero (decide (a = .zero true ∧ b = .zero false))
      else F32.F (a.toRat - b.toRat) := by
  rw [F32.sub, F32.add_of_finite ha (by simpa using hb), F32.toRat_neg, ← sub_eq_add_neg]
  simp only [F32.neg_eq_zero_iff, Bool.not_true]

theorem F32.mul_of_nonzero {a b : F32} (ha : a.isFinite = true) (hb : b.isFinite = true) (hza : a.isZero = false)
    (hzb : b.isZero = false) : a.mul b = F32.F (a.toRat * b.toRat) := by
  rw [F32.isFinite_iff_not] at ha hb
  simp [F32.mul, ha, hb, hza, hzb]

theorem F32.div_of_nonzero {a b : F32} (ha : a.isFinite = true) (hb : b.isFinite = true) (hza : a.isZero = false)
    (hzb : b.isZero = false) : a.div b = F32.F (a.toRat / b.toRat) := by
  rw [F32.isFinite_iff_not] at ha hb
  simp [F32.div, ha, hb, hza, hzb]

theorem F32.lt_of_finite {a b : F32} (ha : a.isFinite = true) (hb : b.isFinite = true) :
    F32.lt a b = decide (a.toRat < b.toRat) := by
  rw [Bool.eq_iff_iff, F32.lt_iff, decide_eq_true_iff, ← not_le, ← not_le, F32.toRat_le_iff hb ha]
  simp [F32.isFinite_not_nan ha, F32.isFinite_not_nan hb]

theorem F32.feq_of_finite {a b : F32} (ha : a.isFinite = true) (hb : b.isFinite = true) :
    F32.feq a b = decide (a.toRat = b.toRat) := by
  rw [F32.feq, F32.le_of_finite ha hb, F32.le_of_finite hb ha, Bool.eq_iff_iff]
  simp [le_antisymm_iff]

/-! ### Operations on zeros, infinities and NaN -/

@[simp] theorem F32.isNaN_zero (s : Bool) : (F32.zero s).isNaN = false := rfl
@[simp] theorem F32.isNaN_inf (s : Bool) : (F32.inf s).isNaN = false := rfl
@[simp] theorem F32.isInfinite_zero (s : Bool) : (F32.zero s).isInfinite = false := rfl
@[simp] theorem F32.isInfinite_inf (s : Bool) : (F32.inf s).isInfinite = true := rfl
@[simp] theorem F32.isZero_zero (s : Bool) : (F32.zero s).isZero = true := rfl
@[simp] theorem F32.isZero_inf (s : Bool) : (F32.inf s).isZero = false := rfl
@[simp] theorem F32.sign_zero (s : Bool) : (F32.zero s).sign = s := rfl
@[simp] theorem F32.sign_inf (s : Bool) : (F32.inf s).sign = s := rfl

theorem F32.op_nan (a : F32) : ∀ op ∈ [F32.add, F32.sub, F32.mul, F32.div], op a .nan = .nan ∧ op .nan a = .nan := by
  simp [F32.add, F32.sub, F32.mul, F32.div, F32.isNaN, F32.neg]

theorem F32.cmp_nan (a : F32) : ∀ cmp ∈ [F32.le, F32.lt, F32.feq], cmp a .nan = false ∧ cmp .nan a = false := by
  simp [F32.le, F32.lt, F32.feq, F32.isNaN]

theorem F32.mul_zero_finite {a : F32} (s : Bool) (ha : a.isFinite = true) :
    a.mul (.zero s) = .zero (a.sign ^^ s) ∧ F32.mul (.zero s) a = .zero (s ^^ a.sign) := by
  rw [F32.isFinite_iff_not] at ha
  simp [F32.mul, ha]

theorem F32.div_zero_finite {a : F32} (s : Bool) (ha : a.isFinite = true) (hz : a.isZero = false) :
    a.div (.zero s) = .inf (a.sign ^^ s) ∧ F32.div (.zero s) a = .zero (s ^^ a.sign) := by
  rw [F32.isFinite_iff_not] at ha
  simp [F32.div, ha, hz]

theorem F32.div_inf_finite {a : F32} (s : Bool) (ha : a.isFinite = true) :
    a.div (.inf s) = .zero (a.sign ^^ s) ∧ F32.div (.inf s) a = .inf (s ^^ a.sign) := by
  rw [F32.isFinite_iff_not] at ha
  simp [F32.div, ha]

theorem F32.add_inf_finite {a : F32} (s : Bool) (ha : a.isFinite = true) :
    F32.add (.inf s) a = .inf s ∧ F32.add a (.inf s) = .inf s := by
  rw [F32.isFinite_iff_not] at ha
  simp [F32.add, ha]

theorem F32.sub_inf_finite {a : F32} (s : Bool) (ha : a.isFinite = true) :
    F32.sub (.inf s) a = .inf s ∧ F32.sub a (.inf s) = .inf (!s) :=
  ⟨(F32.add_inf_finite (a := a.neg) s (by simpa using ha)).1, (F32.add_inf_finite (!s) ha).2⟩

theorem F32.mul_inf_finite {a : F32} (s : Bool) (ha : a.isFinite = true) (hz : a.isZero = false) :
    F32.mul (.inf s) a = .inf (s ^^ a.sign) ∧ F32.mul a (.inf s) = .inf (a.sign ^^ s) := by
  rw [F32.isFinite_iff_not] at ha
  simp [F32.mul, ha, hz]

/-- An infinity lies beyond every finite value. -/
theorem F32.lt_inf_finite {a : F32} (ha : a.isFinite = true) :
    F32.lt a (.inf false) = true ∧ F32.lt (.inf true) a = true := by
  have hk := (F32.isFinite_iff_key (F32.isFinite_not_nan ha)).1 ha
  simp [F32.lt_iff, F32.isFinite_not_nan ha, hk]

/-! ### The obligations -/

/-- Settles O29: `F` is monotone on keys, and a value of at most 24 significant bits is its own rounding. -/
theorem roundingMonotoneAndExact : Obligations.RoundingMonotoneAndExact :=
  ⟨fun x y h => F32.le_iff.2 ⟨F32.F_ne_nan x, F32.F_ne_nan y, F32.key_F_mono h⟩, fun _ h => F32.F_toRat h,
    fun _ hk => F32.toRat_i2f hk⟩

/-- Settles O28: the boundaries lie half a grid step from the top and from the bottom of the normal range. -/
theorem roundingRanges : Obligations.RoundingRanges := fun x =>
  ⟨F32.isInfinite_F_iff x, F32.isZero_F_iff_lt x, F32.sign_F x⟩

/-- Settles O27: the positive case, and the negative one by the symmetry of `F`. -/
theorem roundingIsNearest : Obligations.RoundingIsNearest := by
  intro x hx hfin y _
  rcases lt_or_ge x 0 with hneg | hpos
  · have hF : F32.F (-x) = (F32.F x).neg := F32.F_neg hneg.ne
    have h := F32.F_nearest_of_pos (x := -x) (by rwa [← abs_of_neg hneg]) (by rw [hF]; simpa using hfin) y.neg
    rw [hF, F32.toBits_neg_lsb, F32.toRat_neg, F32.toRat_neg, neg_sub_neg, neg_sub_neg, abs_sub_comm,
      abs_sub_comm y.toRat, Ne, neg_inj] at h
    exact h
  · exact F32.F_nearest_of_pos (by rwa [← abs_of_nonneg hpos]) hfin y

/-- Settles O33, by the lemma for each operation and each kind of operand. -/
theorem ieeeSpecialCases : Obligations.IeeeSpecialCases := by
  refine ⟨fun a b ha hb => ?_, fun a => ⟨F32.op_nan a, F32.cmp_nan a⟩, by decide, by decide +kernel, fun a s ha => ?_⟩
  · refine ⟨fun h => ?_, fun h => ?_,
      fun hza hzb => ⟨F32.mul_of_nonzero ha hb hza hzb, F32.div_of_nonzero ha hb hza hzb⟩, fun h => ?_, fun h => ?_, F32.le_of_finite ha hb, F32.lt_of_finite ha hb, F32.feq_of_finite ha hb⟩
    · rw [F32.add_of_finite ha hb, if_neg h]
    · rw [F32.sub_of_finite ha hb, if_neg h]
    · rw [F32.add_of_finite ha hb, if_pos h]
    · rw [F32.sub_of_finite ha hb, if_pos h]
  · exact ⟨(F32.div_inf_finite s ha).1, (F32.mul_zero_finite s ha).1, (F32.mul_zero_finite s ha).2,
      F32.div_zero_finite s ha⟩

/-- Settles O34, by the lemma for each operation on an infinity. -/
theorem infinitiesFollowIeee : Obligations.InfinitiesFollowIeee := by
  refine ⟨by decide, by decide, fun a s ha => ?_⟩
  obtain ⟨hadd, hadd'⟩ := F32.add_inf_finite s ha
  obtain ⟨hsub, hsub'⟩ := F32.sub_inf_finite s ha
  exact ⟨hadd, hadd', hsub, hsub', (F32.div_inf_finite s ha).2, F32.mul_inf_finite s ha, F32.lt_inf_finite ha⟩

end Sys2Proof
end

section
/-!
SUPPORT. FMOD is exact (spec/00_scope.md rule R15), and what the phase wrap does with every finite phase
(spec/42_generate_sample.md rule R134).
-/

namespace Sys2Proof

/-! ### The exact remainder (R15) -/

/-- Rounding toward zero is the floor of what is not negative and the ceiling of what is. -/
theorem ratTrunc_eq (q : ℚ) : ratTrunc q = if 0 ≤ q then ⌊q⌋ else ⌈q⌉ := by
  have hden : (0 : Int) ≤ q.den := by omega
  split_ifs with h
  · rw [ratTrunc, Rat.floor_def', Int.tdiv_eq_ediv_of_nonneg (Rat.num_nonneg.2 h)]
  · have hnum : 0 ≤ -q.num := by have := Rat.num_neg.2 (not_le.1 h); omega
    rw [ratTrunc, ← neg_neg q.num, Int.neg_tdiv, Int.tdiv_eq_ediv_of_nonneg hnum, ← neg_inj, neg_neg, ← Int.floor_neg,
      Rat.floor_def', Rat.num_neg_eq_neg_num, Rat.den_neg_eq_den]

/-- What `FMOD` takes a value down to, before it is rounded: `x - c * trunc (x / c)`. -/
def fmodRem (x c : ℚ) : ℚ := x - c * ratTrunc (x / c)

theorem fmodRem_nonneg {x c : ℚ} (hc : 0 < c) (hx : 0 ≤ x) : 0 ≤ fmodRem x c ∧ fmodRem x c < c := by
  have hq : 0 ≤ x / c := div_nonneg hx hc.le
  have hfloor := Int.floor_le (x / c)
  have hlt := Int.lt_floor_add_one (x / c)
  rw [le_div_iff₀ hc] at hfloor
  rw [div_lt_iff₀ hc] at hlt
  rw [fmodRem, ratTrunc_eq, if_pos hq]
  constructor <;> linarith

theorem fmodRem_nonpos {x c : ℚ} (hc : 0 < c) (hx : x < 0) : fmodRem x c ≤ 0 ∧ -c < fmodRem x c := by
  have hq : x / c < 0 := div_neg_of_neg_of_pos hx hc
  have hceil := Int.le_ceil (x / c)
  have hlt := Int.ceil_lt_add_one (x / c)
  rw [div_le_iff₀ hc] at hceil
  rw [← sub_lt_iff_lt_add, lt_div_iff₀ hc] at hlt
  rw [fmodRem, ratTrunc_eq, if_neg (not_le.2 hq)]
  constructor <;> linarith

theorem abs_fmodRem_lt {x c : ℚ} (hc : 0 < c) : |fmodRem x c| < c := by
  rw [abs_lt]
  rcases lt_or_ge x 0 with hx | hx
  · have := fmodRem_nonpos hc hx; constructor <;> linarith
  · have := fmodRem_nonneg hc hx; constructor <;> linarith

/-- A value below the divisor is its own remainder. -/
theorem fmodRem_of_lt {x c : ℚ} (h : |x| < c) : fmodRem x c = x := by
  have hc : 0 < c := lt_of_le_of_lt (abs_nonneg x) h
  have h0 : ratTrunc (x / c) = 0 := by
    rw [abs_lt] at h
    rw [ratTrunc_eq]
    split_ifs with hq
    · rw [Int.floor_eq_zero_iff, Set.mem_Ico, div_lt_one hc]; exact ⟨hq, h.2⟩
    · rw [Int.ceil_eq_zero_iff, Set.mem_Ioc, lt_div_iff₀ hc]
      exact ⟨by linarith, (not_le.1 hq).le⟩
  rw [fmodRem, h0]; simp

/-! ### The remainder by `TWO_PI` -/

theorem twoPi_units : c_TWO_PI.units = 13176795 * 2 ^ 128 := by decide +kernel

theorem twoPi_isFinite : c_TWO_PI.isFinite = true := by decide +kernel

theorem twoPi_toRat : c_TWO_PI.toRat = 13176795 * 2 ^ 128 / 2 ^ 149 := by
  rw [F32.toRat_eq, twoPi_units]; norm_num

theorem twoPi_pos : 0 < c_TWO_PI.toRat := by rw [twoPi_toRat]; norm_num

/-- A value whose units lie below `2^151` lies below `TWO_PI`. -/
theorem abs_toRat_lt_twoPi {x : F32} (h : |x.units| < 2 ^ (23 + 128)) : |x.toRat| < c_TWO_PI.toRat := by
  have hu : (|x.units| : ℚ) < 13176795 * 2 ^ 128 := by
    have : |x.units| < 13176795 * 2 ^ 128 := lt_of_lt_of_le h (by norm_num)
    exact_mod_cast this
  rw [F32.toRat_eq, abs_div, abs_of_pos (a := (2 : ℚ) ^ 149) (by positivity), twoPi_toRat]
  exact div_lt_div_of_pos_right hu (by positivity)

/-- The remainder by `TWO_PI` of a whole number of steps of its grid is a whole number of them. -/
theorem fmodRem_twoPi_steps {x : F32} (h : (2 ^ 128 : Int) ∣ x.units) :
    ∃ j : Int, fmodRem x.toRat c_TWO_PI.toRat = j * 2 ^ 128 / 2 ^ 149 := by
  obtain ⟨k, hk⟩ := h
  have hxval : x.toRat = k * 2 ^ 128 / 2 ^ 149 := by rw [F32.toRat_eq, hk]; push_cast; ring
  refine ⟨k - 13176795 * ratTrunc (x.toRat / c_TWO_PI.toRat), ?_⟩
  rw [fmodRem]
  generalize ratTrunc (x.toRat / c_TWO_PI.toRat) = t
  rw [hxval, twoPi_toRat]; push_cast; ring

/-- A nonzero whole number of `TWO_PI`'s steps below `TWO_PI` is a binary32 value. -/
theorem F32.F_twoPi_steps {r : ℚ} {j : Int} (hr : r = j * 2 ^ 128 / 2 ^ 149) (h0 : r ≠ 0)
    (hlt : |r| < c_TWO_PI.toRat) : (F32.F r).isFinite = true ∧ (F32.F r).toRat = r := by
  have habs : |r| = (j.natAbs * 2 ^ 128 : Nat) / 2 ^ 149 := by
    rw [hr, abs_div, abs_mul, abs_of_pos (a := (2 : ℚ) ^ 149) (by positivity),
      abs_of_pos (a := (2 : ℚ) ^ 128) (by positivity), Nat.cast_mul, Nat.cast_natAbs, Int.cast_abs]
    norm_num
  have hjlt : j.natAbs < 13176795 := by
    rw [habs, twoPi_toRat, div_lt_div_iff_of_pos_right (by positivity)] at hlt
    have : j.natAbs * 2 ^ 128 < 13176795 * 2 ^ 128 := by exact_mod_cast hlt
    exact Nat.lt_of_mul_lt_mul_right this
  have hjpos : 0 < j.natAbs := by
    refine Int.natAbs_pos.2 fun hj0 => h0 ?_
    rw [hr, hj0]; simp
  refine F32.F_exact (by omega) habs ?_ ?_
  · calc 2 ^ 23 ≤ 1 * 2 ^ 128 := by norm_num
      _ ≤ _ := Nat.mul_le_mul_right _ hjpos
  · calc j.natAbs * 2 ^ 128 < 13176795 * 2 ^ 128 := Nat.mul_lt_mul_of_pos_right hjlt (by positivity)
      _ < magTop := by decide +kernel

/-- The remainder of a finite value by `TWO_PI` is a binary32 value: FMOD by `TWO_PI` is exact. -/
theorem F32.F_fmodRem_twoPi {x : F32} (hx : x.isFinite = true) (h0 : fmodRem x.toRat c_TWO_PI.toRat ≠ 0) :
    (F32.F (fmodRem x.toRat c_TWO_PI.toRat)).isFinite = true ∧
    (F32.F (fmodRem x.toRat c_TWO_PI.toRat)).toRat = fmodRem x.toRat c_TWO_PI.toRat := by
  rcases F32.units_lt_or_dvd x 128 with hsmall | hdvd
  · rw [fmodRem_of_lt (abs_toRat_lt_twoPi hsmall)] at h0 ⊢
    have hn : x.isNormal = true := by
      rcases (F32.isFinite_iff x).1 hx with ⟨s, rfl⟩ | ⟨s, e, f, rfl⟩
      · simp at h0
      · rfl
    rw [F32.F_toRat hn]
    exact ⟨hx, rfl⟩
  · obtain ⟨j, hj⟩ := fmodRem_twoPi_steps hdvd
    exact F32.F_twoPi_steps hj h0 (abs_fmodRem_lt twoPi_pos)

end Sys2Proof

namespace Sys2Proof.Machine

/-! ### The phase wrap, line by line (R134) -/

theorem fmod_twoPi {x : F32} (hx : x.isFinite = true) : x.fmod c_TWO_PI twoPi_isNormal =
    if fmodRem x.toRat c_TWO_PI.toRat = 0 then .zero x.sign else F32.F (fmodRem x.toRat c_TWO_PI.toRat) := by
  rw [F32.fmod, if_pos hx]; rfl

/-- The last line of the wrap leaves every value without a sign (it turns −0 into +0). -/
theorem wrapZero_of_sign {y : F32} (h : y.sign = false) : wrapZero y = y := by
  unfold wrapZero
  split_ifs with hz
  · obtain ⟨hn, -, hk⟩ := F32.feq_iff.1 hz
    have hz := (F32.isZero_iff_key hn).2 hk
    cases y with
    | zero s => cases s <;> simp_all
    | _ => simp [F32.isZero] at hz
  · rfl

theorem wrap_lines_zero (s : Bool) : wrapZero (wrapTop (wrapNegative (.zero s))) = F32.posZero := by
  revert s; decide +kernel

/-- A rounded remainder in (0, `TWO_PI`) is left alone. -/
theorem wrap_lines_pos {r : ℚ} (hr : 0 < r) (hlt : r < c_TWO_PI.toRat)
    (hy : (F32.F r).isFinite = true ∧ (F32.F r).toRat = r) :
    wrapZero (wrapTop (wrapNegative (F32.F r))) = F32.F r := by
  have hneg : F32.lt (F32.F r) F32.posZero = false := by
    rw [F32.lt_of_finite hy.1 rfl, hy.2, F32.toRat_zero]; simpa using hr.le
  have htop : F32.le c_TWO_PI (F32.F r) = false := by
    rw [F32.le_of_finite twoPi_isFinite hy.1, hy.2]; simpa using hlt
  have hsign : (F32.F r).sign = false := by rw [F32.sign_F]; simpa using hr.le
  simp [wrapNegative, wrapTop, hneg, htop, wrapZero_of_sign hsign]

/-- A rounded remainder in (−`TWO_PI`, 0) is brought up by `TWO_PI`, and to +0 where that rounds up to `TWO_PI`. -/
theorem wrap_lines_neg {r : ℚ} (hr : r < 0) (hlt : -c_TWO_PI.toRat < r)
    (hy : (F32.F r).isFinite = true ∧ (F32.F r).toRat = r) :
    wrapZero (wrapTop (wrapNegative (F32.F r))) =
      if F32.le c_TWO_PI (F32.F (r + c_TWO_PI.toRat)) = true then F32.posZero else F32.F (r + c_TWO_PI.toRat) := by
  have hneg : F32.lt (F32.F r) F32.posZero = true := by
    rw [F32.lt_of_finite hy.1 rfl, hy.2, F32.toRat_zero]; simpa using hr
  have hup : (F32.F r).add c_TWO_PI = F32.F (r + c_TWO_PI.toRat) := by
    rw [F32.add_of_finite hy.1 twoPi_isFinite, hy.2, if_neg (by linarith)]
  have hsign : (F32.F (r + c_TWO_PI.toRat)).sign = false := by
    rw [F32.sign_F]; simp; linarith
  rw [wrapNegative, if_pos hneg, hup, wrapTop]
  split_ifs
  · exact wrapZero_of_sign rfl
  · exact wrapZero_of_sign hsign

/-- The value of the wrap of every finite phase, from its exact remainder. -/
theorem wrap_of_finite {x : F32} (hx : x.isFinite = true) :
    wrap x =
      if 0 ≤ fmodRem x.toRat c_TWO_PI.toRat then F32.F (fmodRem x.toRat c_TWO_PI.toRat)
      else if F32.le c_TWO_PI (F32.F (fmodRem x.toRat c_TWO_PI.toRat + c_TWO_PI.toRat)) = true then F32.posZero
      else F32.F (fmodRem x.toRat c_TWO_PI.toRat + c_TWO_PI.toRat) := by
  have habs := abs_lt.1 (abs_fmodRem_lt (x := x.toRat) twoPi_pos)
  have hexact := F32.F_fmodRem_twoPi hx
  rw [wrap, if_pos hx, fmod_twoPi hx]
  generalize fmodRem x.toRat c_TWO_PI.toRat = r at *
  rcases lt_trichotomy r 0 with hr | rfl | hr
  · rw [if_neg hr.ne, if_neg (not_le.2 hr), wrap_lines_neg hr habs.1 (hexact hr.ne)]
  · rw [if_pos rfl, wrap_lines_zero, if_pos le_rfl, F32.F_zero]
  · rw [if_neg hr.ne', if_pos hr.le, wrap_lines_pos hr habs.2 (hexact hr.ne')]

theorem wrap_of_not_finite {x : F32} (hx : x.isFinite = false) : wrap x = .nan := by simp [wrap, hx]

/-- The rounded remainder of a finite phase has the exact value. -/
theorem toRat_F_fmodRem {x : F32} (hx : x.isFinite = true) :
    (F32.F (fmodRem x.toRat c_TWO_PI.toRat)).isFinite = true ∧
    (F32.F (fmodRem x.toRat c_TWO_PI.toRat)).toRat = fmodRem x.toRat c_TWO_PI.toRat := by
  by_cases h0 : fmodRem x.toRat c_TWO_PI.toRat = 0
  · rw [h0]; simp [F32.isFinite]
  · exact F32.F_fmodRem_twoPi hx h0

/-- The wrap of a finite phase lies in [+0, `TWO_PI`). -/
theorem wrap_inRange {x : F32} (hx : x.isFinite = true) :
    wrap x ≠ .nan ∧ (wrap x).sign = false ∧ F32.lt (wrap x) c_TWO_PI = true := by
  have habs := abs_lt.1 (abs_fmodRem_lt (x := x.toRat) twoPi_pos)
  obtain ⟨hfin, hval⟩ := toRat_F_fmodRem hx
  rw [wrap_of_finite hx]
  generalize fmodRem x.toRat c_TWO_PI.toRat = r at *
  split_ifs with hr htop
  · refine ⟨F32.F_ne_nan r, by rw [F32.sign_F]; simpa using hr, ?_⟩
    rw [F32.lt_of_finite hfin twoPi_isFinite, hval]
    simpa using habs.2
  · exact ⟨by simp, rfl, by decide +kernel⟩
  · have hn := F32.F_ne_nan (r + c_TWO_PI.toRat)
    refine ⟨hn, by rw [F32.sign_F]; simp; linarith, F32.lt_iff.2 ⟨hn, by decide +kernel, ?_⟩⟩
    by_contra hle
    exact htop (F32.le_iff.2 ⟨by decide +kernel, hn, by omega⟩)

/-- A phase in [+0, `TWO_PI`) is finite. -/
theorem isFinite_of_inRange {p : F32} (hs : p.sign = false) (hlt : F32.lt p c_TWO_PI = true) : p.isFinite = true := by
  cases p with
  | nan => simp [F32.lt, F32.isNaN] at hlt
  | inf s =>
    have : s = false := hs
    subst this
    exact absurd hlt (by decide +kernel)
  | _ => rfl

/-- A phase in [+0, `TWO_PI`) is its own wrap. -/
theorem wrap_of_inRange {x : F32} (hs : x.sign = false) (hlt : F32.lt x c_TWO_PI = true) : wrap x = x := by
  have hfin := isFinite_of_inRange hs hlt
  have hpos := F32.toRat_nonneg_of_sign hs
  have hlt' : |x.toRat| < c_TWO_PI.toRat := by
    rw [F32.lt_of_finite hfin twoPi_isFinite, decide_eq_true_iff] at hlt
    rwa [abs_of_nonneg hpos]
  rw [wrap_of_finite hfin, fmodRem_of_lt hlt', if_pos hpos]
  rcases (F32.isFinite_iff x).1 hfin with ⟨s, rfl⟩ | ⟨s, e, f, rfl⟩
  · have : s = false := hs
    subst this
    simp
  · exact F32.F_toRat rfl

/-- One turn above [+0, `TWO_PI`) the remainder is the value less `TWO_PI`. -/
theorem fmodRem_one_turn {x c : ℚ} (hc : 0 < c) (hle : c ≤ x) (hlt : x < 2 * c) : fmodRem x c = x - c := by
  have hfloor : ⌊x / c⌋ = 1 := by
    rw [Int.floor_eq_iff, le_div_iff₀ hc, div_lt_iff₀ hc]
    push_cast
    constructor <;> linarith
  rw [fmodRem, ratTrunc_eq, if_pos (div_nonneg (by linarith) hc.le), hfloor]
  simp

theorem two_mul_twoPi : (c_TWO.mul c_TWO_PI).isFinite = true ∧ (c_TWO.mul c_TWO_PI).toRat = 2 * c_TWO_PI.toRat := by
  decide +kernel

/-- One turn above [+0, `TWO_PI`) the wrap takes off exactly `TWO_PI`. -/
theorem wrap_one_turn {x : F32} (hle : F32.le c_TWO_PI x = true) (hlt : F32.lt x (c_TWO.mul c_TWO_PI) = true) :
    wrap x = F32.F (x.toRat - c_TWO_PI.toRat) ∧ (wrap x).toRat = x.toRat - c_TWO_PI.toRat := by
  have hfin : x.isFinite = true :=
    F32.isFinite_of_between (F32.le_iff.1 hle).2.1 twoPi_isFinite two_mul_twoPi.1 (F32.le_iff.1 hle).2.2
      (F32.lt_iff.1 hlt).2.2.le
  rw [F32.le_of_finite twoPi_isFinite hfin, decide_eq_true_iff] at hle
  rw [F32.lt_of_finite hfin two_mul_twoPi.1, two_mul_twoPi.2, decide_eq_true_iff] at hlt
  have hrem := fmodRem_one_turn twoPi_pos hle hlt
  have hval := (toRat_F_fmodRem hfin).2
  rw [wrap_of_finite hfin, hrem, if_pos (by linarith)]
  rw [hrem] at hval
  exact ⟨rfl, hval⟩

/-! ### The obligations -/

/-- Settles O25, from the range of the wrap of a finite phase. -/
theorem wrapRange : Obligations.WrapRange := by
  intro x
  cases hx : x.isFinite with
  | false => rw [wrap_of_not_finite hx]; exact ⟨.inl rfl, by simp⟩
  | true =>
    obtain ⟨hn, hs, hlt⟩ := wrap_inRange hx
    exact ⟨.inr ⟨hs, hlt⟩, by simp [hn]⟩

/-- Settles O26: the exact remainder decides every clause. -/
theorem wrapExact : Obligations.WrapExact := by
  refine fun x => ⟨wrap_of_inRange, wrap_one_turn, fun hx => ?_⟩
  have hsign : 0 ≤ x.toRat / c_TWO_PI.toRat ↔ 0 ≤ x.toRat := by
    rw [le_div_iff₀ twoPi_pos, zero_mul]
  have hwrap := wrap_of_finite hx
  rw [fmodRem, ratTrunc_eq, if_congr hsign rfl rfl] at hwrap
  exact hwrap

end Sys2Proof.Machine
end

section
/-!
SUPPORT. What a legal configuration gives (spec/00_scope.md rule R6), and the three increments of the envelope
(spec/40_envelope.md rule R100).
-/

namespace Sys2Proof

/-! ### Positive normal values -/

theorem F32.isPositiveNormal_iff {x : F32} : x.isPositiveNormal = true ↔ ∃ e f, x = .norm false e f := by
  cases x with
  | norm s e f => cases s <;> simp [F32.isPositiveNormal]
  | _ => simp [F32.isPositiveNormal]

theorem F32.isNormal_of_positive {x : F32} (h : x.isPositiveNormal = true) : x.isNormal = true := by
  obtain ⟨e, f, rfl⟩ := F32.isPositiveNormal_iff.1 h; rfl

theorem F32.isZero_of_normal {x : F32} (h : x.isNormal = true) : x.isZero = false := by
  cases x <;> simp_all [F32.isNormal, F32.isZero]

theorem F32.sign_of_positive {x : F32} (h : x.isPositiveNormal = true) : x.sign = false := by
  obtain ⟨e, f, rfl⟩ := F32.isPositiveNormal_iff.1 h; rfl

theorem F32.isPositiveNormal_of_sign {x : F32} (hn : x.isNormal = true) (hs : x.sign = false) :
    x.isPositiveNormal = true := by
  cases x with
  | norm s e f => cases s <;> simp_all [F32.isPositiveNormal, F32.sign]
  | _ => simp [F32.isNormal] at hn

/-- A positive normal value is at least the least normal magnitude. -/
theorem F32.le_toRat_of_positive {x : F32} (h : x.isPositiveNormal = true) : 1 / 2 ^ 126 ≤ x.toRat := by
  obtain ⟨e, f, rfl⟩ := F32.isPositiveNormal_iff.1 h
  rw [F32.toRat_eq_key rfl, F32.key_norm', if_neg (by simp), le_div_iff₀ (by positivity)]
  calc (1 / 2 ^ 126 * 2 ^ 149 : ℚ) = (2 ^ 23 : Nat) := by norm_num
    _ ≤ ((2 ^ 23 + f.toNat) * 2 ^ e.val : Nat) := by exact_mod_cast (F32.norm_magnitude e f).1

theorem F32.toRat_pos_of_positive {x : F32} (h : x.isPositiveNormal = true) : 0 < x.toRat :=
  lt_of_lt_of_le (by positivity) (F32.le_toRat_of_positive h)

/-- A normal product of positive normal values is positive. -/
theorem F32.mul_isPositiveNormal {a b : F32} (ha : a.isPositiveNormal = true) (hb : b.isPositiveNormal = true)
    (h : (a.mul b).isNormal = true) : (a.mul b).isPositiveNormal = true := by
  have hna := F32.isNormal_of_positive ha
  have hnb := F32.isNormal_of_positive hb
  have hpos := mul_pos (F32.toRat_pos_of_positive ha) (F32.toRat_pos_of_positive hb)
  refine F32.isPositiveNormal_of_sign h ?_
  rw [F32.mul_of_nonzero (F32.isNormal_isFinite hna) (F32.isNormal_isFinite hnb) (F32.isZero_of_normal hna)
    (F32.isZero_of_normal hnb), F32.sign_F]
  simpa using hpos.le

theorem one_toRat : c_ONE.isFinite = true ∧ c_ONE.isZero = false ∧ c_ONE.toRat = 1 := by decide +kernel

/-! ### Quotients of a value in [0, 1] -/

/-- A rounded magnitude is positive exactly where it does not flush (R11). -/
theorem F32.lt_zero_F_iff {q : ℚ} (hq : 0 ≤ q) :
    F32.lt (.zero false) (F32.F q) = true ↔ 1 / 2 ^ 126 - 1 / 2 ^ 150 ≤ q := by
  have hz := F32.isZero_F_iff_lt q
  rw [F32.isZero_iff_key (F32.F_ne_nan q), abs_of_nonneg hq, F32.key_F, if_neg (not_lt.2 hq)] at hz
  rw [F32.lt_iff, F32.key_F, if_neg (not_lt.2 hq), ← not_lt, ← hz]
  simp [F32.F_ne_nan, Nat.pos_iff_ne_zero]

/-- A quotient of a value in [0, 1] by a positive normal one is finite and not negative, and positive exactly where
the exact quotient does not flush. -/
theorem F32.div_unit {n p : F32} (hn : n.isFinite = true) (hs : n.sign = false) (h1 : n.toRat ≤ 1)
    (hp : p.isPositiveNormal = true) :
    (n.div p).isFinite = true ∧ (n.div p).sign = false ∧
    (F32.lt (.zero false) (n.div p) = true ↔ 1 / 2 ^ 126 - 1 / 2 ^ 150 ≤ n.toRat / p.toRat) := by
  have hpn := F32.isNormal_of_positive hp
  have hpf := F32.isNormal_isFinite hpn
  have hpz := F32.isZero_of_normal hpn
  have hp0 := F32.toRat_pos_of_positive hp
  cases hz : n.isZero with
  | true =>
    obtain rfl : n = .zero false := by cases n <;> simp_all [F32.isZero, F32.sign]
    rw [(F32.div_zero_finite false hpf hpz).2, F32.sign_of_positive hp]
    refine ⟨rfl, rfl, iff_of_false (by decide +kernel) ?_⟩
    simp; norm_num
  | false =>
    have hn0 := F32.toRat_nonneg_of_sign hs
    have hq0 : 0 ≤ n.toRat / p.toRat := div_nonneg hn0 hp0.le
    have hq1 : n.toRat / p.toRat ≤ 2 ^ 126 := by
      have := F32.le_toRat_of_positive hp
      rw [div_le_iff₀ hp0]; linarith
    rw [F32.div_of_nonzero hn hpf hz hpz]
    refine ⟨?_, by rw [F32.sign_F]; simpa using hq0, F32.lt_zero_F_iff hq0⟩
    by_contra hfin
    have := (F32.isInfinite_F_iff _).1 ((F32.isInfinite_iff_not_finite (F32.F_ne_nan _)).2 hfin)
    rw [abs_of_nonneg hq0] at this
    linarith

end Sys2Proof

namespace Sys2Proof.Machine

/-! ### A legal configuration (R6) -/

/-- What legality says of an envelope time. -/
def LegalTime (sr t : F32) : Prop := t.isPositiveNormal = true ∧ (t.mul sr).isNormal = true

theorem legal_iff {p : Params} : p.legal = true ↔
    p.sr.isPositiveNormal = true ∧ LegalTime p.sr p.attackS ∧ LegalTime p.sr p.decayS ∧ LegalTime p.sr p.releaseS ∧
    inUnit p.sustain := by
  simp only [Params.legal, LegalTime, inUnit, Bool.and_eq_true]
  tauto

/-- The product of an envelope time and the sample rate. -/
theorem LegalTime.product {sr t : F32} (hsr : sr.isPositiveNormal = true) (ht : LegalTime sr t) :
    (t.mul sr).isPositiveNormal = true := F32.mul_isPositiveNormal ht.1 hsr ht.2

/-- What lies in [0, 1] by the comparisons is finite with an exact value in [0, 1]. -/
theorem inUnit_iff {x : F32} : inUnit x ↔ x.isFinite = true ∧ 0 ≤ x.toRat ∧ x.toRat ≤ 1 := by
  have hone := one_toRat
  constructor
  · rintro ⟨h0, h1⟩
    have hfin := F32.isFinite_of_between (F32.le_iff.1 h0).2.1 rfl hone.1 (F32.le_iff.1 h0).2.2 (F32.le_iff.1 h1).2.2
    rw [F32.le_of_finite rfl hfin, F32.toRat_zero, decide_eq_true_iff] at h0
    rw [F32.le_of_finite hfin hone.1, hone.2.2, decide_eq_true_iff] at h1
    exact ⟨hfin, h0, h1⟩
  · rintro ⟨hfin, h0, h1⟩
    rw [inUnit, F32.le_of_finite rfl hfin, F32.le_of_finite hfin hone.1, hone.2.2, F32.toRat_zero]
    simp [h0, h1]

/-! ### The increments (R100) -/

/-- A reciprocal is positive exactly where its divisor is at most `2^126`; above it the quotient flushes. -/
theorem reciprocal_not_flushed_iff {p : F32} (hp : p.isPositiveNormal = true) :
    1 / 2 ^ 126 - 1 / 2 ^ 150 ≤ c_ONE.toRat / p.toRat ↔ F32.le p (F32.F (2 ^ 126)) = true := by
  have hb : (F32.F (2 ^ 126)).isFinite = true ∧ (F32.F (2 ^ 126)).toRat = 2 ^ 126 := by decide +kernel
  have hp0 := F32.toRat_pos_of_positive hp
  rw [F32.le_of_finite (F32.isNormal_isFinite (F32.isNormal_of_positive hp)) hb.1, hb.2, decide_eq_true_iff,
    one_toRat.2.2, le_div_iff₀ hp0]
  refine ⟨?_, fun h => by linarith⟩
  contrapose!
  intro h
  have hstep : 2 ^ 126 + 2 ^ 103 ≤ p.toRat := by
    have hu : (2 ^ 126 * 2 ^ 149 : Int) < p.units := by
      rw [F32.toRat_eq, lt_div_iff₀ (by positivity)] at h
      exact_mod_cast h
    have hge : ((2 ^ 126 + 2 ^ 103) * 2 ^ 149 : Int) ≤ p.units := by
      rcases F32.units_lt_or_dvd p 252 with hlt | ⟨k, hk⟩
      · have := lt_of_le_of_lt (le_abs_self _) hlt
        rw [pow_add] at this
        omega
      · omega
    rw [F32.toRat_eq, le_div_iff₀ (by positivity)]
    exact_mod_cast hge
  linarith

/-- Below 1 a value lies at least `2^-24` below it. -/
theorem one_sub_ge {x : F32} (h : x.toRat < 1) : 1 / 2 ^ 24 ≤ 1 - x.toRat := by
  have hu : x.units < 2 ^ 149 := by
    rw [F32.toRat_eq, div_lt_one (by positivity)] at h
    exact_mod_cast h
  have hle : x.units ≤ 2 ^ 149 - 2 ^ 125 := by
    rcases F32.units_lt_or_dvd x 125 with hlt | ⟨k, hk⟩
    · have := lt_of_le_of_lt (le_abs_self _) hlt
      omega
    · omega
  have hr : x.toRat ≤ (2 ^ 149 - 2 ^ 125) / 2 ^ 149 := by
    rw [F32.toRat_eq, div_le_div_iff_of_pos_right (by positivity)]
    exact_mod_cast hle
  linarith

/-- `ONE ⊖ x` for `x` in [0, 1]. -/
theorem one_sub_unit {x : F32} (hx : inUnit x) :
    (c_ONE.sub x).isFinite = true ∧ (c_ONE.sub x).sign = false ∧ (c_ONE.sub x).toRat ≤ 1 ∧
    (F32.feq x c_ONE = true ↔ c_ONE.sub x = .zero false) := by
  obtain ⟨hfin, h0, h1⟩ := inUnit_iff.1 hx
  have hone := one_toRat
  have hne : c_ONE ≠ .zero true := by decide +kernel
  rw [F32.sub_of_finite hone.1 hfin, F32.feq_of_finite hfin hone.1, decide_eq_true_iff, hone.2.2]
  rcases h1.lt_or_eq with hlt | heq
  · have hgap := one_sub_ge hlt
    have hpos : 0 < 1 - x.toRat := by linarith
    have hFin : (F32.F (1 - x.toRat)).isFinite = true ∧ (F32.F (1 - x.toRat)).toRat ≤ 1 := by
      have hk := F32.key_F_le (x := 1 - x.toRat) hone.1 (by rw [hone.2.2]; linarith)
      have hf := F32.isFinite_of_between (F32.F_ne_nan _) (a := .zero false) rfl hone.1
        (F32.le_key_F rfl (by rw [F32.toRat_zero]; linarith)) hk
      exact ⟨hf, by rw [← hone.2.2]; exact (F32.toRat_le_iff hf hone.1).2 hk⟩
    rw [if_neg hpos.ne']
    refine ⟨hFin.1, by rw [F32.sign_F]; simpa using hpos.le, hFin.2, iff_of_false hlt.ne fun hz => ?_⟩
    have := (F32.isZero_F_iff_lt _).1 (by rw [hz]; rfl : (F32.F (1 - x.toRat)).isZero = true)
    rw [abs_of_pos hpos] at this
    linarith
  · simp [heq, hne, F32.isFinite]

/-- An increment `ONE ⊘ (t ⊗ SR)` (R100). -/
theorem reciprocal_spec {sr t : F32} (hsr : sr.isPositiveNormal = true) (ht : LegalTime sr t) :
    (c_ONE.div (t.mul sr)).isFinite = true ∧ (c_ONE.div (t.mul sr)).sign = false ∧
    (F32.lt (.zero false) (c_ONE.div (t.mul sr)) = true ↔ F32.le (t.mul sr) (F32.F (2 ^ 126)) = true) := by
  have hp := ht.product hsr
  obtain ⟨hfin, hs, hlt⟩ := F32.div_unit one_toRat.1 (by decide +kernel) one_toRat.2.2.le hp
  exact ⟨hfin, hs, hlt.trans (reciprocal_not_flushed_iff hp)⟩

/-- The three increments are finite and not negative. -/
theorem increments_finite {cfg : Cfg} (h : cfg.toParams.legal = true) :
    ∀ x ∈ [atkInc cfg, decInc cfg, relK cfg], x.isFinite = true ∧ x.sign = false := by
  obtain ⟨hsr, hatk, hdec, hrel, hsus⟩ := legal_iff.1 h
  obtain ⟨hafin, has, -⟩ := reciprocal_spec hsr hatk
  obtain ⟨hrfin, hrs, -⟩ := reciprocal_spec hsr hrel
  obtain ⟨hfin, hs, h1, -⟩ := one_sub_unit hsus
  obtain ⟨hdfin, hds, -⟩ := F32.div_unit hfin hs h1 (hdec.product hsr)
  simp only [List.mem_cons, List.not_mem_nil, or_false]
  rintro x (rfl | rfl | rfl)
  · exact ⟨hafin, has⟩
  · exact ⟨hdfin, hds⟩
  · exact ⟨hrfin, hrs⟩

/-- Settles O16: each increment is a quotient of a value in [0, 1] by a positive normal product. -/
theorem incrementsAreFinite : Obligations.IncrementsAreFinite := by
  intro cfg h
  obtain ⟨hsr, hatk, hdec, hrel, hsus⟩ := legal_iff.1 h
  obtain ⟨hfin, hs, h1, hone⟩ := one_sub_unit hsus
  have hp := hdec.product hsr
  have hpn := F32.isNormal_of_positive hp
  refine ⟨increments_finite h, hone, fun heq => ?_, (F32.div_unit hfin hs h1 hp).2.2, (reciprocal_spec hsr hatk).2.2,
    (reciprocal_spec hsr hrel).2.2⟩
  rw [decInc, hone.1 heq, (F32.div_zero_finite false (F32.isNormal_isFinite hpn) (F32.isZero_of_normal hpn)).2,
    F32.sign_of_positive hp]
  rfl

end Sys2Proof.Machine
end

section
/-!
SUPPORT. Magnitude bounds through the primitives, and the bounds of spec/42_generate_sample.md rule R149 through a
voice, a TICK and a step.
-/

namespace Sys2Proof.Machine

/-! ### Magnitudes -/

section magnitudes
variable {a b x A B C : F32}

theorem absLe_iff_key : absLe x b ↔ x ≠ .nan ∧ b ≠ .nan ∧ |x.key| ≤ b.key := by
  have hneg : b.neg = .nan ↔ b = .nan := by cases b <;> simp [F32.neg]
  rw [absLe, F32.le_iff, F32.le_iff, F32.key_neg, abs_le, Ne, hneg]
  tauto

theorem absLe_iff (hb : b.isFinite = true) : absLe x b ↔ x.isFinite = true ∧ |x.toRat| ≤ b.toRat := by
  have hbn := F32.isFinite_not_nan hb
  have key : ∀ h : x.isFinite = true, |x.toRat| ≤ b.toRat ↔ |x.key| ≤ b.key := fun h => by
    rw [abs_le, abs_le, ← F32.key_neg, ← F32.toRat_neg, F32.toRat_le_iff (by simpa using hb) h, F32.toRat_le_iff h hb]
  rw [absLe_iff_key]
  constructor
  · rintro ⟨hn, -, hk⟩
    have hfin := F32.isFinite_of_between (a := b.neg) (b := b) hn (by simpa using hb) hb
      (by rw [F32.key_neg]; exact (abs_le.1 hk).1) (abs_le.1 hk).2
    exact ⟨hfin, (key hfin).2 hk⟩
  · rintro ⟨hfin, hle⟩
    exact ⟨F32.isFinite_not_nan hfin, hbn, (key hfin).1 hle⟩

theorem absLe.isFinite (h : absLe x b) (hb : b.isFinite = true) : x.isFinite = true := ((absLe_iff hb).1 h).1

theorem absLe.toRat_le (h : absLe x b) (hb : b.isFinite = true) : |x.toRat| ≤ b.toRat := ((absLe_iff hb).1 h).2

/-- A result whose key is that of a rounded rational keeps every bound the rational keeps. -/
theorem absLe_of_key_F {q : ℚ} (hx : x ≠ .nan ∧ x.key = (F32.F q).key) (hC : C.isFinite = true) (h : |q| ≤ C.toRat) :
    absLe x C := by
  rw [abs_le] at h
  refine absLe_iff_key.2 ⟨hx.1, F32.isFinite_not_nan hC, ?_⟩
  rw [hx.2, abs_le, ← F32.key_neg]
  exact ⟨F32.le_key_F (by simpa using hC) (by rw [F32.toRat_neg]; exact h.1), F32.key_F_le hC h.2⟩

theorem absLe.add (ha : absLe a A) (hb : absLe b B)
    (h : A.isFinite = true ∧ B.isFinite = true ∧ C.isFinite = true ∧ A.toRat + B.toRat ≤ C.toRat) :
    absLe (a.add b) C := by
  obtain ⟨hA, hB, hC, hle⟩ := h
  refine absLe_of_key_F (F32.add_finite (ha.isFinite hA) (hb.isFinite hB)) hC ?_
  have h1 := ha.toRat_le hA
  have h2 := hb.toRat_le hB
  calc |a.toRat + b.toRat| ≤ |a.toRat| + |b.toRat| := abs_add_le _ _
    _ ≤ C.toRat := by linarith

theorem absLe.mul (ha : absLe a A) (hb : absLe b B)
    (h : A.isFinite = true ∧ B.isFinite = true ∧ C.isFinite = true ∧ A.toRat * B.toRat ≤ C.toRat) :
    absLe (a.mul b) C := by
  obtain ⟨hA, hB, hC, hle⟩ := h
  refine absLe_of_key_F (F32.mul_finite (ha.isFinite hA) (hb.isFinite hB)) hC ?_
  rw [abs_mul]
  exact le_trans (mul_le_mul (ha.toRat_le hA) (hb.toRat_le hB) (abs_nonneg _)
    (le_trans (abs_nonneg _) (ha.toRat_le hA))) hle

/-- A quotient by a value of at least 1 is no larger than its dividend's bound. -/
theorem absLe.div_of_one_le (ha : absLe a A) (hA : A.isFinite = true) (hb : b.isNormal = true) (h1 : 1 ≤ b.toRat) :
    absLe (a.div b) A := by
  refine absLe_of_key_F (F32.div_finite (ha.isFinite hA) hb) hA ?_
  rw [abs_div, abs_of_pos (a := b.toRat) (by linarith)]
  exact le_trans (div_le_self (abs_nonneg _) h1) (ha.toRat_le hA)

/-- A positive constant is its own bound. -/
theorem absLe_self (h : x.isPositiveNormal = true) : absLe x x := by
  have hfin := F32.isNormal_isFinite (F32.isNormal_of_positive h)
  rw [absLe_iff hfin, abs_of_pos (F32.toRat_pos_of_positive h)]
  exact ⟨hfin, le_rfl⟩

/-- The exact sum of values within a bound is within the bound times their number. -/
theorem abs_sum_toRat_le {xs : List F32} (h : ∀ x ∈ xs, absLe x B) (hB : B.isFinite = true) :
    |(xs.map F32.toRat).sum| ≤ xs.length * B.toRat := by
  induction xs with
  | nil => simp
  | cons x xs ih =>
    have hx := (h x List.mem_cons_self).toRat_le hB
    have hxs := ih fun y hy => h y (List.mem_cons_of_mem _ hy)
    rw [List.map_cons, List.sum_cons, List.length_cons]
    push_cast
    calc _ ≤ |x.toRat| + |(xs.map F32.toRat).sum| := abs_add_le _ _
      _ ≤ _ := by linarith

/-- FSUM and FMEAN of values within a bound. -/
theorem absLe_sumOver {n : Nat} {xs : List F32} (h : ∀ x ∈ xs, absLe x B) (hB : B.isFinite = true)
    (hC : C.isFinite = true) (hn : 0 < n) (hle : xs.length * B.toRat ≤ C.toRat * n) : absLe (F32.sumOver n xs) C := by
  have hn' : (0 : ℚ) < n := by exact_mod_cast hn
  refine absLe_of_key_F (F32.sumOver_finite fun x hx => (h x hx).isFinite hB) hC ?_
  rw [abs_div, Nat.abs_cast, div_le_iff₀ hn']
  exact le_trans (abs_sum_toRat_le h hB) hle

end magnitudes

theorem absLe_one_of_inUnit {x : F32} (h : inUnit x) : absLe x c_ONE := by
  obtain ⟨hfin, h0, h1⟩ := inUnit_iff.1 h
  rw [absLe_iff one_toRat.1, one_toRat.2.2, abs_of_nonneg h0]
  exact ⟨hfin, h1⟩

/-! ### The envelope keeps the amplitude in [0, 1] (R110) -/

theorem inUnit_iff_key {x : F32} : inUnit x ↔ x ≠ .nan ∧ 0 ≤ x.key ∧ x.key ≤ c_ONE.key := by
  rw [inUnit, F32.le_iff, F32.le_iff, F32.key_zero]
  have h0 : F32.posZero ≠ .nan := by simp
  have h1 : c_ONE ≠ .nan := by decide +kernel
  tauto

theorem inUnit_posZero : inUnit F32.posZero := by unfold inUnit; decide +kernel
theorem inUnit_one : inUnit c_ONE := by unfold inUnit; decide +kernel

/-- An attack step that does not reach 1 stays below it. -/
theorem inUnit_add {a d : F32} (ha : inUnit a) (hd : d.isFinite = true) (hs : d.sign = false)
    (h : F32.le c_ONE (a.add d) = false) : inUnit (a.add d) := by
  obtain ⟨hfin, h0, -⟩ := inUnit_iff.1 ha
  have hn := (F32.add_finite hfin hd).1
  have hlow := F32.le_add_key (c := F32.posZero) hfin hd rfl
    (by rw [F32.toRat_zero]; exact add_nonneg h0 (F32.toRat_nonneg_of_sign hs))
  refine inUnit_iff_key.2 ⟨hn, hlow, ?_⟩
  by_contra hgt
  rw [Bool.eq_false_iff, Ne, F32.le_iff] at h
  exact h ⟨by decide +kernel, hn, by omega⟩

/-- A fall that does not end below 0 ends in [0, 1]. -/
theorem inUnit_sub {a d : F32} (ha : inUnit a) (hd : d.isFinite = true) (h0 : 0 ≤ d.toRat) (h : 0 ≤ (a.sub d).key) :
    inUnit (a.sub d) := by
  obtain ⟨hfin, -, -⟩ := inUnit_iff.1 ha
  have hle := F32.sub_key_le hfin hd hfin (by linarith)
  exact inUnit_iff_key.2 ⟨(F32.sub_finite hfin hd).1, h, hle.trans (inUnit_iff_key.1 ha).2.2⟩

/-- What a release step takes off is finite and not negative. -/
theorem release_fall {a r : F32} (ha : inUnit a) (hr : r.isFinite = true) (hs : r.sign = false) :
    (a.mul r).isFinite = true ∧ 0 ≤ (a.mul r).toRat := by
  obtain ⟨hfin, h0, h1⟩ := inUnit_iff.1 ha
  have hr0 := F32.toRat_nonneg_of_sign hs
  have hlow := F32.le_mul_key (c := F32.posZero) hfin hr rfl (by rw [F32.toRat_zero]; exact mul_nonneg h0 hr0)
  have hup := F32.mul_key_le hfin hr hr (mul_le_of_le_one_left hr0 h1)
  have hf := F32.isFinite_of_between (F32.mul_finite hfin hr).1 rfl hr hlow hup
  exact ⟨hf, by rw [← F32.toRat_zero false, F32.toRat_le_iff rfl hf]; exact hlow⟩

/-- A decay step that does not reach the sustain level stays above it. -/
theorem inUnit_decayStep {a d level : F32} (ha : inUnit a) (hlevel : inUnit level) (hd : d.isFinite = true)
    (hs : d.sign = false) (h : F32.le (a.sub d) level = false) : inUnit (a.sub d) := by
  obtain ⟨hln, hl0, -⟩ := inUnit_iff_key.1 hlevel
  rw [Bool.eq_false_iff, Ne, F32.le_iff] at h
  refine inUnit_sub ha hd (F32.toRat_nonneg_of_sign hs) ?_
  by_contra hneg
  exact h ⟨(F32.sub_finite (inUnit_iff.1 ha).1 hd).1, hln, by omega⟩

/-- A release step that does not fall below the threshold stays at or above it. -/
theorem inUnit_releaseStep {cfg : Cfg} {a : F32} (ha : inUnit a) (hr : (relK cfg).isFinite = true)
    (hs : (relK cfg).sign = false) (h : F32.lt (releaseStep cfg a) c_REL_THRESHOLD = false) :
    inUnit (releaseStep cfg a) := by
  obtain ⟨hffin, hf0⟩ := release_fall ha hr hs
  have hthr : c_REL_THRESHOLD ≠ .nan ∧ 0 < c_REL_THRESHOLD.key := by decide +kernel
  rw [releaseStep] at h ⊢
  rw [Bool.eq_false_iff, Ne, F32.lt_iff] at h
  refine inUnit_sub ha hffin hf0 ?_
  by_contra hneg
  exact h ⟨(F32.sub_finite (inUnit_iff.1 ha).1 hffin).1, hthr.1, by omega⟩

/-- R110: ENV_PROCESS returns and stores an amplitude in [0, 1]. -/
theorem envProcess_inUnit {cfg : Cfg} {v : Voice} (hl : cfg.toParams.legal = true) (hv : inUnit v.envAmp) :
    inUnit (envProcess cfg v).2 ∧ inUnit (envProcess cfg v).1.envAmp := by
  obtain ⟨-, -, -, -, hsus⟩ := legal_iff.1 hl
  have hinc := increments_finite hl
  obtain ⟨hafin, has⟩ := hinc (atkInc cfg) (by simp)
  obtain ⟨hdfin, hds⟩ := hinc (decInc cfg) (by simp)
  obtain ⟨hrfin, hrs⟩ := hinc (relK cfg) (by simp)
  rcases envProcess_cases cfg v with ⟨-, h⟩ | ⟨-, -, h⟩ | ⟨-, hlt, h⟩ | ⟨-, -, h⟩ | ⟨-, hgt, h⟩ | ⟨-, h⟩ |
    ⟨-, -, h⟩ | ⟨-, hge, h⟩ <;> rw [h]
  · exact ⟨inUnit_posZero, hv⟩
  · exact ⟨inUnit_one, inUnit_one⟩
  · exact and_self_iff.2 (inUnit_add hv hafin has hlt)
  · exact ⟨hsus, hsus⟩
  · exact and_self_iff.2 (inUnit_decayStep hv hsus hdfin hds hgt)
  · exact ⟨hsus, hv⟩
  · exact ⟨inUnit_posZero, inUnit_posZero⟩
  · exact and_self_iff.2 (inUnit_releaseStep hv hrfin hrs hge)

/-! ### One voice within the bounds of R149 -/

/-- A phase bound: `TWO_PI` is below 7. -/
theorem absLe_of_phase {p : F32} (hs : p.sign = false) (hlt : F32.lt p c_TWO_PI = true) : absLe p (F32.F 7) := by
  have hfin := isFinite_of_inRange hs hlt
  have h7 : (F32.F 7).isFinite = true ∧ c_TWO_PI.toRat ≤ (F32.F 7).toRat := by decide +kernel
  rw [F32.lt_of_finite hfin twoPi_isFinite, decide_eq_true_iff] at hlt
  rw [absLe_iff h7.1, abs_of_nonneg (F32.toRat_nonneg_of_sign hs)]
  exact ⟨hfin, by linarith [h7.2]⟩

/-- What R149 assumes of the configuration. -/
structure BoundedCfg (cfg : Cfg) : Prop where
  legal : cfg.toParams.legal = true
  sine : SineOk cfg.sin
  rate : F32.le c_ONE cfg.sr = true

/-- The phase of a bounded voice advances to a finite phase in range. -/
theorem nextPhase_inRange {cfg : Cfg} {v : Voice} (hc : BoundedCfg cfg) (hv : VoiceBounded v) :
    (nextPhase cfg v).sign = false ∧ F32.lt (nextPhase cfg v) c_TWO_PI = true := by
  have hn := F32.isNormal_of_positive (legal_iff.1 hc.legal).1
  have h1 : 1 ≤ cfg.sr.toRat := by
    have hsr := hc.rate
    rw [F32.le_of_finite one_toRat.1 (F32.isNormal_isFinite hn), one_toRat.2.2, decide_eq_true_iff] at hsr
    exact hsr
  have hphase : absLe v.phase (F32.F 7) := by
    rcases hv.phaseOk with hnan | ⟨hs, hlt⟩
    · exact absurd hnan (F32.isFinite_not_nan hv.phaseFinite)
    · exact absLe_of_phase hs hlt
  have hturn : absLe (c_TWO_PI.mul v.freq) (F32.F (10 ^ 38)) :=
    (absLe_self (by decide +kernel)).mul hv.freqLe (by decide +kernel)
  have hsum : absLe (v.phase.add (pinc cfg v.freq)) (F32.F (2 * 10 ^ 38)) :=
    hphase.add (hturn.div_of_one_le (by decide +kernel) hn h1) (by decide +kernel)
  exact (wrap_inRange (hsum.isFinite (by decide +kernel))).2

theorem brightness_bound {vel : F32} (h : absLe vel velBound) : absLe (brightness vel) (F32.F (1001 / 2)) :=
  absLe.add (A := F32.F 500) (h.mul (absLe_self (x := c_BR_SCALE) (by decide +kernel)) (by decide +kernel))
    (absLe_self (by decide +kernel)) (by decide +kernel)

/-- The second term of the waveform. -/
theorem secondHarmonic_bound {b s : F32} (hb : absLe b (F32.F (1001 / 2))) (hs : absLe s c_ONE) :
    absLe ((c_H2_GAIN.mul b).mul s) (F32.F 151) :=
  absLe.mul (A := F32.F 151) ((absLe_self (by decide +kernel)).mul hb (by decide +kernel)) hs (by decide +kernel)

/-- The third term of the waveform. -/
theorem thirdHarmonic_bound {b s : F32} (hb : absLe b (F32.F (1001 / 2))) (hs : absLe s c_ONE) :
    absLe ((c_H3_GAIN.mul (b.mul b)).mul s) (F32.F 25051) := by
  have hsq : absLe (b.mul b) (F32.F 250501) := hb.mul hb (by decide +kernel)
  exact absLe.mul (A := F32.F 25051) ((absLe_self (by decide +kernel)).mul hsq (by decide +kernel)) hs
    (by decide +kernel)

/-- A bound on the waveform: 1, and the two harmonics' bounds. -/
def waveBound : F32 := F32.F 25203

theorem waveform_bound {b s1 s2 s3 : F32} (hb : absLe b (F32.F (1001 / 2))) (h1 : absLe s1 c_ONE)
    (h2 : absLe s2 c_ONE) (h3 : absLe s3 c_ONE) : absLe (waveform b s1 s2 s3) waveBound :=
  absLe.add (A := F32.F 152) (h1.add (secondHarmonic_bound hb h2) (by decide +kernel)) (thirdHarmonic_bound hb h3)
    (by decide +kernel)

/-- The waveform of a bounded velocity at a phase in range (R149). -/
theorem voiceWave_bound {cfg : Cfg} {vel p : F32} (hsin : SineOk cfg.sin) (hvel : absLe vel velBound)
    (hs : p.sign = false) (hlt : F32.lt p c_TWO_PI = true) : absLe (voiceWave cfg vel p) waveBound := by
  have hp := absLe_of_phase hs hlt
  have h2 : absLe (c_TWO.mul p) (F32.F 14) := (absLe_self (by decide +kernel)).mul hp (by decide +kernel)
  have h3 : absLe (c_THREE.mul p) (F32.F 21) := (absLe_self (by decide +kernel)).mul hp (by decide +kernel)
  exact waveform_bound (brightness_bound hvel) (hsin.bounded _ (isFinite_of_inRange hs hlt))
    (hsin.bounded _ (h2.isFinite (by decide +kernel))) (hsin.bounded _ (h3.isFinite (by decide +kernel)))

theorem keyScale_bound (k : SlotIndex) : absLe (keyScale k) c_ONE := by
  unfold absLe; revert k; decide +kernel

/-- A bound on every contribution under R149. -/
def contributionBound : F32 := F32.F (2 ^ 25)

theorem voiceOut_bound {cfg : Cfg} {k : SlotIndex} {vel p a : F32} (hsin : SineOk cfg.sin) (hvel : absLe vel velBound)
    (hs : p.sign = false) (hlt : F32.lt p c_TWO_PI = true) (ha : inUnit a) :
    absLe (voiceOut cfg k vel p a) contributionBound := by
  have hgain : absLe (voiceGain k vel a) velBound :=
    absLe.mul (A := velBound) ((absLe_one_of_inUnit ha).mul hvel (by decide +kernel)) (keyScale_bound k)
      (by decide +kernel)
  exact (voiceWave_bound hsin hvel hs hlt).mul hgain (by decide +kernel)

/-- One voice's part of a TICK keeps the voice within the bounds, and bounds its contribution. -/
theorem voiceTick_bounded {cfg : Cfg} {k : SlotIndex} {v v' : Voice} {c : F32} (hc : BoundedCfg cfg)
    (hv : VoiceBounded v) (h : voiceTick cfg k v = some (v', c)) : VoiceBounded v' ∧ absLe c contributionBound := by
  obtain ⟨hs, hlt⟩ := nextPhase_inRange hc hv
  obtain ⟨hret, hamp⟩ := envProcess_inUnit hc.legal hv.ampInUnit
  rcases voiceTick_cases cfg k v with ⟨-, -, h'⟩ | ⟨-, h'⟩
  · rw [h'] at h; cases h
  · rw [h'] at h; cases h
    refine ⟨⟨?_, ?_, hamp, isFinite_of_inRange hs hlt, .inr ⟨hs, hlt⟩⟩, voiceOut_bound hc.sine hv.velLe hs hlt hret⟩
    · rw [envProcess_freq]; exact hv.freqLe
    · rw [envProcess_vel]; exact hv.velLe

/-! ### A TICK within the bounds of R149 -/

section tick
variable {cfg : Cfg} {s : State}

theorem contributions_bounded (hc : BoundedCfg cfg) (hs : s.Bounded) :
    ∀ c ∈ contributions cfg s.slots, absLe c contributionBound := by
  intro c hmem
  rw [contributions_eq, List.mem_filterMap] at hmem
  obtain ⟨k, -, hk⟩ := hmem
  obtain ⟨v, hv, hc'⟩ := Option.bind_eq_some_iff.1 hk
  obtain ⟨⟨v', c'⟩, ht, rfl⟩ := Option.map_eq_some_iff.1 hc'
  exact (voiceTick_bounded hc (hs.voices k v hv) ht).2

theorem contributions_length_le (cfg : Cfg) (s : State) : (contributions cfg s.slots).length ≤ 256 := by
  rw [contributions_eq]
  exact (List.length_filterMap_le ..).trans_eq (List.length_finRange)

/-- A bound on the mixed sample under R149: 256 contributions. -/
def mixBound : F32 := F32.F (2 ^ 33)

theorem mixed_bound (hc : BoundedCfg cfg) (hs : s.Bounded) : absLe (mixed cfg s.slots) mixBound := by
  refine absLe_sumOver (contributions_bounded hc hs) (by decide +kernel) (by decide +kernel) Nat.one_pos ?_
  have hlen : ((contributions cfg s.slots).length : ℚ) ≤ 256 := by exact_mod_cast contributions_length_le cfg s
  have hb : 0 ≤ contributionBound.toRat ∧ 256 * contributionBound.toRat ≤ mixBound.toRat * (1 : Nat) := by
    decide +kernel
  exact le_trans (mul_le_mul_of_nonneg_right hlen hb.1) hb.2

theorem tickBuffer_bounded {m : F32} (hm : absLe m mixBound) (hs : s.Bounded) :
    ∀ x ∈ (tickBuffer s.resBuf m).toList, absLe x bufBound := by
  intro x hx
  rw [tickBuffer, resPush_toList, List.mem_append, List.mem_singleton] at hx
  rcases hx with hx | rfl
  · exact hs.buffer x (List.mem_of_mem_tail hx)
  · exact (absLe_self (by decide +kernel)).mul hm (by decide +kernel)

/-- The mean of a bounded buffer. -/
theorem resMean_bound {buf : Vector F32 resLen} (h : ∀ x ∈ buf.toList, absLe x bufBound) :
    absLe (resMean buf) bufBound :=
  absLe_sumOver h (by decide +kernel) (by decide +kernel) (by simp) (mul_comm _ _).le

/-- The filter output of a TICK (R149). -/
theorem filterOutput_bound (hc : BoundedCfg cfg) (hs : s.Bounded) : absLe (filterOutput cfg s) lpfBound := by
  have hm := mixed_bound hc hs
  have hres : absLe (withResonance s.resBuf (mixed cfg s.slots)) (F32.F (17 * 2 ^ 29)) :=
    hm.add (resMean_bound (tickBuffer_bounded hm hs)) (by decide +kernel)
  have halpha : absLe (c_LPF_ALPHA.mul (withResonance s.resBuf (mixed cfg s.slots))) (F32.F (2 ^ 30)) :=
    (absLe_self (by decide +kernel)).mul hres (by decide +kernel)
  have hbeta : absLe (c_LPF_BETA.mul s.lpfPrev) (F32.F (29 * 2 ^ 29)) :=
    (absLe_self (by decide +kernel)).mul hs.filter (by decide +kernel)
  exact halpha.add hbeta (by decide +kernel)

theorem tickWith_bounded (hc : BoundedCfg cfg) (hs : s.Bounded) : (tickWith cfg s).Bounded where
  voices k v' h := by
    rw [tickWith_slot] at h
    obtain ⟨v, hv, h'⟩ := Option.bind_eq_some_iff.1 h
    obtain ⟨⟨v'', c⟩, ht, rfl⟩ := Option.map_eq_some_iff.1 h'
    exact (voiceTick_bounded hc (hs.voices k v hv) ht).1
  buffer := tickBuffer_bounded (mixed_bound hc hs) hs
  filter := filterOutput_bound hc hs

/-- The sample of a TICK is finite (R149). -/
theorem sampleValue_isFinite (hc : BoundedCfg cfg) (hs : s.Bounded) : (sampleValue cfg s).isFinite = true := by
  have h : absLe (sampleValue cfg s) lpfBound :=
    (absLe_self (by decide +kernel)).mul (filterOutput_bound hc hs) (by decide +kernel)
  exact h.isFinite (by decide +kernel)

end tick

/-! ### Every operation within the bounds of R149 -/

theorem absLe_posZero {b : F32} (h : b.isPositiveNormal = true) : absLe F32.posZero b := by
  rw [absLe_iff (F32.isNormal_isFinite (F32.isNormal_of_positive h)), F32.toRat_zero, abs_zero]
  exact ⟨rfl, (F32.toRat_pos_of_positive h).le⟩

/-- The block's own state decides whether a state is within the bounds. -/
theorem State.Bounded.of_block {s t : State} (h : s.Bounded) (hslots : t.slots = s.slots) (hbuf : t.resBuf = s.resBuf)
    (hlpf : t.lpfPrev = s.lpfPrev) : t.Bounded where
  voices k v hv := h.voices k v (by rw [State.slot, ← hslots]; exact hv)
  buffer := by rw [hbuf]; exact h.buffer
  filter := by rw [hlpf]; exact h.filter

/-- A state without voices, with the buffer and the filter of the reset state. -/
theorem bounded_of_reset {t : State} (hslot : ∀ k, t.slot k = none) (hbuf : t.resBuf = zeroBuffer)
    (hlpf : t.lpfPrev = F32.posZero) : t.Bounded where
  voices k v hv := by rw [hslot] at hv; cases hv
  buffer x hx := by
    rw [hbuf, zeroBuffer, Vector.toList_replicate] at hx
    rw [List.eq_of_mem_replicate hx]
    exact absLe_posZero (by decide +kernel)
  filter := by rw [hlpf]; exact absLe_posZero (by decide +kernel)

theorem setSlot_bounded {s : State} {k : SlotIndex} {w : Option Voice} (hs : s.Bounded)
    (hw : ∀ v, w = some v → VoiceBounded v) : (s.setSlot k w).Bounded where
  voices j v hv := by
    rw [slot_setSlot] at hv
    split_ifs at hv
    · exact hw v hv
    · exact hs.voices j v hv
  buffer := hs.buffer
  filter := hs.filter

theorem envRelease_bounded {v : Voice} (hv : VoiceBounded v) : VoiceBounded (envRelease v) := by
  unfold envRelease
  split_ifs
  · exact hv
  · exact ⟨hv.freqLe, hv.velLe, hv.ampInUnit, hv.phaseFinite, hv.phaseOk⟩

theorem startedVoice_bounded {freq vel : F32} (hfreq : absLe freq freqBound) (hvel : absLe vel velBound) :
    VoiceBounded (envTrigger (newVoice freq vel)) :=
  ⟨hfreq, hvel, inUnit_posZero, rfl, .inr ⟨rfl, (by decide +kernel : F32.lt F32.posZero c_TWO_PI = true)⟩⟩

/-- Every operation within the bounds keeps them (R149). -/
theorem execWith_bounded {cfg : Cfg} {i : Instr} {s t : State} (hc : BoundedCfg cfg) (hi : opBounded i)
    (hs : s.Bounded) (h : execWith cfg i s = .next t) : t.Bounded := by
  cases i with
  | tick => cases h; exact tickWith_bounded hc hs
  | noteOn key freq vel =>
    cases h
    refine setSlot_bounded hs fun v hv => ?_
    cases hv
    exact startedVoice_bounded hi.1 hi.2
  | noteOff key =>
    rw [execWith_of_ne_tick cfg (by simp), exec_noteOff] at h
    cases h
    refine setSlot_bounded hs fun v hv => ?_
    obtain ⟨u, hu, rfl⟩ := Option.map_eq_some_iff.1 hv
    exact envRelease_bounded (hs.voices _ u hu)
  | reset => cases h; exact bounded_of_reset (resetState_slot s) rfl rfl
  | _ => cases h; exact hs

/-! ### Every step within the bounds of R149 -/

/-- No operation touches what the event host holds and presents, under any configuration. -/
theorem execWith_host {cfg : Cfg} {i : Instr} {s t : State} (h : execWith cfg i s = .next t) :
    t.eventPort = s.eventPort ∧ t.arrivals = s.arrivals := by
  by_cases hi : i = .tick
  · subst hi; cases h; exact ⟨rfl, rfl⟩
  · rw [execWith_of_ne_tick cfg hi] at h
    obtain ⟨hport, -, -, harr, -⟩ := exec_ports h
    exact ⟨hport, harr⟩

theorem State.HostBounded.of_host {s t : State} (h : s.HostBounded) (hport : t.eventPort ⊆ s.eventPort)
    (harr : t.arrivals = s.arrivals) : t.HostBounded where
  held w hw := h.held w (hport hw)
  later := by rw [harr]; exact h.later

/-- A round of arrivals moves words within the bounds from those to come to those held. -/
theorem arrive_hostBounded {s : State} (h : s.HostBounded) : s.arrive.HostBounded where
  held w hw := by
    rw [arrive_eventPort, List.mem_append, List.mem_filterMap] at hw
    rcases hw with hw | ⟨a, ha, hcmd⟩
    · exact h.held w hw
    · cases hr : s.arrivals with
      | nil => rw [hr] at ha; cases ha
      | cons round rest =>
        rw [hr] at ha
        cases a with
        | command w' => cases hcmd; exact h.later round (by rw [hr]; exact List.mem_cons_self) w ha
        | _ => cases hcmd
  later round hr := by
    rw [arrive_arrivals] at hr
    exact h.later round (List.mem_of_mem_tail hr)

/-- A grant takes a request within the bounds, and leaves the other words held. -/
theorem grant_hostBounded {s : State} (h : s.HostBounded) :
    s.grant.2.HostBounded ∧ ∀ r, s.grant.1 = some r → opBounded (decode r) := by
  rcases grant_cases s with ⟨-, hg⟩ | ⟨-, -, -, hg⟩ | ⟨-, w, ws, d, he, hg, -⟩ | ⟨-, n, d, -, hg, -⟩ <;> rw [hg]
  · exact ⟨h, fun r hr => by cases hr; trivial⟩
  · exact ⟨h, fun r hr => by cases hr⟩
  · refine ⟨h.of_host ?_ rfl, fun r hr => ?_⟩
    · rw [he]; exact List.subset_cons_self w ws
    · cases hr; exact h.held w (by rw [he]; exact List.mem_cons_self)
  · exact ⟨h.of_host (List.Subset.refl _) rfl, fun r hr => by cases hr; trivial⟩

theorem grant_bounded {s : State} (h : s.Bounded) : s.grant.2.Bounded := by
  obtain ⟨hslots, hbuf, hlpf⟩ := grant_block s
  exact h.of_block hslots hbuf hlpf

theorem arrive_bounded {s : State} (h : s.Bounded) : s.arrive.Bounded :=
  h.of_block (arrive_slots s) (arrive_resBuf s) (arrive_lpfPrev s)

/-- Every step keeps the bounds, of the block and of the event host (R149). -/
theorem stepWith_bounded {cfg : Cfg} {s t : State} (hc : BoundedCfg cfg) (hs : s.Bounded) (hh : s.HostBounded)
    (h : stepWith cfg s = .next t) : t.Bounded ∧ t.HostBounded := by
  obtain ⟨hgh, hop⟩ := grant_hostBounded hh
  have hgb := grant_bounded hs
  rcases stepWith_cases cfg s with ⟨-, hstep⟩ | ⟨r, u, hr, hexec, hstep⟩ <;> rw [hstep] at h <;> cases h
  · exact ⟨arrive_bounded hgb, arrive_hostBounded hgh⟩
  · obtain ⟨hport, harr⟩ := execWith_host hexec
    have hu : u.HostBounded := hgh.of_host (by rw [hport]; exact List.Subset.refl _) harr
    exact ⟨arrive_bounded (execWith_bounded hc (hop r hr) hgb hexec), arrive_hostBounded hu⟩

theorem step_eq_stepWith (s : State) : step s = stepWith Config.cfg s := by
  unfold step stepWith
  rcases s.grant with ⟨_ | r, u⟩
  · rfl
  · exact congrArg thenArrive (exec_eq_execWith (decode r) u)

/-! ### The obligations -/

/-- Settles O43: a grant, an operation and a round of arrivals each keep the bounds. -/
theorem stepKeepsBounds : Obligations.StepKeepsBounds :=
  ⟨step_eq_stepWith, fun _ _ _ hl hsin hsr hs hh h => stepWith_bounded ⟨hl, hsin, hsr⟩ hs hh h⟩

/-- The bound on the waveform is within the one of R149. -/
theorem waveBound_le : waveBound.isFinite = true ∧ waveBound.toRat ≤ 1 + 3 / 10 * 501 + 1 / 10 * 501 ^ 2 := by
  decide +kernel

/-- Settles O42: each operation keeps the bounds, and in a TICK every value on the way has one. -/
theorem boundedInputsStayFinite : Obligations.BoundedInputsStayFinite := by
  refine ⟨bounded_of_reset reset_slot rfl rfl, fun cfg i s hl hsin hsr hi hs => ?_⟩
  have hc : BoundedCfg cfg := ⟨hl, hsin, hsr⟩
  obtain ⟨t, ht⟩ := execWith_next cfg i s
  have hb := execWith_bounded hc hi hs ht
  refine ⟨t, ht, hb, fun k v hv => (hb.voices k v hv).phaseFinite,
    fun x hx => (hb.buffer x hx).isFinite (by decide +kernel), hb.filter.isFinite (by decide +kernel), ?_⟩
  rintro rfl
  cases ht
  refine ⟨fun k v hv => ?_, fun c hmem => (contributions_bounded hc hs c hmem).isFinite (by decide +kernel),
    (mixed_bound hc hs).isFinite (by decide +kernel), _, rfl, ?_⟩
  · obtain ⟨hsign, hlt⟩ := nextPhase_inRange hc (hs.voices k v hv)
    have hw := voiceWave_bound hsin (hs.voices k v hv).velLe hsign hlt
    exact ⟨hw.isFinite waveBound_le.1, (hw.toRat_le waveBound_le.1).trans waveBound_le.2⟩
  · have hfin := sampleValue_isFinite hc hs
    rwa [ofBits_sampleWord]

end Sys2Proof.Machine
end

section
/-!
SUPPORT. The sums rounded once (spec/00_scope.md rule R16), and the mix of two voices
(spec/42_generate_sample.md rule R150).
-/

namespace Sys2Proof

/-! ### The cases of FSUM and FMEAN (R16) -/

section sumOver
variable {n : Nat} {xs : List F32}

theorem any_isNaN_iff : xs.any F32.isNaN = true ↔ F32.nan ∈ xs := by
  simp [List.any_eq_true, F32.isNaN_iff]

theorem F32.isInf_iff {s : Bool} {x : F32} : x.isInf s = true ↔ x = .inf s := by
  cases x <;> simp [F32.isInf]

theorem any_isInf_iff {s : Bool} : xs.any (F32.isInf s) = true ↔ F32.inf s ∈ xs := by
  simp [List.any_eq_true, F32.isInf_iff]

theorem all_isNegZero_iff : xs.all F32.isNegZero = true ↔ ∀ x ∈ xs, x = .zero true := by
  simp [List.all_eq_true, F32.isNegZero_iff]

theorem sumOver_nan (h : F32.nan ∈ xs ∨ F32.inf false ∈ xs ∧ F32.inf true ∈ xs) : F32.sumOver n xs = .nan := by
  rw [F32.sumOver, if_pos]
  simpa only [Bool.or_eq_true, Bool.and_eq_true, any_isNaN_iff, any_isInf_iff] using h

theorem sumOver_inf {neg : Bool} (hn : F32.nan ∉ xs) (hi : F32.inf neg ∈ xs) (ho : F32.inf (!neg) ∉ xs) :
    F32.sumOver n xs = .inf neg := by
  rw [← any_isNaN_iff, Bool.not_eq_true] at hn
  rw [← any_isInf_iff] at hi
  rw [← any_isInf_iff, Bool.not_eq_true] at ho
  cases neg with
  | false =>
    rw [Bool.not_false] at ho
    simp [F32.sumOver, -List.any_eq_true, -List.any_eq_false, hn, hi, ho]
  | true =>
    rw [Bool.not_true] at ho
    simp [F32.sumOver, -List.any_eq_true, -List.any_eq_false, hn, hi, ho]

/-- Over finite values the sum is a zero, of the sign R16 gives it, or the exact sum over `n` rounded once. -/
theorem sumOver_of_finite (h : ∀ x ∈ xs, x.isFinite = true) :
    F32.sumOver n xs =
      if (xs.map F32.toRat).sum = 0 then .zero (!xs.isEmpty && xs.all F32.isNegZero)
      else F32.F ((xs.map F32.toRat).sum / n) := by
  have hnan : xs.any F32.isNaN = false := by
    rw [← Bool.not_eq_true, any_isNaN_iff]
    exact fun hm => F32.isFinite_not_nan (h _ hm) rfl
  have hinf : ∀ s, xs.any (F32.isInf s) = false := by
    intro s
    rw [← Bool.not_eq_true, any_isInf_iff]
    exact fun hm => absurd (h _ hm) (by simp [F32.isFinite])
  simp [F32.sumOver, hnan, hinf, F32.exactSum_eq]

theorem sumOver_negZeros (hne : xs ≠ []) (h : ∀ x ∈ xs, x = .zero true) : F32.sumOver n xs = .zero true := by
  have hsum : (xs.map F32.toRat).sum = 0 := List.sum_eq_zero fun q hq => by
    obtain ⟨x, hx, rfl⟩ := List.mem_map.1 hq
    rw [h x hx, F32.toRat_zero]
  rw [sumOver_of_finite fun x hx => by rw [h x hx]; rfl, if_pos hsum, all_isNegZero_iff.2 h]
  simp [hne]

theorem sumOver_zero (h : ∀ x ∈ xs, x.isFinite = true) (hsum : (xs.map F32.toRat).sum = 0)
    (hex : xs = [] ∨ ∃ x ∈ xs, x ≠ .zero true) : F32.sumOver n xs = .zero false := by
  rw [sumOver_of_finite h, if_pos hsum]
  rcases hex with rfl | ⟨x, hx, hxne⟩
  · rfl
  · have : xs.all F32.isNegZero = false := by
      rw [← Bool.not_eq_true, all_isNegZero_iff]
      exact fun hall => hxne (hall x hx)
    rw [this, Bool.and_false]

theorem sumOver_nonzero (h : ∀ x ∈ xs, x.isFinite = true) (hsum : (xs.map F32.toRat).sum ≠ 0) :
    F32.sumOver n xs = F32.F ((xs.map F32.toRat).sum / n) := by
  rw [sumOver_of_finite h, if_neg hsum]

/-- A sum does not depend on the order of its elements. -/
theorem sumOver_perm {ys : List F32} (h : xs.Perm ys) : F32.sumOver n xs = F32.sumOver n ys := by
  have hany : ∀ p, xs.any p = ys.any p := fun p => h.any_eq
  have hall : xs.all F32.isNegZero = ys.all F32.isNegZero := h.all_eq
  have hsum : F32.exactSum xs = F32.exactSum ys := by
    rw [F32.exactSum_eq, F32.exactSum_eq, (h.map F32.toRat).sum_eq]
  rw [F32.sumOver, F32.sumOver, hany, hany, hany, hall, hsum, h.isEmpty_eq]

end sumOver

/-- Settles O31: every test and the exact sum are the same for a permutation. -/
theorem sumsDoNotDependOnOrder : Obligations.SumsDoNotDependOnOrder :=
  fun xs ys h => ⟨sumOver_perm h, fun _ _ => by rw [F32.fmean, F32.fmean, h.length_eq, sumOver_perm h]⟩

/-- Settles O32, a clause for each case of the sum. -/
theorem sumsAreRoundedOnce : Obligations.SumsAreRoundedOnce := by
  refine ⟨fun xs => ?_, fun buf => ⟨fun _ => rfl, fun hfin hsum => ?_⟩⟩
  · refine ⟨fun h => ⟨sumOver_nan h, fun _ => sumOver_nan h⟩,
      fun neg hn hi ho => ⟨sumOver_inf hn hi ho, fun _ => sumOver_inf hn hi ho⟩,
      fun hne h => ⟨sumOver_negZeros hne h, fun _ => sumOver_negZeros hne h⟩,
      fun hfin h0 hex => ⟨sumOver_zero hfin h0 hex, fun _ => sumOver_zero hfin h0 hex⟩,
      fun hfin h0 => ⟨?_, fun _ => sumOver_nonzero hfin h0⟩⟩
    rw [F32.fsum, sumOver_nonzero hfin h0, Nat.cast_one, div_one]
  · rw [Machine.resMean, F32.fmean, sumOver_nonzero hfin hsum, Vector.length_toList]
    rfl

/-- The sum of two finite values. -/
theorem fsum_pair {a b : F32} (ha : a.isFinite = true) (hb : b.isFinite = true) :
    F32.fsum [a, b] = if a = .zero true ∧ b = .zero true then .zero true else F32.F (a.toRat + b.toRat) := by
  have hfin : ∀ x ∈ [a, b], x.isFinite = true := by simp [ha, hb]
  have hsum : ([a, b].map F32.toRat).sum = a.toRat + b.toRat := by simp
  split_ifs with hz
  · exact sumOver_negZeros (by simp) (by simpa using hz)
  · by_cases h0 : a.toRat + b.toRat = 0
    · rw [h0, F32.F_zero]
      refine sumOver_zero hfin (hsum.trans h0) (.inr ?_)
      by_contra hall
      push Not at hall
      exact hz ⟨hall a (by simp), hall b (by simp)⟩
    · rw [F32.fsum, sumOver_nonzero hfin (by rwa [hsum]), hsum, Nat.cast_one, div_one]

/-! ### The constants (R7) -/

/-- The nearest twenty-digit decimals around the real `2π` both round to `TWO_PI`. -/
theorem F_twoPi_bounds :
    F32.F (2 * 3.14159265358979323846) = c_TWO_PI ∧ F32.F (2 * 3.14159265358979323847) = c_TWO_PI := by
  decide +kernel

/-- Settles O30: each constant is evaluated, and `2π` lies between two decimals that round alike. -/
theorem constantsAreRoundedLiterals : Obligations.ConstantsAreRoundedLiterals := by
  refine ⟨by decide +kernel, by decide +kernel, by decide +kernel, _, _, ?_, ?_, F_twoPi_bounds.1, F_twoPi_bounds.2⟩
  · push_cast; linarith [Real.pi_gt_d20]
  · push_cast; linarith [Real.pi_lt_d20]

end Sys2Proof

namespace Sys2Proof.Machine

/-! ### Two voices (R150) -/

/-- Of an increasing list, a partial function defined at exactly two elements gives their values in order. -/
theorem filterMap_of_two {α : Type} {n : Nat} {f : Fin n → Option α} {j k : Fin n} {a b : α} (hjk : j < k)
    (hj : f j = some a) (hk : f k = some b) (hrest : ∀ i, i ≠ j → i ≠ k → f i = none) :
    (List.finRange n).filterMap f = [a, b] := by
  have hsorted := List.pairwise_lt_finRange n
  obtain ⟨l1, l2, hl⟩ := List.append_of_mem (List.mem_finRange j)
  rw [hl, List.pairwise_append, List.pairwise_cons] at hsorted
  obtain ⟨-, ⟨hafter, hs2⟩, hbefore⟩ := hsorted
  have hk2 : k ∈ l2 := by
    have hmem : k ∈ l1 ++ j :: l2 := hl ▸ List.mem_finRange k
    rcases List.mem_append.1 hmem with h1 | h2
    · exact absurd (hbefore k h1 j List.mem_cons_self) (by omega)
    · exact (List.mem_cons.1 h2).resolve_left (by omega)
  obtain ⟨l3, l4, rfl⟩ := List.append_of_mem hk2
  rw [List.pairwise_append, List.pairwise_cons] at hs2
  obtain ⟨-, ⟨hafterk, -⟩, hbeforek⟩ := hs2
  have hnone : ∀ l : List (Fin n), (∀ i ∈ l, i ≠ j ∧ i ≠ k) → l.filterMap f = [] := fun l h =>
    List.filterMap_eq_nil_iff.2 fun i hi => hrest i (h i hi).1 (h i hi).2
  have h1 := hnone l1 fun i hi => by
    have := hbefore i hi j List.mem_cons_self
    omega
  have h3 := hnone l3 fun i hi => by
    have := hafter i (List.mem_append_left _ hi)
    have := hbeforek i hi k List.mem_cons_self
    omega
  have h4 := hnone l4 fun i hi => by
    have := hafterk i hi
    omega
  simp [hl, h1, h3, h4, hj, hk]

/-- The contributions of exactly two voices. -/
theorem contributions_of_two {cfg : Cfg} {s : State} {j k : SlotIndex} {v1 v2 v1' v2' : Voice} {c1 c2 : F32}
    (hjk : j < k) (h1 : s.slot j = some v1) (h2 : s.slot k = some v2)
    (hrest : ∀ i, i ≠ j → i ≠ k → s.slot i = none) (ht1 : voiceTick cfg j v1 = some (v1', c1))
    (ht2 : voiceTick cfg k v2 = some (v2', c2)) : contributions cfg s.slots = [c1, c2] := by
  rw [contributions_eq]
  refine filterMap_of_two hjk ?_ ?_ fun i hij hik => ?_
  · rw [h1]; simp [ht1]
  · rw [h2]; simp [ht2]
  · rw [hrest i hij hik]; rfl

/-- Settles O24: the two contributions are the whole sum, and the shared stages act on it by definition. -/
theorem twoVoicesSuperpose : Obligations.TwoVoicesSuperpose := by
  intro cfg s j k v1 v2 v1' v2' c1 c2 hjk h1 h2 hrest ht1 ht2 hf1 hf2
  have hmix : mixed cfg s.slots =
      if c1 = .zero true ∧ c2 = .zero true then .zero true else F32.F (c1.toRat + c2.toRat) := by
    rw [mixed, contributions_of_two hjk h1 h2 hrest ht1 ht2, fsum_pair hf1 hf2]
  intro m t
  have hm : mixed cfg s.slots = m := hmix
  have hbuf : t.resBuf = tickBuffer s.resBuf m := by rw [← hm]; rfl
  refine ⟨hm, by rw [hbuf]; rfl, ?_, rfl⟩
  rw [hbuf, ← hm]; rfl

end Sys2Proof.Machine
end

section
/-!
SUPPORT. What may write a slot (spec/10_state.md rules R22 to R27), how many slots are valid (R31), and the invariants of
valid slots (R36).
-/

namespace Sys2Proof.Machine

/-! ### What an operation does to one slot -/

/-- Everything an operation can do to slot `k`: start a voice, release it, advance or remove it, clear it, or leave it. -/
theorem exec_slot {i : Instr} {s t : State} (h : exec i s = .next t) (k : SlotIndex) :
    (∃ key freq vel, i = .noteOn key freq vel ∧ slotIndex key = k ∧
      t.slot k = some (envTrigger (newVoice freq vel))) ∨
    (∃ key, i = .noteOff key ∧ slotIndex key = k ∧ t.slot k = (s.slot k).map envRelease) ∨
    (i = .tick ∧ t.slot k = (s.slot k).bind fun v => (voiceTick Config.cfg k v).map Prod.fst) ∨
    (i = .reset ∧ t.slot k = none) ∨
    (i ≠ .tick ∧ i ≠ .reset ∧ t.slot k = s.slot k) := by
  cases i with
  | noteOn key freq vel =>
    cases h
    by_cases hk : k = slotIndex key
    · exact .inl ⟨key, freq, vel, rfl, hk.symm, by rw [hk, slot_setSlot_same]⟩
    · exact .inr (.inr (.inr (.inr ⟨by simp, by simp, slot_setSlot_of_ne _ _ _ hk⟩)))
  | noteOff key =>
    rw [exec_noteOff] at h
    cases h
    by_cases hk : k = slotIndex key
    · exact .inr (.inl ⟨key, rfl, hk.symm, by rw [hk, slot_setSlot_same]⟩)
    · exact .inr (.inr (.inr (.inr ⟨by simp, by simp, slot_setSlot_of_ne _ _ _ hk⟩)))
  | tick => cases h; exact .inr (.inr (.inl ⟨rfl, tickWith_slot ..⟩))
  | reset => cases h; exact .inr (.inr (.inr (.inl ⟨rfl, resetState_slot ..⟩)))
  | _ => cases h; exact .inr (.inr (.inr (.inr ⟨by simp, by simp, rfl⟩)))

/-- ENV_RELEASE writes the envelope's state and no other field (R102). -/
theorem envRelease_fields (v : Voice) :
    (envRelease v).freq = v.freq ∧ (envRelease v).vel = v.vel ∧ (envRelease v).phase = v.phase ∧
    (envRelease v).envAmp = v.envAmp := by
  unfold envRelease
  split_ifs <;> exact ⟨rfl, rfl, rfl, rfl⟩

/-- A voice that a TICK keeps: the envelope has stepped and the phase has advanced (R131, R133). -/
theorem voiceTick_kept {cfg : Cfg} {k : SlotIndex} {v v' : Voice}
    (h : (voiceTick cfg k v).map Prod.fst = some v') :
    v' = { (envProcess cfg v).1 with phase := nextPhase cfg v } ∧
    ¬ (F32.feq (envProcess cfg v).2 F32.posZero = true ∧ (envProcess cfg v).1.envState = .idle) := by
  rcases voiceTick_cases cfg k v with ⟨-, -, ht⟩ | ⟨hstay, ht⟩ <;> rw [ht] at h <;> cases h
  exact ⟨rfl, hstay⟩

/-! ### The number of valid slots (R31) -/

theorem validCount_of_noVoices {s : State} (h : ∀ k, s.slot k = none) : s.validCount = 0 := by
  simp [validCount_eq, h]

theorem reset_voiceCount : State.reset.voiceCount = 0#9 := by
  rw [State.voiceCount, validCount_of_noVoices reset_slot]

/-- Of the valid slots before a TICK, the marked ones are those that are not valid after it (R130, R142). -/
theorem tickWith_validCount (cfg : Cfg) (s : State) :
    (tickWith cfg s).validCount +
      (List.finRange numSlots).countP (fun k => (s.slot k).any fun v => (voiceTick cfg k v).isNone) =
    s.validCount := by
  rw [validCount_eq, validCount_eq s,
    List.countP_eq_countP_filter_add _ (fun k => (s.slot k).isSome)
      (fun k => (s.slot k).any fun v => (voiceTick cfg k v).isNone),
    List.countP_filter, List.countP_filter, add_comm]
  congr 1
  · refine List.countP_congr fun k _ => ?_
    cases s.slot k <;> simp
  · refine List.countP_congr fun k _ => ?_
    rw [tickWith_slot]
    cases s.slot k with
    | none => simp
    | some v => cases h : voiceTick cfg k v <;> simp [h]

/-- A command of the event port raises the number of valid slots by one or leaves it (R120 to R122). -/
theorem validCount_of_command {i : Instr} {s t : State} (h : exec i s = .next t) (htick : i ≠ .tick)
    (hreset : i ≠ .reset) : t.validCount = s.validCount ∨ t.validCount = s.validCount + 1 := by
  cases i with
  | noteOn key freq vel =>
    cases h
    have hset := validCount_setSlot s (slotIndex key) (some (envTrigger (newVoice freq vel)))
    rw [Option.isSome_some, if_pos rfl] at hset
    split_ifs at hset <;> omega
  | noteOff key =>
    rw [exec_noteOff] at h
    cases h
    have hset := validCount_setSlot s (slotIndex key) ((s.slot (slotIndex key)).map envRelease)
    rw [Option.isSome_map] at hset
    exact .inl (Nat.add_right_cancel hset)
  | tick => exact absurd rfl htick
  | reset => exact absurd rfl hreset
  | _ => cases h; exact .inl rfl

/-! ### The invariants of a valid slot (R36) -/

/-- After ENV_PROCESS a voice that was not in IDLE is marked, or it is not in IDLE and holds the sustain level if it is in
SUSTAIN (R109, R131). -/
theorem envProcess_ok {cfg : Cfg} {v : Voice} (h0 : v.envState ≠ .idle)
    (hs : v.envState = .sustain → v.envAmp = cfg.sustain) :
    (F32.feq (envProcess cfg v).2 F32.posZero = true ∧ (envProcess cfg v).1.envState = .idle) ∨
    ((envProcess cfg v).1.envState ≠ .idle ∧
      ((envProcess cfg v).1.envState = .sustain → (envProcess cfg v).1.envAmp = cfg.sustain)) := by
  rcases envProcess_cases cfg v with ⟨e, h⟩ | ⟨_, _, h⟩ | ⟨e, _, h⟩ | ⟨_, _, h⟩ | ⟨e, _, h⟩ | ⟨e, h⟩ | ⟨_, _, h⟩ |
    ⟨e, _, h⟩ <;> rw [h]
  · exact absurd e h0
  · right; simp
  · right; simp [e]
  · right; simp
  · right; simp [e]
  · exact .inr ⟨h0, hs⟩
  · exact .inl ⟨(by decide +kernel : F32.feq F32.posZero F32.posZero = true), rfl⟩
  · right; simp [e]

/-- WRAP gives a phase in range, or NaN where its argument is not finite (R134). -/
theorem wrap_phaseInRange (x : F32) : phaseInRange (wrap x) := by
  cases hx : x.isFinite with
  | true => exact .inr (wrap_inRange hx).2
  | false => exact .inl (wrap_of_not_finite hx)

/-- A TICK keeps the invariants of a voice that stays. -/
theorem voiceTick_ok {cfg : Cfg} {k : SlotIndex} {v v' : Voice} (hl : cfg.toParams.legal = true) (hv : VoiceOk cfg v)
    (h : (voiceTick cfg k v).map Prod.fst = some v') : VoiceOk cfg v' := by
  obtain ⟨rfl, hstay⟩ := voiceTick_kept h
  obtain ⟨hidle, hsus⟩ := (envProcess_ok hv.notIdle hv.sustained).resolve_left hstay
  exact ⟨hidle, (envProcess_inUnit hl hv.ampInUnit).2, hsus, wrap_phaseInRange _⟩

/-- ENV_RELEASE keeps the invariants of a voice. -/
theorem envRelease_ok {cfg : Cfg} {v : Voice} (hv : VoiceOk cfg v) : VoiceOk cfg (envRelease v) := by
  rw [envRelease, if_neg hv.notIdle]
  exact ⟨by simp, hv.ampInUnit, by simp, hv.phaseOk⟩

/-- A voice just started meets the invariants. -/
theorem startedVoice_ok (cfg : Cfg) (freq vel : F32) : VoiceOk cfg (envTrigger (newVoice freq vel)) :=
  ⟨by simp [envTrigger], inUnit_posZero, by simp [envTrigger],
    .inr ⟨rfl, (by decide +kernel : F32.lt F32.posZero c_TWO_PI = true)⟩⟩

/-- Every operation keeps the invariants. -/
theorem exec_inv {i : Instr} {s t : State} (hs : s.Inv Config.cfg) (h : exec i s = .next t) : t.Inv Config.cfg := by
  intro k v' hv'
  rcases exec_slot h k with ⟨_, freq, vel, -, -, ht⟩ | ⟨_, -, -, ht⟩ | ⟨-, ht⟩ | ⟨-, ht⟩ | ⟨-, -, ht⟩ <;> rw [ht] at hv'
  · cases hv'
    exact startedVoice_ok _ freq vel
  · obtain ⟨v, hv, rfl⟩ := Option.map_eq_some_iff.1 hv'
    exact envRelease_ok (hs k v hv)
  · obtain ⟨v, hv, hkept⟩ := Option.bind_eq_some_iff.1 hv'
    exact voiceTick_ok cfg_legal (hs k v hv) hkept
  · cases hv'
  · exact hs k v' hv'

/-- The slot file decides whether a state meets the invariants. -/
theorem State.Inv.of_slots {cfg : Cfg} {s t : State} (h : s.Inv cfg) (hslots : t.slots = s.slots) : t.Inv cfg :=
  fun k v hv => h k v (by rw [State.slot, ← hslots]; exact hv)

/-! ### The obligations -/

/-- Settles O55: a grant and a round of arrivals leave the slots alone, and every operation keeps the invariants. -/
theorem stepKeepsInvariants : Obligations.StepKeepsInvariants := by
  intro s t hs h
  have hg : s.grant.2.Inv Config.cfg := hs.of_slots (grant_block s).1
  rcases step_performs s with ⟨-, hstep⟩ | ⟨r, u, -, hexec, hstep⟩ <;> rw [hstep] at h <;> cases h
  · exact hg.of_slots (arrive_slots _)
  · exact (exec_inv hg hexec).of_slots (arrive_slots u)

/-- Settles O54: no slot is valid. -/
theorem resetMeetsInvariants : Obligations.ResetMeetsInvariants :=
  ⟨fun k v hv => absurd hv (by simp), reset_voiceCount⟩

/-- Settles O22, by counting the marked slots among the valid ones. -/
theorem voiceCountFallsByRemovals : Obligations.VoiceCountFallsByRemovals := fun s =>
  ⟨_, exec_tick s, by
    rw [voiceCount_toNat, voiceCount_toNat, ← List.countP_eq_length_filter]; exact tickWith_validCount Config.cfg s⟩

/-- Settles O44, by what an operation can do to the slot. -/
theorem validWrittenOnlyBy : Obligations.ValidWrittenOnlyBy := by
  refine ⟨fun k => by simp [State.valid], fun i s t k h hne => ?_⟩
  simp only [State.valid] at hne ⊢
  rcases exec_slot h k with ⟨key, freq, vel, hi, hk, ht⟩ | ⟨_, -, -, ht⟩ | ⟨hi, ht⟩ | ⟨hi, ht⟩ | ⟨-, -, ht⟩
  · exact .inl ⟨key, freq, vel, hi, hk, by rw [ht]; rfl⟩
  · rw [ht, Option.isSome_map] at hne
    exact absurd rfl hne
  · cases hv : s.slot k with
    | none => rw [ht, hv] at hne; exact absurd rfl hne
    | some v =>
      rw [hv, Option.bind_some] at ht
      rcases voiceTick_cases Config.cfg k v with ⟨hzero, hidle, hgone⟩ | ⟨-, hstays⟩
      · exact .inr (.inl ⟨hi, by rw [ht, hgone]; rfl, v, rfl, hidle, hzero⟩)
      · rw [ht, hv, hstays] at hne; exact absurd rfl hne
  · exact .inr (.inr ⟨hi, by rw [ht]; rfl⟩)
  · rw [ht] at hne
    exact absurd rfl hne

/-- Settles O45, by what an operation can do to the slot. -/
theorem voiceFieldsWrittenOnlyBy : Obligations.VoiceFieldsWrittenOnlyBy := by
  intro i s t k v v' h hv hv' hother
  rcases exec_slot h k with ⟨key, freq, vel, hi, hk, -⟩ | ⟨_, -, -, ht⟩ | ⟨hi, ht⟩ | ⟨-, ht⟩ | ⟨-, -, ht⟩
  · exact absurd hk (hother key freq vel hi)
  · rw [hv', hv] at ht
    cases ht
    obtain ⟨hfreq, hvel, hphase, -⟩ := envRelease_fields v
    exact ⟨hfreq, hvel, fun _ => hphase⟩
  · rw [hv', hv, Option.bind_some] at ht
    obtain ⟨rfl, -⟩ := voiceTick_kept ht.symm
    exact ⟨envProcess_freq .., envProcess_vel .., fun hne => absurd hi hne⟩
  · rw [hv'] at ht
    cases ht
  · rw [hv', hv] at ht
    cases ht
    exact ⟨rfl, rfl, fun _ => rfl⟩

/-- Settles O56: the count is one of `VALID`, and a command word asks for no TICK and no RESET. -/
theorem voiceCountCountsValidSlots : Obligations.VoiceCountCountsValidSlots := by
  refine ⟨reset_voiceCount, fun s => ⟨?_, ?_, fun w t h => ?_⟩⟩
  · rw [voiceCount_toNat, validCount_eq, ← List.countP_eq_length_filter]
    rfl
  · rw [voiceCount_toNat]
    exact validCount_le s
  · rw [voiceCount_toNat, voiceCount_toNat]
    obtain ⟨htick, hreset⟩ := decodeCommand_ne_port w
    exact validCount_of_command h htick hreset

/-- Settles O46: every other operation writes a slot at most. -/
theorem sharedStateWrittenOnlyBy : Obligations.SharedStateWrittenOnlyBy := by
  intro i s t h htick hreset
  cases i with
  | tick => exact absurd rfl htick
  | reset => exact absurd rfl hreset
  | noteOff key => rw [exec_noteOff] at h; cases h; exact ⟨rfl, rfl, rfl⟩
  | _ => cases h; exact ⟨rfl, rfl, rfl⟩

end Sys2Proof.Machine
end

section
/-!
SUPPORT. Runs and the operations they perform (spec/20_memory.md rules R53 to R57): what a run's block and observations
are (spec/10_state.md rule R39), and an outside world for every sequence of requests.
-/

namespace Sys2Proof.Machine

/-! ### A run is its operations in order (R54) -/

/-- A run performs its traced operations one after the other, from any state with the same block: the block it leaves
and the values observed are theirs. -/
theorem run_eq_performAll (n : Nat) {s u : State} (h : s.block = u.block) :
    ∃ t v, Host.Core.run Sys2Proof.core n s = .next t ∧
      performAll ((trace n s).map fun p => decode p.1) u = .next v ∧ t.block = v.block ∧
      (observations n s).map Observation.value =
        (observeAll ((trace n s).map fun p => decode p.1) u).map Observation.value := by
  induction n generalizing s u with
  | zero => exact ⟨s, u, rfl, rfl, h, rfl⟩
  | succ n ih =>
    have hg : s.grant.2.block = u.block := (grant_block_eq s).trans h
    rcases step_performs s with ⟨hr, hstep⟩ | ⟨r, s1, hr, hexec, hstep⟩
    · rw [run_succ n hstep, observations, trace_succ_idle n hr hstep]
      exact ih ((arrive_block _).trans hg)
    · obtain ⟨s1', u1, hs1, hu1, hblock, hvalue⟩ := exec_of_block_eq (decode r) hg
      rw [hexec] at hs1
      cases hs1
      obtain ⟨t, v, hrun, hperform, hend, hobs⟩ := ih ((arrive_block s1).trans hblock)
      refine ⟨t, v, by rw [run_succ n hstep, hrun], ?_, hend, ?_⟩
      · rw [trace_succ n hr hstep, List.map_cons, performAll_cons _ hu1, hperform]
      · rw [observations, trace_succ n hr hstep, List.map_cons, List.map_cons, List.map_cons, observeAll_cons _ hu1,
          List.map_cons, observe_arrive, hvalue]
        exact congrArg _ hobs

/-- An operation's observation holds a word exactly when the operation is a TICK (R78). -/
theorem observe_sample_isSome {i : Instr} {s t : State} (h : exec i s = .next t) :
    (observe i t).sample.isSome = (i == .tick) := by
  by_cases hi : i = .tick
  · subst hi; cases h; rfl
  · rw [observe_sample_of_ne hi]; simp [hi]

/-- In a run every TICK, and no other operation, is observed with a word. -/
theorem trace_sample_isSome (n : Nat) (s : State) :
    ∀ p ∈ trace n s, p.2.sample.isSome = (decode p.1 == .tick) := by
  induction n generalizing s with
  | zero => intro p hp; cases hp
  | succ n ih =>
    rcases step_performs s with ⟨hr, hstep⟩ | ⟨r, t, hr, hexec, hstep⟩
    · rw [trace_succ_idle n hr hstep]
      exact ih _
    · rw [trace_succ n hr hstep, List.forall_mem_cons]
      exact ⟨by rw [observe_arrive]; exact observe_sample_isSome hexec, ih _⟩

/-- A run returns one sample word for each TICK it performs (R165). -/
theorem sampleWords_length (n : Nat) (s : State) :
    (sampleWords n s).length = ((trace n s).map fun p => decode p.1).count .tick := by
  rw [sampleWords, observations, List.filterMap_map, List.length_filterMap_eq_countP, List.count_eq_countP,
    List.countP_map]
  exact List.countP_congr fun p hp => by simp [Function.comp, trace_sample_isSome n s p hp]

/-! ### The word a TICK returns, exactly -/

/-- The block's output depends on the block alone. -/
theorem sampleValue_of_block_eq (cfg : Cfg) {s u : State} (h : s.block = u.block) :
    sampleValue cfg s = sampleValue cfg u := by
  obtain ⟨hslots, hbuf, hlpf⟩ : s.slots = u.slots ∧ s.resBuf = u.resBuf ∧ s.lpfPrev = u.lpfPrev := by
    simpa [State.block] using h
  rw [sampleValue, sampleValue, filterOutput, filterOutput, hslots, hbuf, hlpf]

/-- TICK and RESET use one free value each, and no other operation uses one. -/
theorem exec_draws {i : Instr} {s t : State} (h : exec i s = .next t) :
    t.draws = s.draws + if i = .tick ∨ i = .reset then 1 else 0 := by
  cases i with
  | noteOff key => rw [exec_noteOff] at h; cases h; rfl
  | _ => cases h; rfl

/-- From the same block and the same index into the free values an operation leaves the same block and index, and what
is observed of it is the same, NaN patterns too. -/
theorem exec_of_block_draws_eq (i : Instr) {s u : State} (h : s.block = u.block) (hd : s.draws = u.draws) :
    ∃ t v, exec i s = .next t ∧ exec i u = .next v ∧ t.block = v.block ∧ t.draws = v.draws ∧
      observe i t = observe i v := by
  obtain ⟨t, v, ht, hv, hblock, -⟩ := exec_of_block_eq i h
  have hcount : t.voiceCount = v.voiceCount := voiceCount_of_slots (congrArg (·.1) hblock)
  refine ⟨t, v, ht, hv, hblock, by rw [exec_draws ht, exec_draws hv, hd], ?_⟩
  by_cases hi : i = .tick
  · subst hi
    cases ht
    cases hv
    simp [observe, hcount, hd, sampleValue_of_block_eq Config.cfg h]
  · simp [observe, hi, hcount]

/-! ### An outside world for every sequence of requests (R54, R56) -/

/-- The round in which the outside world presents one request alone, with reset asserted for RESET only (R190). -/
def requestRound : Request → List Arrival
  | .command w => [.resetLevel false, .command w]
  | .sample => [.resetLevel false, .sampleRequest]
  | .reset => [.resetLevel true]

/-- With reset released and empty ports a step is idle: it grants nothing and the next round arrives (R183). -/
theorem idle_step {s : State} (hreset : s.resetLine = false) (hevent : s.eventPort = []) (hsample : s.samplePort = 0) :
    s.grant.1 = none ∧ step s = .next s.arrive := by
  have hgrant : s.grant = (none, s) := by simp [State.grant, hreset, hevent, hsample]
  exact ⟨by rw [hgrant], by rw [step, hgrant]⟩

/-- After a request's round at empty ports that request is granted, and the ports are empty again. -/
theorem grant_requestRound {s : State} {r : Request} {rest : List (List Arrival)} (hevent : s.eventPort = [])
    (hsample : s.samplePort = 0) (harr : s.arrivals = requestRound r :: rest) :
    ∃ g, s.arrive.grant = (some r, g) ∧ g.block = s.block ∧ g.draws = s.draws ∧ g.eventPort = [] ∧
      g.samplePort = 0 ∧ g.arrivals = rest := by
  have harrive : s.arrive = (requestRound r).foldl State.arriveOne { s with arrivals := rest } := by
    rw [State.arrive, harr]
  rw [harrive]
  cases r with
  | command w =>
    exact ⟨{ s with eventPort := [], resetLine := false, lastGrant := some .event, arrivals := rest },
      by simp [requestRound, State.arriveOne, State.grant, State.grantEvent, hevent, hsample],
      rfl, rfl, rfl, hsample, rfl⟩
  | sample =>
    exact ⟨{ s with samplePort := 0, resetLine := false, lastGrant := some .sample, arrivals := rest },
      by simp [requestRound, State.arriveOne, State.grant, State.grantSample, hevent, hsample],
      rfl, rfl, hevent, rfl, rfl⟩
  | reset => exact ⟨_, rfl, rfl, rfl, hevent, hsample, rfl⟩

/-- From empty ports, with a round for each of the requests to come, the machine performs exactly these in order. -/
theorem run_requestRounds (rs : List Request) {s u : State} (hevent : s.eventPort = []) (hsample : s.samplePort = 0)
    (harr : s.arrivals = rs.map requestRound) (hblock : s.block = u.block) (hdraws : s.draws = u.draws) :
    ∃ t v, Host.Core.run Sys2Proof.core rs.length s.arrive = .next t ∧
      (trace rs.length s.arrive).map Prod.fst = rs ∧ performAll (rs.map decode) u = .next v ∧
      observations rs.length s.arrive = observeAll (rs.map decode) u ∧ t.block = v.block ∧ t.eventPort = [] ∧
      t.samplePort = 0 := by
  induction rs generalizing s u with
  | nil =>
    rw [arrive_of_nil harr]
    exact ⟨s, u, rfl, rfl, rfl, rfl, hblock, hevent, hsample⟩
  | cons r rs ih =>
    obtain ⟨g, hgrant, hgblock, hgdraws, hgevent, hgsample, hgarr⟩ := grant_requestRound hevent hsample harr
    obtain ⟨s1, u1, hs1, hu1, hblock1, hdraws1, hobserve⟩ :=
      exec_of_block_draws_eq (decode r) (hgblock.trans hblock) (hgdraws.trans hdraws)
    obtain ⟨hevent1, hsample1, -, harr1, -⟩ := exec_ports hs1
    have hr : s.arrive.grant.1 = some r := by rw [hgrant]
    have hstep : step s.arrive = .next s1.arrive := by rw [step, hgrant]; exact congrArg thenArrive hs1
    obtain ⟨t, v, hrun, htrace, hperform, hobs, hend⟩ :=
      ih (hevent1.trans hgevent) (hsample1.trans hgsample) (harr1.trans hgarr) hblock1 hdraws1
    refine ⟨t, v, ?_, ?_, ?_, ?_, hend⟩
    · rw [List.length_cons, run_succ _ hstep, hrun]
    · rw [List.length_cons, trace_succ _ hr hstep, List.map_cons, htrace]
    · rw [List.map_cons, performAll_cons _ hu1, hperform]
    · rw [List.length_cons, observations, trace_succ _ hr hstep, List.map_cons, List.map_cons, observeAll_cons _ hu1,
        observe_arrive, hobserve]
      exact congrArg _ hobs

/-! ### The obligations -/

/-- Settles O53: by the steps of the run, and a count of the words observed. -/
theorem runsAreOperationsInOrder : Obligations.RunsAreOperationsInOrder := by
  intro n s is
  obtain ⟨t, u, hrun, hperform, hblock, hobs⟩ := run_eq_performAll n (rfl : s.block = s.block)
  exact ⟨t, u, hrun, hperform, hblock, hobs, sampleWords_length n s, by simp [voiceCounts, observations, is]⟩

/-- Settles O52: an idle step lets the first request arrive, and each request's step the next one. -/
theorem everyInterleavingIsARun : Obligations.EveryInterleavingIsARun := by
  intro s rs hreset hevent hsample
  obtain ⟨hr, hstep⟩ := idle_step (s := { s with arrivals := rs.map requestRound }) hreset hevent hsample
  obtain ⟨t, u, hrun, htrace, hperform, hobs, hend⟩ := run_requestRounds rs
    (s := { s with arrivals := rs.map requestRound }) (u := s) hevent hsample rfl rfl rfl
  refine ⟨rs.map requestRound, rs.length + 1, t, u, ?_, ?_, hperform, ?_, hend⟩
  · rw [run_succ _ hstep, hrun]
  · rw [trace_succ_idle _ hr hstep, htrace]
  · rw [observations, trace_succ_idle _ hr hstep]
    exact hobs

end Sys2Proof.Machine
end

section
/-!
SUPPORT. How slots and ports are kept apart: what a TICK does with one slot (spec/20_memory.md rule R65), which request
is granted (R57), and what a step leaves at the ports (R55, R57, R78).
-/

namespace Sys2Proof.Machine

/-! ### One slot of a TICK (R65) -/

/-- A partial function's values over all of `Fin n` are those below `k`, the one at `k`, then those above. -/
theorem filterMap_finRange_split {α : Type} {n : Nat} (f : Fin n → Option α) (k : Fin n) :
    (List.finRange n).filterMap f =
      (List.finRange n).filterMap (fun j => if j < k then f j else none) ++ (f k).toList ++
        (List.finRange n).filterMap (fun j => if k < j then f j else none) := by
  induction n with
  | zero => exact k.elim0
  | succ n ih =>
    rw [List.finRange_succ]
    cases k using Fin.cases with
    | zero => cases hf : f 0 <;> simp [List.filterMap_map, hf]
    | succ k =>
      have htail := ih (fun j => f j.succ) k
      cases hf : f 0 <;> simp [List.filterMap_map, hf, htail]

/-- A guard on an optional value passes through `bind`. -/
theorem bind_ite_none {α β : Type} (p : Prop) [Decidable p] (o : Option α) (f : α → Option β) :
    (if p then o else none).bind f = if p then o.bind f else none :=
  apply_ite (Option.bind · f) p o none

/-- Settles O23: a TICK treats each slot by its own voice, and the contributions are listed in slot order. -/
theorem slotsAreIndependent : Obligations.SlotsAreIndependent := by
  refine ⟨fun s s' k hk => ⟨_, _, exec_tick s, exec_tick s', by rw [tickWith_slot, tickWith_slot, hk]⟩,
    fun s below above k hbelow habove => ?_⟩
  have hown : ((s.slot k).bind (voiceTick Config.cfg k)).map Prod.snd =
      (s.slot k).bind fun v => (voiceTick Config.cfg k v).map Prod.snd := Option.map_bind
  rw [contributions_eq, contributions_eq, contributions_eq, hown, filterMap_finRange_split _ k]
  simp only [hbelow, habove, bind_ite_none]

/-! ### Which request is granted (R57, R175) -/

/-- A step performs the request granted, from the state the grant leaves (R53). -/
theorem step_of_grant {s u : State} {r : Request} (h : s.grant = (some r, u)) :
    step s = thenArrive (exec (decode r) u) := by
  rw [step, h]

section grant
variable {s u : State} {w : CommandWord} {ws : List CommandWord} {n : Nat}

theorem grant_of_reset (hreset : s.resetLine = true) : s.grant = (some .reset, s) := by
  simp [State.grant, hreset]

/-- Where the event port alone holds a request, it is granted. -/
theorem grant_of_event (hreset : s.resetLine = false) (hevent : s.eventPort = w :: ws) (hsample : s.samplePort = 0) :
    s.grant = s.grantEvent w ws := by
  simp [State.grant, hreset, hevent, hsample]

/-- Where the sample port alone holds a request, it is granted. -/
theorem grant_of_sample (hreset : s.resetLine = false) (hevent : s.eventPort = []) (hsample : s.samplePort = n + 1) :
    s.grant = s.grantSample n := by
  simp [State.grant, hreset, hevent, hsample]

/-- Where both ports hold a request, the arbiter's choice is granted: the event port. -/
theorem grant_of_contended_event (hreset : s.resetLine = false) (hevent : s.eventPort = w :: ws)
    (hsample : s.samplePort = n + 1) (hturn : s.contended = (.event, u)) : s.grant = u.grantEvent w ws := by
  simp [State.grant, hreset, hevent, hsample, hturn]

/-- Where both ports hold a request, the arbiter's choice is granted: the sample port. -/
theorem grant_of_contended_sample (hreset : s.resetLine = false) (hevent : s.eventPort = w :: ws)
    (hsample : s.samplePort = n + 1) (hturn : s.contended = (.sample, u)) : s.grant = u.grantSample n := by
  simp [State.grant, hreset, hevent, hsample, hturn]

theorem contended_of_event (h : s.lastGrant = some .event) : s.contended = (.sample, s) := by
  rw [State.contended, h]

theorem contended_of_sample (h : s.lastGrant = some .sample) : s.contended = (.event, s) := by
  rw [State.contended, h]

theorem contended_of_none (h : s.lastGrant = none) :
    s.contended = (Config.freeGrant s.draws, { s with draws := s.draws + 1 }) := by
  rw [State.contended, h]

/-- After the sample port's grant a pending command word is the next request granted. -/
theorem grant_command_of_turn (hreset : s.resetLine = false) (hevent : s.eventPort = w :: ws)
    (hturn : s.lastGrant = some .sample) : s.grant.1 = some (.command w) := by
  cases hsample : s.samplePort with
  | zero => rw [grant_of_event hreset hevent hsample]; rfl
  | succ n => rw [grant_of_contended_event hreset hevent hsample (contended_of_sample hturn)]; rfl

/-- After the event port's grant a pending sample request is the next request granted. -/
theorem grant_sample_of_turn (hreset : s.resetLine = false) (hsample : 0 < s.samplePort)
    (hturn : s.lastGrant = some .event) : s.grant.1 = some .sample := by
  obtain ⟨n, hn⟩ := Nat.exists_eq_add_one.2 hsample
  cases hevent : s.eventPort with
  | nil => rw [grant_of_sample hreset hevent hn]; rfl
  | cons w ws => rw [grant_of_contended_sample hreset hevent hn (contended_of_event hturn)]; rfl

end grant

/-- Settles O47: each case of the ports grants its request, and the step performs it. -/
theorem stepPerformsDecodedRequest : Obligations.StepPerformsDecodedRequest := by
  intro s
  refine ⟨fun hreset => step_of_grant (grant_of_reset hreset),
    fun w ws hreset hevent hsample => step_of_grant (grant_of_event hreset hevent hsample),
    fun n hreset hevent hsample => step_of_grant (grant_of_sample hreset hevent hsample),
    fun hreset hevent hsample => (idle_step hreset hevent hsample).2,
    fun w ws n hreset hevent hsample => ⟨fun hlast => ?_, fun hlast => ?_, fun hlast => ?_⟩⟩
  · exact step_of_grant (grant_of_contended_sample hreset hevent hsample (contended_of_event hlast))
  · exact step_of_grant (grant_of_contended_event hreset hevent hsample (contended_of_sample hlast))
  · have hfree := contended_of_none hlast
    cases hport : Config.freeGrant s.draws with
    | event =>
      have hgrant := grant_of_contended_event hreset hevent hsample (hport ▸ hfree)
      exact .inl ⟨congrArg Prod.fst hgrant, step_of_grant hgrant⟩
    | sample =>
      have hgrant := grant_of_contended_sample hreset hevent hsample (hport ▸ hfree)
      exact .inr ⟨congrArg Prod.fst hgrant, step_of_grant hgrant⟩

/-! ### The ports after a step -/

/-- A grant leaves the rounds to come alone. -/
theorem grant_arrivals (s : State) : s.grant.2.arrivals = s.arrivals := by
  rcases grant_cases s with ⟨-, h⟩ | ⟨-, -, -, h⟩ | ⟨-, w, ws, d, -, h, -⟩ | ⟨-, n, d, -, h, -⟩ <;> rw [h]

/-- After a step the ports hold what the grant left, and behind it the round's requests; the arbiter's pointer is the
grant's unless the step was a RESET. -/
theorem step_ports {s t : State} (h : step s = .next t) :
    t.eventPort = s.grant.2.eventPort ++ (s.arrivals.headD []).filterMap Arrival.command? ∧
    t.samplePort = s.grant.2.samplePort + (s.arrivals.headD []).count .sampleRequest ∧
    t.arrivals = s.arrivals.tail ∧
    (∀ r, s.grant.1 = some r → decode r ≠ .reset → t.lastGrant = s.grant.2.lastGrant) := by
  rcases step_performs s with ⟨hr, hstep⟩ | ⟨r, u, hr, hexec, hstep⟩ <;> rw [hstep] at h <;> cases h
  · refine ⟨?_, ?_, ?_, fun r hsome => ?_⟩
    · rw [arrive_eventPort, grant_arrivals]
    · rw [arrive_samplePort, grant_arrivals]
    · rw [arrive_arrivals, grant_arrivals]
    · rw [hr] at hsome; cases hsome
  · obtain ⟨hevent, hsample, -, harr, hlast⟩ := exec_ports hexec
    refine ⟨?_, ?_, ?_, fun r' hsome hne => ?_⟩
    · rw [arrive_eventPort, hevent, harr, grant_arrivals]
    · rw [arrive_samplePort, hsample, harr, grant_arrivals]
    · rw [arrive_arrivals, harr, grant_arrivals]
    · rw [hr] at hsome
      cases hsome
      rw [arrive_lastGrant, hlast hne]

/-- Settles O48: a grant takes at most the head of one port, and the round's requests wait behind what it leaves. -/
theorem eventPortIsFifo : Obligations.EventPortIsFifo := by
  intro s t h
  obtain ⟨hevent, hsample, harr, -⟩ := step_ports h
  rcases grant_cases s with ⟨-, hg⟩ | ⟨-, -, -, hg⟩ | ⟨-, w, ws, d, hhead, hg, -⟩ | ⟨-, n, d, hcount, hg, -⟩ <;>
    rw [hg] at hevent hsample ⊢
  · exact ⟨fun w hw => (by cases hw), fun _ => hevent, hsample, harr⟩
  · exact ⟨fun w hw => (by cases hw), fun _ => hevent, hsample, harr⟩
  · exact ⟨fun w' hw => by cases hw; exact ⟨ws, hhead, hevent⟩, fun hne => absurd rfl (hne w), hsample, harr⟩
  · refine ⟨fun w hw => (by cases hw), fun _ => hevent, ?_, harr⟩
    rw [if_pos rfl, hsample, hcount, Nat.add_right_comm]

/-- Settles O49: the port granted now is the arbiter's last, so a request still held at the other port has its turn. -/
theorem pendingRequestWaitsAtMostOne : Obligations.PendingRequestWaitsAtMostOne := by
  intro s t hreset h hreset'
  obtain ⟨hevent, hsample, -, hlast⟩ := step_ports h
  rcases grant_cases s with ⟨hon, -⟩ | ⟨-, hnil, hzero, -⟩ | ⟨-, w, ws, d, hhead, hg, -⟩ | ⟨-, n, d, hcount, hg, -⟩
  · rw [hreset] at hon; cases hon
  · exact ⟨fun w ws hw => (by rw [hnil] at hw; cases hw), fun hpos => absurd hzero hpos.ne'⟩
  · rw [hg] at hsample hlast ⊢
    have hturn : t.lastGrant = some .event := hlast _ rfl (decodeCommand_ne_port w).2
    refine ⟨fun w' ws' hw => .inl ?_, fun hpos => .inr ⟨⟨w, rfl⟩, grant_sample_of_turn hreset' ?_ hturn⟩⟩
    · rw [hhead] at hw; cases hw; rfl
    · rw [hsample]; exact Nat.add_pos_left hpos _
  · rw [hg] at hevent hlast ⊢
    have hturn : t.lastGrant = some .sample := hlast _ rfl (by decide)
    refine ⟨fun w ws hw => .inr ⟨rfl, ?_⟩, fun _ => .inl rfl⟩
    rw [hw] at hevent
    exact grant_command_of_turn hreset' hevent hturn

end Sys2Proof.Machine
end

section
/-!
SUPPORT. What a command word decodes to, by its OP value, and what a packed command reads back as (spec/30_encoding.md
rules R70 to R82).
-/

namespace Sys2Proof

/-! ### Decoding by the OP value (R80) -/

/-- The reserved operation of an OP value from 0x03 up: its row of spec/opcode_table.json, as a range (R71). -/
def reservedOf (op : BitVec 8) : Instr :=
  if op.toNat < 0x04 then .reserved03
  else if op.toNat < 0x08 then .reserved04 op
  else if op.toNat < 0x10 then .reserved08 op
  else if op.toNat < 0x20 then .reserved10 op
  else if op.toNat < 0x40 then .reserved20 op
  else if op.toNat < 0x80 then .reserved40 op
  else .reserved80 op

section decodeCommand
variable {w w' : CommandWord}

theorem decodeCommand_of_nop (h : opField w = 0x00#8) : decodeCommand w = .nop := by
  simp [decodeCommand, h]

theorem decodeCommand_of_noteOn (h : opField w = 0x01#8) :
    decodeCommand w = .noteOn (keyField w) (freqField w) (velField w) := by
  simp [decodeCommand, h]

theorem decodeCommand_of_noteOff (h : opField w = 0x02#8) : decodeCommand w = .noteOff (keyField w) := by
  simp [decodeCommand, h]

/-- The masks and matches of the reserved rows cut the OP values from 0x03 up into the ranges of `reservedOf`. -/
theorem decodeCommand_of_reserved (h : 3 ≤ (opField w).toNat) : decodeCommand w = reservedOf (opField w) := by
  have h0 : opField w ≠ 0x00#8 := fun h0 => by simp [h0] at h
  have h1 : opField w ≠ 0x01#8 := fun h1 => by simp [h1] at h
  have h2 : opField w ≠ 0x02#8 := fun h2 => by simp [h2] at h
  simp only [decodeCommand, if_neg h0, if_neg h1, if_neg h2]
  clear h0 h1 h2
  generalize opField w = op at h ⊢
  revert op
  decide +kernel

/-- The four kinds of OP value (R71). -/
theorem opField_cases (w : CommandWord) :
    opField w = 0x00#8 ∨ opField w = 0x01#8 ∨ opField w = 0x02#8 ∨ 3 ≤ (opField w).toNat := by
  bv_omega

/-- Decoding reads the OP field, the KEY field of a NOTE_ON and a NOTE_OFF, and the FREQ and VEL fields of a NOTE_ON:
no other bit (R75, R76). -/
theorem decodeCommand_congr (hop : opField w = opField w')
    (hkey : opField w = 0x01#8 ∨ opField w = 0x02#8 → keyField w = keyField w')
    (hnum : opField w = 0x01#8 → freqField w = freqField w' ∧ velField w = velField w') :
    decodeCommand w = decodeCommand w' := by
  rcases opField_cases w with h | h | h | h
  · rw [decodeCommand_of_nop h, decodeCommand_of_nop (hop ▸ h)]
  · obtain ⟨hfreq, hvel⟩ := hnum h
    rw [decodeCommand_of_noteOn h, decodeCommand_of_noteOn (hop ▸ h), hkey (.inl h), hfreq, hvel]
  · rw [decodeCommand_of_noteOff h, decodeCommand_of_noteOff (hop ▸ h), hkey (.inr h)]
  · rw [decodeCommand_of_reserved h, decodeCommand_of_reserved (hop ▸ h), hop]

/-- Words that agree on a field agree on every field within it. -/
theorem extractLsb'_congr_of_le {base len start n : Nat} (h : w.extractLsb' base len = w'.extractLsb' base len)
    (hle : start + n ≤ len) : w.extractLsb' (base + start) n = w'.extractLsb' (base + start) n := by
  ext i hi
  have hbit := congrArg (·.getLsbD (start + i)) h
  simpa [show start + i < len by omega, Nat.add_assoc] using hbit

end decodeCommand

/-! ### The reserved operations (R71, R77) -/

/-- The operations of the seven reserved rows that can carry this OP value. -/
def reservedForms (op : BitVec 8) : List Instr :=
  [.reserved03, .reserved04 op, .reserved08 op, .reserved10 op, .reserved20 op, .reserved40 op, .reserved80 op]

theorem reservedOf_mem (op : BitVec 8) : reservedOf op ∈ reservedForms op := by
  unfold reservedOf
  split_ifs <;> simp [reservedForms]

/-- The operand of a reserved operation lies in its row: at each OP value from 0x03 up. -/
theorem reservedOf_wellFormed : ∀ op : BitVec 8, 3 ≤ op.toNat → (reservedOf op).WellFormed := by
  decide +kernel

/-- No OP value lies in two reserved rows: a well-formed reserved operation with an operand is the one its OP value
decodes to. -/
theorem reservedOf_eq_of_wellFormed : ∀ (op : BitVec 8), ∀ i ∈ (reservedForms op).tail, i.WellFormed →
    3 ≤ op.toNat ∧ reservedOf op = i := by
  decide +kernel

/-- A reserved operation does nothing (R122). -/
theorem exec_reservedForm {op : BitVec 8} {i : Instr} (h : i ∈ reservedForms op) (s : Machine.State) :
    Machine.exec i s = .next s := by
  simp only [reservedForms, List.mem_cons, List.not_mem_nil, or_false] at h
  rcases h with rfl | rfl | rfl | rfl | rfl | rfl | rfl <;> rfl

theorem exec_decodeCommand_of_reserved {w : CommandWord} (h : 3 ≤ (opField w).toNat) (s : Machine.State) :
    Machine.exec (decodeCommand w) s = .next s := by
  rw [decodeCommand_of_reserved h]
  exact exec_reservedForm (reservedOf_mem _) s

/-! ### Decoding a packed command (R70) -/

section pack
variable (freq vel : SampleWord) (key : Key)

@[simp] theorem decodeCommand_pack_noteOn :
    decodeCommand (packCommand freq vel key 0x01#8) = .noteOn key (F32.ofBits freq) (F32.ofBits vel) := by
  rw [decodeCommand_of_noteOn (opField_pack ..), keyField_pack, freqField_pack, velField_pack]

@[simp] theorem decodeCommand_pack_noteOff : decodeCommand (packCommand freq vel key 0x02#8) = .noteOff key := by
  rw [decodeCommand_of_noteOff (opField_pack ..), keyField_pack]

@[simp] theorem decodeCommand_pack_nop : decodeCommand (packCommand freq vel key 0x00#8) = .nop :=
  decodeCommand_of_nop (opField_pack ..)

theorem decodeCommand_pack_reserved {op : BitVec 8} (h : 3 ≤ op.toNat) :
    decodeCommand (packCommand freq vel key op) = reservedOf op := by
  rw [decodeCommand_of_reserved (by rwa [opField_pack]), opField_pack]

end pack

/-- A well-formed reserved operation with an operand decodes from its OP value. -/
theorem decodeCommand_pack_of_wellFormed {op : BitVec 8} {i : Instr} (hmem : i ∈ (reservedForms op).tail)
    (hwf : i.WellFormed) : decodeCommand (packCommand 0#32 0#32 0#8 op) = i := by
  obtain ⟨hop, hi⟩ := reservedOf_eq_of_wellFormed op i hmem hwf
  rw [decodeCommand_pack_reserved _ _ _ hop, hi]

/-! ### Reading a bit pattern under R12 (R73, R74) -/

section ofBits
variable {p : SampleWord}

theorem F32.ofBits_of_exp_zero (h : p.extractLsb' 23 8 = 0#8) : F32.ofBits p = .zero (p.getLsbD 31) := by
  simp [F32.ofBits, h]

theorem F32.ofBits_of_nan (hexp : p.extractLsb' 23 8 = 255#8) (hfrac : p.extractLsb' 0 23 ≠ 0#23) :
    F32.ofBits p = .nan := by
  simp [F32.ofBits, hexp, hfrac]

/-- A pattern that is neither a zero, a subnormal nor a NaN is taken as it is: it reads as no NaN, for the pattern of
the NaN is one. -/
theorem F32.ofBits_exact (hexp : p.extractLsb' 23 8 ≠ 0#8)
    (hfrac : p.extractLsb' 23 8 = 255#8 → p.extractLsb' 0 23 = 0#23) :
    F32.ofBits p ≠ .nan ∧ (F32.ofBits p).toBits = p := by
  have hbits : (F32.ofBits p).toBits = p :=
    F32.toBits_ofBits (by simpa [isNaNWord] using hfrac) fun h => absurd h hexp
  refine ⟨fun hnan => ?_, hbits⟩
  rw [hnan] at hbits
  rw [← hbits] at hfrac
  exact absurd hfrac (by decide)

end ofBits

/-! ### The obligations -/

/-- Settles O1: by the constructor; the fields of a packed command are what was packed, and a value's pattern reads back
as the value. -/
theorem encodeThenDecode : Obligations.EncodeThenDecode := by
  intro i hwf
  cases i with
  | nop => exact decodeCommand_pack_nop 0#32 0#32 0#8
  | noteOn key freq vel =>
    calc decode (encode (.noteOn key freq vel))
      _ = .noteOn key (F32.ofBits freq.toBits) (F32.ofBits vel.toBits) := decodeCommand_pack_noteOn ..
      _ = .noteOn key freq vel := by rw [F32.ofBits_toBits, F32.ofBits_toBits]
  | noteOff key => exact decodeCommand_pack_noteOff ..
  | reserved03 => exact decodeCommand_pack_reserved 0#32 0#32 0#8 (op := 0x03#8) (by decide)
  | reserved04 op | reserved08 op | reserved10 op | reserved20 op | reserved40 op | reserved80 op =>
    exact decodeCommand_pack_of_wellFormed (by simp [reservedForms]) hwf
  | tick | reset => rfl

/-- Settles O2: by the OP value of a command word; only a reserved row constrains its operand. -/
theorem decodedIsWellFormed : Obligations.DecodedIsWellFormed := by
  intro r
  cases r with
  | command w =>
    show (decodeCommand w).WellFormed
    rcases opField_cases w with h | h | h | h
    · rw [decodeCommand_of_nop h]; rfl
    · rw [decodeCommand_of_noteOn h]; rfl
    · rw [decodeCommand_of_noteOff h]; rfl
    · rw [decodeCommand_of_reserved h]; exact reservedOf_wellFormed _ h
  | sample | reset => rfl

/-- Settles O3, by the lemma for each OP value. -/
theorem commandDecodesByOp : Obligations.CommandDecodesByOp := fun w =>
  ⟨decodeCommand_of_nop, decodeCommand_of_noteOn, decodeCommand_of_noteOff, fun h =>
    ⟨decodeCommand_of_reserved h ▸ reservedOf_mem (opField w), fun s => exec_decodeCommand_of_reserved h s⟩⟩

/-- Settles O4: the ignored bits lie in no field that the OP value's operation reads. -/
theorem ignoredBitsHaveNoEffect : Obligations.IgnoredBitsHaveNoEffect := by
  intro w w' hop
  refine ⟨fun hkey hnum => ?_, fun h1 hkey => ?_, fun h1 h2 => ?_⟩
  · have hfreq : w.extractLsb' 64 32 = w'.extractLsb' 64 32 :=
      extractLsb'_congr_of_le (start := 32) hnum (by decide)
    have hvel : w.extractLsb' 32 32 = w'.extractLsb' 32 32 :=
      extractLsb'_congr_of_le (start := 0) hnum (by decide)
    exact decodeCommand_congr hop (fun _ => hkey) fun _ => ⟨congrArg F32.ofBits hfreq, congrArg F32.ofBits hvel⟩
  · exact decodeCommand_congr hop (fun _ => hkey) fun h => absurd h h1
  · exact decodeCommand_congr hop (fun h => (h.elim h1 h2).elim) fun h => absurd h h1

/-- Settles O5: the operands are the values of their fields' patterns, by the lemma for each kind of pattern. -/
theorem operandsReadSubnormalsAsZero : Obligations.OperandsReadSubnormalsAsZero := by
  intro w hop
  refine ⟨freqField w, velField w, decodeCommand_of_noteOn hop, ?_⟩
  simp only [List.forall_mem_cons, List.not_mem_nil, false_imp_iff, implies_true, and_true]
  constructor <;> exact ⟨F32.ofBits_of_exp_zero, F32.ofBits_of_nan, F32.ofBits_exact⟩

/-- Settles O6, by evaluation of the fixed words. -/
theorem exampleWordsDecode : Obligations.ExampleWordsDecode := by
  unfold Obligations.ExampleWordsDecode
  decide +kernel

end Sys2Proof

namespace Sys2Proof.Machine

theorem map_decode_assemble_noteOn (key : Key) (freq vel : AsmNumber) :
    (assemble (.noteOn key freq vel)).map decode =
      [.noteOn key (F32.ofBits (asmWord freq)) (F32.ofBits (asmWord vel))] :=
  congrArg (· :: []) (decodeCommand_pack_noteOn ..)

theorem map_decode_assemble_noteOff (key : Key) : (assemble (.noteOff key)).map decode = [.noteOff key] :=
  congrArg (· :: []) (decodeCommand_pack_noteOff ..)

/-- `MIDI_ON` stands for the adapter's NOTE_ON (R82, R161, R162). -/
theorem map_decode_assemble_midiOn (m v7 : Fin 128) :
    (assemble (.midiOn m v7)).map decode = [.noteOn (midiKey m) (freqOf m) (velOf v7)] := by
  show [decodeCommand _] = _
  rw [decodeCommand_pack_noteOn, F32.ofBits_toBits, F32.ofBits_toBits]

/-- `RSVD` stands for a command that does nothing, at each OP value it takes (R81, R122). -/
theorem exec_decode_rsvd {op : BitVec 8} (h : (AsmLine.rsvd op).valid = true) (s : State) :
    exec (decode (.command (packCommand 0#32 0#32 0#8 op))) s = .next s := by
  have hop : 3 ≤ op.toNat := of_decide_eq_true h
  exact exec_decodeCommand_of_reserved (by rwa [opField_pack]) s

theorem map_decode_assemble_ticks (n : Nat) : (assemble (.ticks n)).map decode = List.replicate n .tick :=
  List.map_replicate

/-- Settles O58, line by line. -/
theorem assembledLinesDecode : Obligations.AssembledLinesDecode :=
  ⟨map_decode_assemble_noteOn, fun _ => F32.ofBits_toBits _, fun _ => rfl, rfl, rfl, rfl, by decide, by decide,
    by decide, map_decode_assemble_noteOff, congrArg (· :: []) (decodeCommand_pack_nop 0#32 0#32 0#8), rfl, rfl,
    fun _ h => ⟨rfl, exec_decode_rsvd h⟩, map_decode_assemble_midiOn, fun m => map_decode_assemble_noteOff (midiKey m),
    map_decode_assemble_ticks⟩

end Sys2Proof.Machine
end

section
/-!
SUPPORT. The envelope of one slot through ENV_PROCESS and a TICK, per state (spec/40_envelope.md rules R101 to R110).
-/

namespace Sys2Proof.Machine

/-! ### ENV_PROCESS, by the state -/

section envProcess
variable (cfg : Cfg) {v : Voice}

theorem envProcess_of_attack (h : v.envState = .attack) : envProcess cfg v = envAttack cfg v := by
  simp [envProcess, h]

theorem envProcess_of_decay (h : v.envState = .decay) : envProcess cfg v = envDecay cfg v := by
  simp [envProcess, h]

theorem envProcess_of_sustain (h : v.envState = .sustain) : envProcess cfg v = (v, cfg.sustain) := by
  simp [envProcess, h, envSustain]

theorem envProcess_of_release (h : v.envState = .release) : envProcess cfg v = envReleaseArm cfg v := by
  simp [envProcess, h]

end envProcess

/-- ENV_RELEASE keeps the amplitude (R102). -/
@[simp] theorem envRelease_envAmp (v : Voice) : (envRelease v).envAmp = v.envAmp := (envRelease_fields v).2.2.2

/-! ### The slot after a TICK -/

section tick
variable {cfg : Cfg} {s : State} {k : SlotIndex} {v v' : Voice} {a : F32}

/-- A voice that ENV_PROCESS leaves outside IDLE stays in its slot, and its phase advances (R131, R133). -/
theorem tickWith_slot_of_active (hk : s.slot k = some v) (he : envProcess cfg v = (v', a)) (hv' : v'.envState ≠ .idle) :
    (tickWith cfg s).slot k = some { v' with phase := nextPhase cfg v } := by
  rw [tickWith_slot_of_some hk]
  rcases voiceTick_cases cfg k v with ⟨-, hidle, -⟩ | ⟨-, h⟩
  · rw [he] at hidle
    exact absurd hidle hv'
  · rw [h, he]; rfl

/-- A voice in RELEASE is removed when its step falls below the threshold, and else stays at the new amplitude (R108,
R131, R142). -/
theorem tickWith_slot_of_release (hk : s.slot k = some v) (hs : v.envState = .release) :
    (tickWith cfg s).slot k =
      if F32.lt (releaseStep cfg v.envAmp) c_REL_THRESHOLD then none
      else some { v with envAmp := releaseStep cfg v.envAmp, phase := nextPhase cfg v } := by
  split_ifs with h
  · rw [tickWith_slot_of_some hk, (voiceTick_eq_none (by simp [hs])).2 ⟨hs, h⟩]; rfl
  · have he : envProcess cfg v = ({ v with envAmp := releaseStep cfg v.envAmp }, releaseStep cfg v.envAmp) := by
      rw [envProcess_of_release cfg hs, envReleaseArm, if_neg h]
    exact tickWith_slot_of_active hk he (by simp [hs])

end tick

/-! ### The obligations -/

/-- Settles O10: either branch of the ATTACK arm leaves the voice outside IDLE. -/
theorem tickInAttack : Obligations.TickInAttack := by
  intro s k v hk hs x v'
  have hstep : envProcess Config.cfg v = (v', v'.envAmp) ∧ v'.envState ≠ .idle := by
    rw [envProcess_of_attack _ hs]
    by_cases h : F32.le c_ONE x = true
    · simp only [v', if_pos h]
      exact ⟨if_pos h, by simp⟩
    · simp only [v', if_neg h]
      exact ⟨if_neg h, by simp [hs]⟩
  exact ⟨hstep.1, _, rfl, tickWith_slot_of_active hk hstep.1 hstep.2⟩

/-- Settles O11: either branch of the DECAY arm leaves the voice outside IDLE. -/
theorem tickInDecay : Obligations.TickInDecay := by
  intro s k v hk hs x v'
  have hstep : envProcess Config.cfg v = (v', v'.envAmp) ∧ v'.envState ≠ .idle := by
    rw [envProcess_of_decay _ hs]
    by_cases h : F32.le x Config.cfg.sustain = true
    · simp only [v', if_pos h]
      exact ⟨if_pos h, by simp⟩
    · simp only [v', if_neg h]
      exact ⟨if_neg h, by simp [hs]⟩
  exact ⟨hstep.1, _, rfl, tickWith_slot_of_active hk hstep.1 hstep.2⟩

/-- Settles O12: the SUSTAIN arm leaves the voice as it is. -/
theorem tickInSustain : Obligations.TickInSustain := by
  intro s k v hk hs
  have he := envProcess_of_sustain Config.cfg hs
  exact ⟨he, _, rfl, tickWith_slot_of_active hk he (by simp [hs])⟩

/-- Settles O13, by the RELEASE arm and the removal test. -/
theorem tickInRelease : Obligations.TickInRelease := by
  intro s k v hk hs
  exact ⟨envProcess_of_release _ hs, _, rfl, tickWith_slot_of_release hk hs⟩

/-- Settles O14: ENV_RELEASE by the state before it, ENV_PROCESS by the arm that ran. -/
theorem envelopeTransitions : Obligations.EnvelopeTransitions := by
  intro cfg v
  have hrelease : envRelease v =
      if v.envState = .release ∨ v.envState = .idle then v else { v with envState := .release } := by
    obtain ⟨_, _, _, state, _⟩ := v
    cases state <;> rfl
  refine ⟨rfl, rfl, hrelease, fun h => by simp [envProcess, h, envIdle], fun h => ?_, ?_, ?_⟩
  · rw [envProcess_of_sustain cfg h]
  · rw [hrelease]
    cases h : v.envState <;> simp [h]
  · rcases envProcess_cases cfg v with ⟨e, h⟩ | ⟨e, _, h⟩ | ⟨e, _, h⟩ | ⟨e, _, h⟩ | ⟨e, _, h⟩ | ⟨e, h⟩ | ⟨e, _, h⟩ |
      ⟨e, _, h⟩ <;> rw [h] <;> simp [e]

/-- Settles O15: ENV_PROCESS keeps the amplitude in [0, 1], ENV_TRIGGER sets +0 and ENV_RELEASE keeps it. -/
theorem amplitudeStaysInUnit : Obligations.AmplitudeStaysInUnit := by
  intro cfg v hl hv
  obtain ⟨hreturned, hstored⟩ := envProcess_inUnit hl hv
  exact ⟨hreturned, hstored, inUnit_posZero, by rwa [envRelease_envAmp]⟩

end Sys2Proof.Machine
end

section
/-!
SUPPORT. Binary32 values as steps of a grid: the value below a value, what rounds to it, and the order of the bit
patterns (spec/00_scope.md rule R11).
-/

namespace Sys2Proof

/-! ### Steps below a value -/

theorem F32.isFinite_of_positive {x : F32} (h : x.isPositiveNormal = true) : x.isFinite = true :=
  F32.isNormal_isFinite (F32.isNormal_of_positive h)

theorem F32.ne_nan_of_positive {x : F32} (h : x.isPositiveNormal = true) : x ≠ .nan :=
  F32.isFinite_not_nan (F32.isFinite_of_positive h)

/-- A positive normal value above the least one is `m` steps of `2^e` units, and its predecessor is `m - 1` of them: at
a power of two the step is that of the values below. -/
theorem F32.exists_steps {x : F32} (hx : x.isPositiveNormal = true) (h : 2 ^ 23 < x.units) :
    ∃ m e : Nat, 2 ^ 23 < m ∧ m ≤ 2 ^ 24 ∧ x.units = m * 2 ^ e := by
  obtain ⟨e, f, rfl⟩ := F32.isPositiveNormal_iff.1 hx
  have hf := f.isLt
  simp only [F32.units, Bool.false_eq_true, if_false] at h ⊢
  rcases Nat.eq_zero_or_pos f.toNat with h0 | hpos
  · obtain ⟨d, hd⟩ : ∃ d, e.val = d + 1 :=
      Nat.exists_eq_add_one.2 (Nat.pos_of_ne_zero fun hz => by simp [h0, hz] at h)
    exact ⟨2 ^ 24, d, by norm_num, le_rfl, by rw [h0, hd]; push_cast; ring⟩
  · exact ⟨2 ^ 23 + f.toNat, e.val, by omega, by omega, by push_cast; rfl⟩

/-- No value lies strictly between a value of `m` steps and its predecessor. -/
theorem F32.units_eq_of_steps {x : F32} {m e : Nat} (hm : 2 ^ 23 < m) (hlo : ((m : Int) - 1) * 2 ^ e < x.units)
    (hhi : x.units ≤ m * 2 ^ e) : x.units = m * 2 ^ e := by
  have hp : (0 : Int) < 2 ^ e := by positivity
  rcases F32.units_lt_or_dvd x e with hlt | ⟨j, hj⟩
  · have h1 := (le_abs_self _).trans_lt hlt
    have h2 : (2 ^ (23 + e) : Int) ≤ (m - 1) * 2 ^ e := by
      rw [pow_add]
      exact mul_le_mul_of_nonneg_right (by omega) hp.le
    omega
  · rw [hj, mul_comm (2 ^ e)] at hlo hhi ⊢
    have h1 := lt_of_mul_lt_mul_right hlo hp.le
    have h2 := le_of_mul_le_mul_right hhi hp
    rw [show j = m by omega]

theorem F32.toRat_mul_units (x : F32) : x.toRat * 2 ^ 149 = x.units := by
  rw [F32.toRat_eq, div_mul_cancel₀ _ (by positivity)]

/-- A rational above the midpoint between a value of `m` steps and its predecessor, and not above the value, is rounded
to the value. -/
theorem F32.F_eq_of_near {q : ℚ} {y : F32} {m e : Nat} (hm : 2 ^ 23 < m) (hy : y.isFinite = true)
    (hu : y.units = m * 2 ^ e) (hlo : (m - 1 / 2) * 2 ^ e < q * 2 ^ 149) (hhi : q ≤ y.toRat) : F32.F q = y := by
  have hm' : (2 ^ 23 : ℚ) + 1 ≤ m := by exact_mod_cast hm
  have he : (1 : ℚ) ≤ 2 ^ e := one_le_pow₀ (by norm_num)
  have hyr : y.toRat * 2 ^ 149 = m * 2 ^ e := by rw [F32.toRat_mul_units, hu]; push_cast; rfl
  have hq : 1 / 2 ^ 126 ≤ q := by nlinarith
  have hle := F32.key_F_le hy hhi
  have hfin : (F32.F q).isFinite = true :=
    F32.isFinite_of_between (F32.F_ne_nan q) (a := F32.posZero) rfl hy
      (F32.le_key_F rfl (by rw [F32.toRat_zero]; exact le_trans (by positivity) hq)) hle
  have hnear := (F32.F_nearest_of_pos hq hfin y).1
  rw [abs_of_nonpos (sub_nonpos.2 hhi)] at hnear
  have hgt : (m - 1) * 2 ^ e < (F32.F q).toRat * 2 ^ 149 := by
    have := le_trans (le_abs_self _) hnear
    linarith
  rw [F32.toRat_mul_units] at hgt
  rw [F32.key_eq_units hfin, F32.key_eq_units hy, hu] at hle
  have heq := F32.units_eq_of_steps hm (by exact_mod_cast hgt) hle
  have hpos : (0 : Int) < m * 2 ^ e := by positivity
  refine F32.eq_of_key_eq (F32.F_ne_nan q) (F32.isFinite_not_nan hy) ?_ ?_
  · rw [F32.key_eq_units hfin, F32.key_eq_units hy, heq, hu]
  · rw [F32.key_eq_units hfin, heq]; exact hpos.ne'

/-- Every number of at most 24 bits of steps within the normal range is a value. -/
theorem F32.exists_of_steps {k e : Nat} (hk : k ≤ 2 ^ 24) (hlo : 2 ^ 23 ≤ k * 2 ^ e) (hhi : k * 2 ^ e < magTop) :
    ∃ y : F32, y.isFinite = true ∧ y.toRat * 2 ^ 149 = k * 2 ^ e := by
  obtain ⟨hfin, hval⟩ := F32.F_exact (x := (k * 2 ^ e : Nat) / 2 ^ 149) hk (abs_of_nonneg (by positivity)) hlo hhi
  exact ⟨_, hfin, by rw [hval, div_mul_cancel₀ _ (by positivity)]; push_cast; rfl⟩

/-! ### Bit patterns in the order of the values -/

theorem F32.toBits_norm_toNat (e : Fin 254) (f : BitVec 23) :
    (F32.norm false e f).toBits.toNat = (e.val + 1) * 2 ^ 23 + f.toNat := by
  have he := e.isLt
  have hf := f.isLt
  rw [F32.toBits, packBits, BitVec.toNat_append, BitVec.toNat_append, ← Nat.shiftLeft_add_eq_or_of_lt hf,
    BitVec.toNat_ofNat, Nat.mod_eq_of_lt (by omega), Nat.shiftLeft_eq]
  simp

/-- Positive normal values and their bit patterns have the same order. -/
theorem F32.toBits_lt_of_key_lt {x y : F32} (hx : x.isPositiveNormal = true) (hy : y.isPositiveNormal = true)
    (h : x.key < y.key) : x.toBits.toNat < y.toBits.toNat := by
  obtain ⟨e, f, rfl⟩ := F32.isPositiveNormal_iff.1 hx
  obtain ⟨e', f', rfl⟩ := F32.isPositiveNormal_iff.1 hy
  have hf := f.isLt
  have hf' := f'.isLt
  rw [F32.toBits_norm_toNat, F32.toBits_norm_toNat]
  rw [F32.key_norm', F32.key_norm', if_neg (by simp), if_neg (by simp), Nat.cast_lt] at h
  rcases lt_trichotomy e.val e'.val with hlt | heq | hgt
  · omega
  · rw [heq] at h ⊢
    have := Nat.lt_of_mul_lt_mul_right h
    omega
  · have : (2 ^ 23 + f'.toNat) * 2 ^ e'.val ≤ (2 ^ 23 + f.toNat) * 2 ^ e.val :=
      calc _ ≤ 2 ^ 24 * 2 ^ e'.val := Nat.mul_le_mul_right _ (by omega)
        _ = 2 ^ 23 * 2 ^ (e'.val + 1) := by ring
        _ ≤ 2 ^ 23 * 2 ^ e.val := Nat.mul_le_mul_left _ (Nat.pow_le_pow_right (by norm_num) hgt)
        _ ≤ _ := Nat.mul_le_mul_right _ (by omega)
    omega

end Sys2Proof
end

section
/-!
SUPPORT. One release step, and how a release ends or does not (spec/40_envelope.md rules R108 and R111).
-/

namespace Sys2Proof.Machine

/-! ### Amplitudes from which a release goes on -/

/-- An amplitude in [`REL_THRESHOLD`, 1]. -/
def Held (a : F32) : Prop := F32.le c_REL_THRESHOLD a = true ∧ F32.le a c_ONE = true

theorem threshold_spec : c_REL_THRESHOLD.isPositiveNormal = true ∧ 2 ^ 139 ≤ c_REL_THRESHOLD.key := by decide +kernel

section Held
variable {a b : F32}

theorem held_iff : Held a ↔ inUnit a ∧ c_REL_THRESHOLD.key ≤ a.key := by
  have hthr := threshold_spec.2
  have hn := F32.ne_nan_of_positive threshold_spec.1
  rw [Held, F32.le_iff, F32.le_iff, inUnit_iff_key]
  constructor
  · rintro ⟨⟨-, ha, hlo⟩, -, -, hhi⟩
    exact ⟨⟨ha, by omega, hhi⟩, hlo⟩
  · rintro ⟨⟨ha, -, hhi⟩, hlo⟩
    exact ⟨⟨hn, ha, hlo⟩, ha, F32.isFinite_not_nan one_toRat.1, hhi⟩

theorem held_iff_not_lt (ha : inUnit a) : Held a ↔ ¬ F32.lt a c_REL_THRESHOLD = true := by
  have hn := F32.ne_nan_of_positive threshold_spec.1
  rw [held_iff, F32.lt_iff]
  simp [ha, hn, (inUnit_iff_key.1 ha).1]

theorem Held.isPositiveNormal (h : Held a) : a.isPositiveNormal = true := by
  have hthr := threshold_spec.2
  obtain ⟨hunit, hlo⟩ := held_iff.1 h
  cases a with
  | norm s e f =>
    cases s with
    | false => rfl
    | true =>
      rw [F32.key_norm', if_pos rfl] at hlo
      omega
  | zero s => rw [F32.key_zero] at hlo; omega
  | _ => exact absurd (inUnit_iff.1 hunit).1 (by simp [F32.isFinite])

/-- An amplitude in [`REL_THRESHOLD`, 1] in steps of the grid just below it. -/
theorem Held.exists_steps (h : Held a) :
    ∃ m e : Nat, 2 ^ 23 < m ∧ m ≤ 2 ^ 24 ∧ 115 ≤ e ∧ m * 2 ^ e < magTop ∧ a.units = m * 2 ^ e := by
  have hfin := F32.isFinite_of_positive h.isPositiveNormal
  have hlo := threshold_spec.2.trans (held_iff.1 h).2
  have htop := ((F32.isFinite_iff_key (F32.isFinite_not_nan hfin)).1 hfin).2
  rw [F32.key_eq_units hfin] at hlo htop
  rw [keyTop] at htop
  obtain ⟨m, e, hm, hm', hu⟩ := F32.exists_steps h.isPositiveNormal (by omega)
  rw [hu] at hlo htop
  have hpow : 2 ^ 139 ≤ 2 ^ (24 + e) := by
    calc 2 ^ 139 ≤ m * 2 ^ e := by exact_mod_cast hlo
      _ ≤ 2 ^ 24 * 2 ^ e := Nat.mul_le_mul_right _ hm'
      _ = 2 ^ (24 + e) := (pow_add ..).symm
  have he := (Nat.pow_le_pow_iff_right (by norm_num)).1 hpow
  exact ⟨m, e, hm, hm', by omega, by exact_mod_cast htop, hu⟩

/-! ### The bound on the TICKs of a release -/

theorem releaseBound_of_lt (h : F32.lt a c_REL_THRESHOLD = true) : releaseBound a = 1 := if_pos h

theorem Held.releaseBound_eq (h : Held a) :
    releaseBound a = a.toBits.toNat - c_REL_THRESHOLD.toBits.toNat + 1 :=
  if_neg ((held_iff_not_lt (held_iff.1 h).1).1 h)

theorem releaseBound_pos (a : F32) : 1 ≤ releaseBound a := by
  unfold releaseBound
  split_ifs <;> omega

theorem Held.threshold_le_toBits (h : Held a) : c_REL_THRESHOLD.toBits.toNat ≤ a.toBits.toNat := by
  have hthr := threshold_spec.2
  rcases (held_iff.1 h).2.lt_or_eq with hlt | heq
  · exact (F32.toBits_lt_of_key_lt threshold_spec.1 h.isPositiveNormal hlt).le
  · rw [F32.eq_of_key_eq (F32.ne_nan_of_positive threshold_spec.1) (F32.ne_nan_of_positive h.isPositiveNormal) heq
      (by omega)]

/-- From `REL_THRESHOLD` up the bound rises with the amplitude. -/
theorem releaseBound_lt_of_key_lt (ha : Held a) (hb : Held b) (h : a.key < b.key) :
    releaseBound a < releaseBound b := by
  have hbits := F32.toBits_lt_of_key_lt ha.isPositiveNormal hb.isPositiveNormal h
  have hthr := ha.threshold_le_toBits
  rw [ha.releaseBound_eq, hb.releaseBound_eq]
  omega

theorem releaseBound_mono (ha : inUnit a) (hb : inUnit b) (h : F32.le a b = true) :
    releaseBound a ≤ releaseBound b := by
  obtain ⟨han, hbn, hkey⟩ := F32.le_iff.1 h
  by_cases hlt : F32.lt a c_REL_THRESHOLD = true
  · rw [releaseBound_of_lt hlt]; exact releaseBound_pos b
  · have hheld := (held_iff_not_lt ha).2 hlt
    have hthr := (held_iff.1 hheld).2
    rcases hkey.lt_or_eq with hklt | heq
    · exact (releaseBound_lt_of_key_lt hheld (held_iff.2 ⟨hb, by omega⟩) hklt).le
    · have := threshold_spec.2
      rw [F32.eq_of_key_eq han hbn heq (by omega)]

end Held

/-! ### One release step -/

section step
variable {cfg : Cfg} {a : F32}

theorem relK_finite (hl : cfg.toParams.legal = true) : (relK cfg).isFinite = true ∧ (relK cfg).sign = false :=
  increments_finite hl (relK cfg) (by simp)

/-- A release step never raises the amplitude. -/
theorem releaseStep_key_le (hl : cfg.toParams.legal = true) (ha : inUnit a) : (releaseStep cfg a).key ≤ a.key := by
  obtain ⟨hffin, hf0⟩ := release_fall ha (relK_finite hl).1 (relK_finite hl).2
  exact F32.sub_key_le (inUnit_iff.1 ha).1 hffin (inUnit_iff.1 ha).1 (by linarith)

/-- While `REL_K` is at least `2^-23`, a release step takes off at least one step of the grid below the amplitude. -/
theorem step_le_fall {m e : Nat} (hl : cfg.toParams.legal = true)
    (hr : F32.le (F32.F (mkRat 1 (2 ^ 23))) (relK cfg) = true) (ha : inUnit a) (hm : 2 ^ 23 < m) (he : 23 ≤ e)
    (htop : 2 ^ e < magTop) (hu : a.units = m * 2 ^ e) : 2 ^ e ≤ (a.mul (relK cfg)).toRat * 2 ^ 149 := by
  obtain ⟨hrfin, hrs⟩ := relK_finite hl
  have hF : (F32.F (mkRat 1 (2 ^ 23))).isFinite = true ∧ (F32.F (mkRat 1 (2 ^ 23))).toRat = 1 / 2 ^ 23 := by
    decide +kernel
  rw [F32.le_of_finite hF.1 hrfin, hF.2, decide_eq_true_iff] at hr
  have hm' : (2 ^ 23 : ℚ) ≤ m := by exact_mod_cast hm.le
  obtain ⟨y, hyfin, hy⟩ := F32.exists_of_steps (k := 1) (e := e) (by norm_num)
    (by rw [one_mul]; exact Nat.pow_le_pow_right (by norm_num) he) (by rwa [one_mul])
  have hexact : y.toRat ≤ a.toRat * (relK cfg).toRat := by
    refine le_of_mul_le_mul_right ?_ (by positivity : (0 : ℚ) < 2 ^ 149)
    calc y.toRat * 2 ^ 149 = 2 ^ 23 * 2 ^ e * (1 / 2 ^ 23) := by rw [hy]; push_cast; ring
      _ ≤ m * 2 ^ e * (relK cfg).toRat :=
        mul_le_mul (mul_le_mul_of_nonneg_right hm' (by positivity)) hr (by positivity) (by positivity)
      _ = a.toRat * 2 ^ 149 * (relK cfg).toRat := by rw [F32.toRat_mul_units, hu]; push_cast; rfl
      _ = a.toRat * (relK cfg).toRat * 2 ^ 149 := by ring
  have hfin := (inUnit_iff.1 ha).1
  have hle := (F32.toRat_le_iff hyfin (release_fall ha hrfin hrs).1).2 (F32.le_mul_key hfin hrfin hyfin hexact)
  calc (2 ^ e : ℚ) = y.toRat * 2 ^ 149 := by rw [hy]; push_cast; ring
    _ ≤ _ := mul_le_mul_of_nonneg_right hle (by positivity)

/-- While `REL_K` is at least `2^-23`, a release step strictly lowers the amplitude. -/
theorem releaseStep_lt (hl : cfg.toParams.legal = true) (hr : F32.le (F32.F (mkRat 1 (2 ^ 23))) (relK cfg) = true)
    (ha : Held a) : F32.lt (releaseStep cfg a) a = true := by
  obtain ⟨hunit, -⟩ := held_iff.1 ha
  have hfin := (inUnit_iff.1 hunit).1
  obtain ⟨hffin, -⟩ := release_fall hunit (relK_finite hl).1 (relK_finite hl).2
  obtain ⟨m, e, hm, hm', he, htop, hu⟩ := ha.exists_steps
  have hpow : 2 ^ 23 ≤ 2 ^ e := Nat.pow_le_pow_right (by norm_num) (by omega)
  have hfall := step_le_fall hl hr hunit hm (by omega) (lt_of_le_of_lt (Nat.le_mul_of_pos_left _ (by omega)) htop) hu
  obtain ⟨y, hyfin, hy⟩ := F32.exists_of_steps (k := m - 1) (e := e) (by omega)
    (hpow.trans (Nat.le_mul_of_pos_left _ (by omega))) (lt_of_le_of_lt (Nat.mul_le_mul_right _ (by omega)) htop)
  have hstep : y.toRat * 2 ^ 149 = a.toRat * 2 ^ 149 - 2 ^ e := by
    rw [hy, F32.toRat_mul_units, hu, Nat.cast_pred (by omega)]
    push_cast
    ring
  have hkey := F32.sub_key_le hfin hffin hyfin (show a.toRat - (a.mul (relK cfg)).toRat ≤ y.toRat by linarith)
  have hlt : y.key < a.key := by
    have hp : (0 : ℚ) < 2 ^ e := by positivity
    rw [← not_le, ← F32.toRat_le_iff hfin hyfin]
    linarith
  exact F32.lt_iff.2 ⟨(F32.sub_finite hfin hffin).1, F32.isFinite_not_nan hfin, hkey.trans_lt hlt⟩

/-- A value below `2^-25` is at most its predecessor. -/
theorem toRat_le_of_lt_two_pow_neg_25 {r : F32} (hfin : r.isFinite = true)
    (h : F32.lt r (F32.F (mkRat 1 (2 ^ 25))) = true) :
    r.toRat ≤ (2 ^ 24 - 1) / 2 ^ 49 := by
  have hF : (F32.F (mkRat 1 (2 ^ 25))).isFinite = true ∧ (F32.F (mkRat 1 (2 ^ 25))).key = 2 ^ 124 := by decide +kernel
  have hu : r.units < 2 ^ 124 := by
    rw [← F32.key_eq_units hfin, ← hF.2]
    exact (F32.lt_iff.1 h).2.2
  have hle : r.units ≤ (2 ^ 24 - 1) * 2 ^ 100 := by
    rcases F32.units_lt_or_dvd r 100 with hlt | ⟨k, hk⟩
    · have := lt_of_le_of_lt (le_abs_self _) hlt
      omega
    · omega
  have hle : (r.units : ℚ) ≤ (2 ^ 24 - 1) * 2 ^ 100 := by exact_mod_cast hle
  rw [F32.toRat_eq, div_le_div_iff₀ (by positivity) (by positivity)]
  linarith

/-- While `REL_K` is below `2^-25`, a release step takes off less than half a step of the grid below the amplitude. -/
theorem fall_lt_half_step {m e : Nat} (hl : cfg.toParams.legal = true)
    (hr : F32.lt (relK cfg) (F32.F (mkRat 1 (2 ^ 25))) = true) (ha : inUnit a) (hm : m ≤ 2 ^ 24) (he : 48 ≤ e)
    (htop : 2 ^ e < magTop) (hu : a.units = m * 2 ^ e) : (a.mul (relK cfg)).toRat * 2 ^ 149 < 1 / 2 * 2 ^ e := by
  obtain ⟨hrfin, hrs⟩ := relK_finite hl
  have hr' := toRat_le_of_lt_two_pow_neg_25 hrfin hr
  have hr0 := F32.toRat_nonneg_of_sign hrs
  obtain ⟨d, rfl⟩ := Nat.exists_eq_add_of_le' (show 25 ≤ e by omega)
  have hm' : (m : ℚ) ≤ 2 ^ 24 := by exact_mod_cast hm
  have hd : 2 ^ 23 ≤ 2 ^ d := Nat.pow_le_pow_right (by norm_num) (by omega)
  obtain ⟨y, hyfin, hy⟩ := F32.exists_of_steps (k := 2 ^ 24 - 1) (e := d) (by norm_num) (by omega)
    (lt_of_le_of_lt (by rw [pow_add]; omega) htop)
  have hexact : a.toRat * (relK cfg).toRat ≤ y.toRat := by
    refine le_of_mul_le_mul_right ?_ (by positivity : (0 : ℚ) < 2 ^ 149)
    calc a.toRat * (relK cfg).toRat * 2 ^ 149 = a.toRat * 2 ^ 149 * (relK cfg).toRat := by ring
      _ = m * 2 ^ (d + 25) * (relK cfg).toRat := by rw [F32.toRat_mul_units, hu]; push_cast; rfl
      _ ≤ 2 ^ 24 * 2 ^ (d + 25) * ((2 ^ 24 - 1) / 2 ^ 49) := by gcongr
      _ = y.toRat * 2 ^ 149 := by rw [hy, pow_add]; norm_num; ring
  have hle := (F32.toRat_le_iff (release_fall ha hrfin hrs).1 hyfin).2
    (F32.mul_key_le (inUnit_iff.1 ha).1 hrfin hyfin hexact)
  have hp : (0 : ℚ) < 2 ^ d := by positivity
  calc (a.mul (relK cfg)).toRat * 2 ^ 149 ≤ y.toRat * 2 ^ 149 := by gcongr
    _ < 1 / 2 * 2 ^ (d + 25) := by rw [hy, pow_add]; norm_num; linarith

/-- While `REL_K` is below `2^-25`, a release step rounds back to the amplitude. -/
theorem releaseStep_eq (hl : cfg.toParams.legal = true) (hr : F32.lt (relK cfg) (F32.F (mkRat 1 (2 ^ 25))) = true)
    (ha : Held a) : releaseStep cfg a = a := by
  obtain ⟨hunit, -⟩ := held_iff.1 ha
  have hfin := (inUnit_iff.1 hunit).1
  obtain ⟨hffin, hf0⟩ := release_fall hunit (relK_finite hl).1 (relK_finite hl).2
  obtain ⟨m, e, hm, hm', he, htop, hu⟩ := ha.exists_steps
  have hfall := fall_lt_half_step hl hr hunit hm' (by omega)
    (lt_of_le_of_lt (Nat.le_mul_of_pos_left _ (by omega)) htop) hu
  have hlo : (m - 1 / 2) * 2 ^ e < (a.toRat - (a.mul (relK cfg)).toRat) * 2 ^ 149 := by
    rw [sub_mul (a.toRat), F32.toRat_mul_units a, hu]
    push_cast
    linarith
  have hne : a.toRat - (a.mul (relK cfg)).toRat ≠ 0 := by
    have : (0 : ℚ) < (m - 1 / 2) * 2 ^ e := by
      have : (2 ^ 23 : ℚ) < m := by exact_mod_cast hm
      exact mul_pos (by linarith) (by positivity)
    intro h
    rw [h] at hlo
    linarith
  rw [releaseStep, F32.sub_of_finite hfin hffin, if_neg hne]
  exact F32.F_eq_of_near hm hfin hu hlo (by linarith)

end step

/-! ### How a release ends -/

section release
variable {cfg : Cfg} {k : SlotIndex}

/-- An invalid slot stays invalid through TICKs alone. -/
theorem tickWith_iterate_slot_of_none {s : State} (h : s.slot k = none) (n : Nat) :
    ((tickWith cfg)^[n] s).slot k = none := by
  induction n generalizing s with
  | zero => exact h
  | succ n ih => exact ih (tickWith_slot_of_none h)

/-- A release step that does not end the release lowers the bound. -/
theorem releaseBound_releaseStep_lt {a : F32} (hl : cfg.toParams.legal = true)
    (hr : F32.le (F32.F (mkRat 1 (2 ^ 23))) (relK cfg) = true) (ha : inUnit a) (hx : Held (releaseStep cfg a)) :
    releaseBound (releaseStep cfg a) < releaseBound a := by
  have hheld : Held a := held_iff.2 ⟨ha, (held_iff.1 hx).2.trans (releaseStep_key_le hl ha)⟩
  exact releaseBound_lt_of_key_lt hx hheld (F32.lt_iff.1 (releaseStep_lt hl hr hheld)).2.2

/-- Within the bound of its amplitude a voice in RELEASE is removed: each TICK removes it or lowers the bound. -/
theorem release_removed_within (hl : cfg.toParams.legal = true)
    (hr : F32.le (F32.F (mkRat 1 (2 ^ 23))) (relK cfg) = true) (n : Nat) {s : State} {v : Voice}
    (hk : s.slot k = some v) (hs : v.envState = .release) (hv : inUnit v.envAmp) (hn : releaseBound v.envAmp ≤ n) :
    ((tickWith cfg)^[n] s).slot k = none := by
  induction n generalizing s v with
  | zero => have := releaseBound_pos v.envAmp; omega
  | succ n ih =>
    have htick := tickWith_slot_of_release (cfg := cfg) hk hs
    rw [Function.iterate_succ_apply]
    by_cases hlt : F32.lt (releaseStep cfg v.envAmp) c_REL_THRESHOLD = true
    · rw [if_pos hlt] at htick
      exact tickWith_iterate_slot_of_none htick n
    · rw [if_neg hlt] at htick
      have hx := inUnit_releaseStep hv (relK_finite hl).1 (relK_finite hl).2 (by simpa using hlt)
      have hbound := releaseBound_releaseStep_lt hl hr hv ((held_iff_not_lt hx).2 hlt)
      exact ih htick hs hx (by dsimp only; omega)

end release

/-! ### The obligations -/

/-- Settles O17: the step takes off at least the distance to the value below. -/
theorem releaseStepStrictlyFalls : Obligations.ReleaseStepStrictlyFalls :=
  fun _ _ hl hr hlo hhi => releaseStep_lt hl hr ⟨hlo, hhi⟩

/-- Settles O18, by induction on the number of TICKs. -/
theorem releaseEndsWithinBound : Obligations.ReleaseEndsWithinBound :=
  ⟨fun _ => releaseBound_of_lt, fun _ _ => releaseBound_mono,
    fun _ _ _ _ hl hr hk hs hv n hn => release_removed_within hl hr n hk hs hv hn⟩

/-- Settles O19: what a step takes off is less than half the distance to the value below. -/
theorem slowReleaseNeverEnds : Obligations.SlowReleaseNeverEnds := by
  intro cfg s k v hl hr hk hs hlo hhi
  have hheld : Held v.envAmp := ⟨hlo, hhi⟩
  rw [tickWith_slot_of_release hk hs, releaseStep_eq hl hr hheld,
    if_neg ((held_iff_not_lt (held_iff.1 hheld).1).1 hheld)]

end Sys2Proof.Machine
end

section
/-!
SUPPORT. The event-port operations: what NOTE_ON and NOTE_OFF do to the slot of their key, and that the other commands
do nothing (spec/41_note_events.md rules R120 to R122).
-/

namespace Sys2Proof.Machine

/-! ### Writing a slot -/

theorem eq_slotIndex_iff {j : SlotIndex} {key : Key} : j = slotIndex key ↔ j.val = key.toNat := Fin.ext_iff

/-- Writing back what a slot holds changes nothing. -/
@[simp] theorem setSlot_slot_self (s : State) (k : SlotIndex) : s.setSlot k (s.slot k) = s := by
  rw [State.setSlot, State.slot, Fin.getElem_fin, Vector.set_getElem_self]

/-- Writing a voice raises `VOICE_COUNT` by 1 where the slot was not valid (R31). -/
theorem voiceCount_setSlot_some (s : State) (k : SlotIndex) (v : Voice) :
    (s.setSlot k (some v)).voiceCount.toNat = s.voiceCount.toNat + (if s.valid k then 0 else 1) := by
  have hset := validCount_setSlot s k (some v)
  rw [Option.isSome_some, if_pos rfl] at hset
  rw [voiceCount_toNat, voiceCount_toNat]
  split_ifs at hset ⊢ <;> omega

/-- A write that keeps `VALID[k]` keeps `VOICE_COUNT` (R31). -/
theorem voiceCount_setSlot_of_valid_eq {s : State} {k : SlotIndex} {v : Option Voice} (h : v.isSome = s.valid k) :
    (s.setSlot k v).voiceCount = s.voiceCount := by
  have hset := validCount_setSlot s k v
  rw [h] at hset
  rw [State.voiceCount, State.voiceCount, Nat.add_right_cancel hset]

/-- ENV_RELEASE changes nothing in RELEASE (R102). -/
theorem envRelease_of_release {v : Voice} (h : v.envState = .release) : envRelease v = v := by
  obtain ⟨freq, vel, phase, envState, envAmp⟩ := v
  cases h
  rfl

/-! ### The obligations -/

/-- Settles O7: the operation writes the started voice to its slot and does nothing else. -/
theorem noteOnStartsVoice : Obligations.NoteOnStartsVoice := by
  refine ⟨fun _ => decodeCommand_of_noteOn, fun key freq vel s =>
    ⟨_, exec_noteOn key freq vel s, fun j => ?_, voiceCount_setSlot_some .., rfl⟩⟩
  simp only [slot_setSlot, eq_slotIndex_iff]
  rfl

/-- Settles O8: the operation writes the slot's own content back, released; nothing, where the slot is empty. -/
theorem noteOffReleasesVoice : Obligations.NoteOffReleasesVoice := by
  refine ⟨fun _ => decodeCommand_of_noteOff, fun key s =>
    ⟨_, exec_noteOff key s, fun habsent => ?_, fun v hv => ⟨?_, fun hrel => ?_⟩, fun j hj => ?_, ?_, rfl⟩⟩
  · rw [habsent, Option.map_none, ← habsent, setSlot_slot_self]
  · rw [slot_setSlot_same, hv]
    rfl
  · rw [hv, Option.map_some, envRelease_of_release hrel, ← hv, setSlot_slot_self]
  · exact slot_setSlot_of_ne _ _ _ (mt eq_slotIndex_iff.1 hj)
  · exact voiceCount_setSlot_of_valid_eq Option.isSome_map

/-- Settles O9: a word's OP value selects NOP or a reserved operation, and each of them does nothing. -/
theorem nopAndReservedChangeNothing : Obligations.NopAndReservedChangeNothing := by
  refine fun s => ⟨fun w hop => ?_, exec_nop s, rfl, fun op => ⟨rfl, rfl, rfl, rfl, rfl, rfl⟩⟩
  rcases hop with hnop | hreserved
  · rw [decodeCommand_of_nop hnop, exec_nop]
  · exact exec_decodeCommand_of_reserved hreserved s

end Sys2Proof.Machine
end

section
/-!
SUPPORT. One whole TICK: what it does to each slot, what its shared stages compute, and how a value that is not finite
passes through them (spec/42_generate_sample.md rules R131 to R147; spec/70_reset_and_hazards.md rule R197).
-/

namespace Sys2Proof

/-! ### Values that are not finite -/

section notFinite
variable {a b : F32}

@[simp] theorem F32.add_nan : a.add .nan = .nan := (F32.op_nan a .add (by simp)).1
@[simp] theorem F32.nan_add : F32.nan.add a = .nan := (F32.op_nan a .add (by simp)).2
@[simp] theorem F32.mul_nan : a.mul .nan = .nan := (F32.op_nan a .mul (by simp)).1
@[simp] theorem F32.nan_mul : F32.nan.mul a = .nan := (F32.op_nan a .mul (by simp)).2

/-- No sum with a NaN or an infinity is finite. -/
theorem F32.add_not_finite (hb : b.isFinite = false) : (a.add b).isFinite = false := by
  cases b with
  | nan => rw [F32.add_nan]; rfl
  | inf s =>
    cases a with
    | nan => rw [F32.nan_add]; rfl
    | inf s' => cases s <;> cases s' <;> rfl
    | zero s' => rw [(F32.add_inf_finite s rfl).2]; rfl
    | norm s' e f => rw [(F32.add_inf_finite s rfl).2]; rfl
  | zero s => cases hb
  | norm s e f => cases hb

/-- No multiple of a NaN or an infinity by a normal value is finite. -/
theorem F32.mul_not_finite (ha : a.isNormal = true) (hb : b.isFinite = false) : (a.mul b).isFinite = false := by
  cases b with
  | nan => rw [F32.mul_nan]; rfl
  | inf s => rw [(F32.mul_inf_finite s (F32.isNormal_isFinite ha) (F32.isZero_of_normal ha)).2]; rfl
  | zero s => cases hb
  | norm s e f => cases hb

end notFinite

/-! ### The word of a sample (R146) -/

theorem isNaNWord_nanWord (n : Nat) : isNaNWord (nanWord n) = true := by
  unfold nanWord
  split_ifs with h
  · exact h
  · decide

theorem sampleWord_of_ne_nan {x : F32} (n : Nat) (h : x ≠ .nan) : sampleWord n x = x.toBits := by
  cases x with
  | nan => exact absurd rfl h
  | _ => rfl

theorem isNaNWord_sampleWord {x : F32} (n : Nat) (h : x = .nan) : isNaNWord (sampleWord n x) = true := by
  rw [h]; exact isNaNWord_nanWord n

end Sys2Proof

namespace Sys2Proof.Machine

/-! ### Slot by slot -/

/-- One voice's part of a TICK as a single conditional: the removal of R131, else R132 to R140. -/
theorem voiceTick_eq (cfg : Cfg) (k : SlotIndex) (v : Voice) :
    voiceTick cfg k v =
      if F32.feq (envProcess cfg v).2 F32.posZero = true ∧ (envProcess cfg v).1.envState = .idle then none
      else some ({ (envProcess cfg v).1 with phase := nextPhase cfg v },
        voiceOut cfg k v.vel (nextPhase cfg v) (envProcess cfg v).2) := by
  rcases voiceTick_cases cfg k v with ⟨hzero, hidle, h⟩ | ⟨hkept, h⟩
  · rw [if_pos ⟨hzero, hidle⟩, h]
  · rw [if_neg hkept, h]

/-- Settles O20: each slot's part is `voiceTick` of its voice, and the buffer takes the sum of the contributions. -/
theorem tickProcessesEachSlot : Obligations.TickProcessesEachSlot := by
  refine fun s => ⟨_, exec_tick s, ?_⟩
  intro part
  have hpart : part = fun k => (s.slot k).bind (voiceTick Config.cfg k) :=
    funext fun k => congrArg (s.slot k).bind (funext fun v => (voiceTick_eq Config.cfg k v).symm)
  simp only [hpart, Option.map_bind]
  refine ⟨tickWith_slot Config.cfg s, ?_⟩
  rw [tickWith_resBuf, tickBuffer, resPush_toList, mixed, contributions_eq]
  rfl

/-- Settles O21: the shared stages are the model's by definition, and a word is the sample's pattern or a NaN's. -/
theorem tickSharedStages : Obligations.TickSharedStages := fun s =>
  ⟨_, _, exec_tick s, rfl, rfl, rfl, ⟨sampleWord_of_ne_nan s.draws, isNaNWord_sampleWord s.draws⟩,
    rfl, rfl, rfl, rfl, rfl⟩

/-! ### A filter state that is not finite (R197) -/

section filter
variable {cfg : Cfg} {s : State}

theorem filterOutput_not_finite (h : s.lpfPrev.isFinite = false) : (filterOutput cfg s).isFinite = false :=
  F32.add_not_finite (F32.mul_not_finite (by decide +kernel) h)

theorem filterOutput_of_nan (h : s.lpfPrev = .nan) : filterOutput cfg s = .nan := by
  rw [filterOutput, lowPass, h, F32.mul_nan, F32.add_nan]

theorem sampleValue_not_finite (h : s.lpfPrev.isFinite = false) : (sampleValue cfg s).isFinite = false :=
  F32.mul_not_finite (by decide +kernel) (filterOutput_not_finite h)

end filter

/-- Settles O38: TICK filters a value that is not finite into one, and the other operations leave `LPF_PREV` alone. -/
theorem nonFiniteFilterUntilReset : Obligations.NonFiniteFilterUntilReset := by
  intro s i hs hreset
  by_cases htick : i = .tick
  · subst htick
    refine ⟨_, exec_tick s, filterOutput_not_finite hs, filterOutput_of_nan, fun _ => ⟨_, rfl, ?_⟩⟩
    rw [ofBits_sampleWord]
    exact sampleValue_not_finite hs
  · obtain ⟨t, ht⟩ := exec_next i s
    obtain ⟨-, hlpf, -⟩ := sharedStateWrittenOnlyBy i s t ht htick hreset
    exact ⟨t, ht, hlpf ▸ hs, fun hnan => hlpf.trans hnan, fun h => absurd h htick⟩

/-! ### A voice with a NaN phase (R197) -/

section nanPhase
variable {cfg : Cfg} {s : State} {k : SlotIndex} {v v' : Voice}

/-- A NaN phase stays a NaN (R134). -/
theorem nextPhase_of_nan (h : v.phase = .nan) : nextPhase cfg v = .nan := by
  rw [nextPhase, h, F32.nan_add, wrap_of_not_finite rfl]

/-- At a NaN phase the sine outputs, and with them the contribution, are NaN (R17 (c), R136 to R140). -/
theorem voiceOut_of_nan (hsin : SineOk cfg.sin) (vel a : F32) : voiceOut cfg k vel .nan a = .nan := by
  simp [voiceOut, voiceWave, waveform, hsin.atNaN]

/-- One NaN contribution makes the mixed sample a NaN (R16, R141). -/
theorem mixed_of_nan (hk : s.slot k = some v) (ht : voiceTick cfg k v = some (v', .nan)) :
    mixed cfg s.slots = .nan := by
  refine sumOver_nan (.inl ?_)
  rw [contributions_eq, List.mem_filterMap]
  exact ⟨k, List.mem_finRange k, by rw [hk, Option.bind_some, ht]; rfl⟩

theorem filterOutput_of_mixed_nan (h : mixed cfg s.slots = .nan) : filterOutput cfg s = .nan := by
  rw [filterOutput, lowPass, withResonance, h, F32.nan_add, F32.mul_nan, F32.nan_add]

theorem tickWith_newest (cfg : Cfg) (s : State) :
    (tickWith cfg s).resBuf.toList.getLast? = some (c_RES_FACTOR.mul (mixed cfg s.slots)) := by
  rw [tickWith_resBuf, tickBuffer, resPush_toList, List.getLast?_concat]

end nanPhase

/-- Settles O39: the voice is removed, or it goes on with a NaN phase and contributes a NaN. -/
theorem naNPhasePoisonsSample : Obligations.NaNPhasePoisonsSample := by
  intro s k v hk hv
  refine ⟨_, exec_tick s, ?_⟩
  rw [tickWith_slot_of_some hk]
  rcases voiceTick_cases Config.cfg k v with ⟨-, -, ht⟩ | ⟨-, ht⟩
  · left
    rw [ht, Option.map_none]
  · right
    rw [nextPhase_of_nan hv, voiceOut_of_nan cfg_sine_ok] at ht
    have hmix := mixed_of_nan hk ht
    have hfilter := filterOutput_of_mixed_nan hmix
    refine ⟨by rw [ht, Option.map_some], hfilter, ?_, _, rfl, isNaNWord_sampleWord _ ?_⟩
    · rw [tickWith_newest, hmix, F32.mul_nan]
    · rw [sampleValue, hfilter, F32.mul_nan]

end Sys2Proof.Machine
end

section
/-!
SUPPORT. How far a rounding can raise a magnitude, and the largest finite value as the bound that says "finite"
(spec/00_scope.md rule R11).
-/

namespace Sys2Proof

/-! ### Rounding up -/

theorem F32.abs_key_F (q : ℚ) : |(F32.F q).key| = flushCap (gridOf q) := by
  rw [F32.key_F]
  split_ifs
  · rw [abs_neg, Nat.abs_cast]
  · exact Nat.abs_cast _

theorem F32.abs_key_F_mono {p q : ℚ} (h : |p| ≤ |q|) : |(F32.F p).key| ≤ |(F32.F q).key| := by
  rw [F32.abs_key_F, F32.abs_key_F]
  exact_mod_cast flushCap_mono (gridOf_mono h)

/-- A result that is not flushed has 24 significant bits on its grid. -/
theorem gridBottom_le_gridOf {q : ℚ} (h : 2 ^ 23 ≤ gridOf q) : 2 ^ 23 * 2 ^ gridExpOf q ≤ gridOf q := by
  rcases Nat.eq_zero_or_pos (gridExpOf q) with h0 | h0
  · rwa [h0, pow_zero, mul_one]
  · exact Nat.mul_le_mul_right _ (gridRound_ge_bottom q.den_pos h0)

/-- Rounding raises a magnitude by at most one part in `2^24` of the result. -/
theorem F32.abs_toRat_F_le {q : ℚ} (h : (F32.F q).isFinite = true) : |(F32.F q).toRat| * (1 - 1 / 2 ^ 24) ≤ |q| := by
  have hr : |(F32.F q).toRat| * 2 ^ 149 = flushCap (gridOf q) := by
    rw [F32.toRat_eq_key h, abs_div, abs_of_pos (show (0 : ℚ) < 2 ^ 149 by positivity),
      div_mul_cancel₀ _ (by positivity)]
    exact_mod_cast F32.abs_key_F q
  have hle : (flushCap (gridOf q) : ℚ) * (1 - 1 / 2 ^ 24) ≤ |q| * 2 ^ 149 := by
    rcases Nat.lt_or_ge (gridOf q) (2 ^ 23) with hlt | hge
    · rw [flushCap, if_pos hlt, Nat.cast_zero, zero_mul]
      positivity
    · rw [flushCap, if_neg hge.not_gt, min_eq_left ((F32.isFinite_F_iff q).1 h).le]
      have hnear := (abs_le.1 (gridOf_within q)).1
      have hbot : ((2 : ℚ) ^ 23 * 2 ^ gridExpOf q) ≤ gridOf q := by exact_mod_cast gridBottom_le_gridOf hge
      linarith
  have hpow : (0 : ℚ) < 2 ^ 149 := by positivity
  refine le_of_mul_le_mul_right ?_ hpow
  calc _ = |(F32.F q).toRat| * 2 ^ 149 * (1 - 1 / 2 ^ 24) := by ring
    _ ≤ _ := by rw [hr]; exact hle

/-! ### Finite values with a given key -/

/-- Equal keys, away from NaN, mean equal finite values, up to the sign of a zero. -/
theorem F32.toRat_eq_of_key_eq {x y : F32} (hx : x.isFinite = true) (hy : y ≠ .nan) (h : y.key = x.key) :
    y.isFinite = true ∧ y.toRat = x.toRat := by
  have hfin : y.isFinite = true := by
    rw [F32.isFinite_iff_key hy, h]
    exact (F32.isFinite_iff_key (F32.isFinite_not_nan hx)).1 hx
  exact ⟨hfin, by rw [F32.toRat_eq_key hfin, F32.toRat_eq_key hx, h]⟩

/-- Adding +0 keeps the value of a finite operand. -/
theorem F32.posZero_add {x : F32} (hx : x.isFinite = true) :
    (F32.posZero.add x).isFinite = true ∧ (F32.posZero.add x).toRat = x.toRat := by
  obtain ⟨hn, hk⟩ := F32.add_finite (a := F32.posZero) rfl hx
  rw [F32.toRat_zero, zero_add, F32.key_F_toRat hx] at hk
  exact F32.toRat_eq_of_key_eq hx hn hk

/-- A product that does not overflow exceeds the exact one by at most one part in `2^24`. -/
theorem F32.abs_toRat_mul_le {a b : F32} (ha : a.isFinite = true) (hb : b.isFinite = true)
    (h : (a.mul b).isFinite = true) : |(a.mul b).toRat| * (1 - 1 / 2 ^ 24) ≤ |a.toRat| * |b.toRat| := by
  obtain ⟨-, hk⟩ := F32.mul_finite ha hb
  obtain ⟨hfin, heq⟩ := F32.toRat_eq_of_key_eq h (F32.F_ne_nan _) hk.symm
  rw [← abs_mul, ← heq]
  exact F32.abs_toRat_F_le hfin

theorem F32.abs_key_norm (s : Bool) (e : Fin 254) (f : BitVec 23) :
    |(F32.norm s e f).key| = ((2 ^ 23 + f.toNat) * 2 ^ e.val : Nat) := by
  rw [F32.key_norm']
  split_ifs
  · rw [abs_neg, Nat.abs_cast]
  · exact Nat.abs_cast _

/-- Below the normal range a finite value is a zero (R11). -/
theorem F32.isZero_of_abs_lt {x : F32} (hx : x.isFinite = true) (h : |x.toRat| < 1 / 2 ^ 126) : x.isZero = true := by
  rcases (F32.isFinite_iff x).1 hx with ⟨s, rfl⟩ | ⟨s, e, f, rfl⟩
  · rfl
  · have hlo : (2 ^ 23 : ℚ) ≤ |((F32.norm s e f).key : ℚ)| := by
      rw [← Int.cast_abs, F32.abs_key_norm]
      exact_mod_cast (F32.norm_magnitude e f).1
    rw [F32.toRat_eq_key hx, abs_div, abs_of_pos (show (0 : ℚ) < 2 ^ 149 by positivity),
      div_lt_iff₀ (by positivity)] at h
    linarith

end Sys2Proof

namespace Sys2Proof.Machine

/-! ### The largest finite value -/

/-- The largest finite binary32 value, `(2^24 - 1) × 2^104`. -/
def maxFinite : F32 := F32.ofBits 0x7F7FFFFF#32

theorem maxFinite_spec : maxFinite.isFinite = true ∧ maxFinite.key = ((2 ^ 24 - 1) * 2 ^ 253 : Nat) := by decide +kernel

/-- Finite is within the largest finite value. -/
theorem absLe_maxFinite_iff {x : F32} : absLe x maxFinite ↔ x.isFinite = true := by
  obtain ⟨hmax, hkey⟩ := maxFinite_spec
  refine ⟨fun h => h.isFinite hmax, fun hx => ?_⟩
  refine absLe_iff_key.2 ⟨F32.isFinite_not_nan hx, F32.isFinite_not_nan hmax, ?_⟩
  rw [hkey]
  rcases (F32.isFinite_iff x).1 hx with ⟨s, rfl⟩ | ⟨s, e, f, rfl⟩
  · simp
  · rw [F32.abs_key_norm]
    have hf : 2 ^ 23 + f.toNat ≤ 2 ^ 24 - 1 := by have := f.isLt; omega
    have he : 2 ^ e.val ≤ 2 ^ 253 := Nat.pow_le_pow_right (by norm_num) (by have := e.isLt; omega)
    exact_mod_cast Nat.mul_le_mul hf he

/-- Multiplication by a positive constant, with its rounding, is monotone in the magnitude. -/
theorem absLe.mul_const {c x b : F32} (hx : absLe x b)
    (h : c.isFinite = true ∧ b.isFinite = true ∧ 0 ≤ b.toRat ∧ 0 ≤ (c.mul b).key) : absLe (c.mul x) (c.mul b) := by
  obtain ⟨hc, hb, hb0, hcb⟩ := h
  obtain ⟨hn, hk⟩ := F32.mul_finite hc (hx.isFinite hb)
  obtain ⟨hn', hk'⟩ := F32.mul_finite hc hb
  refine absLe_iff_key.2 ⟨hn, hn', ?_⟩
  rw [← abs_of_nonneg hcb, hk, hk']
  refine F32.abs_key_F_mono ?_
  rw [abs_mul, abs_mul, abs_of_nonneg hb0]
  exact mul_le_mul_of_nonneg_left (hx.toRat_le hb) (abs_nonneg _)

end Sys2Proof.Machine
end

section
/-!
SUPPORT. TICKs without a voice: the resonance and the filter stay finite, and over an empty buffer the filter decays to
zero (spec/42_generate_sample.md rule R148).
-/

namespace Sys2Proof.Machine

/-! ### One silent TICK -/

section silent
variable {cfg : Cfg} {s : State}

/-- Without a voice the mixed sample is +0 (R16, R141). -/
theorem mixed_of_noVoices (h : s.NoVoices) : mixed cfg s.slots = F32.posZero := by
  rw [mixed, contributions_of_noVoices cfg h]; rfl

theorem tickWith_noVoices (h : s.NoVoices) : (tickWith cfg s).NoVoices := fun k => tickWith_slot_of_none (h k)

theorem tickBuffer_posZero (buf : Vector F32 resLen) :
    (tickBuffer buf F32.posZero).toList = buf.toList.tail ++ [F32.posZero] := by
  rw [tickBuffer, resPush_toList, show c_RES_FACTOR.mul F32.posZero = F32.posZero by decide +kernel]

/-- A silent TICK pushes +0 (R143). -/
theorem tickWith_resBuf_of_noVoices (h : s.NoVoices) :
    (tickWith cfg s).resBuf.toList = s.resBuf.toList.tail ++ [F32.posZero] := by
  rw [tickWith_resBuf, mixed_of_noVoices h, tickBuffer_posZero]

/-- What holds of +0 and of every entry before a silent TICK holds of every entry after it. -/
theorem tickWith_resBuf_forall {P : F32 → Prop} (h : s.NoVoices) (h0 : P F32.posZero) (hs : ∀ x ∈ s.resBuf.toList, P x) :
    ∀ x ∈ (tickWith cfg s).resBuf.toList, P x := by
  rw [tickWith_resBuf_of_noVoices h, List.forall_mem_append, List.forall_mem_singleton]
  exact ⟨fun x hx => hs x (List.mem_of_mem_tail hx), h0⟩

/-- The mean of finite entries is finite (R63). -/
theorem resMean_isFinite {buf : Vector F32 resLen} (h : ∀ x ∈ buf.toList, x.isFinite = true) :
    (resMean buf).isFinite = true :=
  absLe_maxFinite_iff.1 (absLe_sumOver (fun x hx => absLe_maxFinite_iff.2 (h x hx)) maxFinite_spec.1 maxFinite_spec.1
    (by simp) (mul_comm _ _).le)

/-- The filter does not overflow: at the largest finite values its two products, as rounded, add up to one (R145). -/
theorem lowPass_isFinite {m2 prev : F32} (hm : m2.isFinite = true) (hp : prev.isFinite = true) :
    (lowPass m2 prev).isFinite = true := by
  have halpha : absLe (c_LPF_ALPHA.mul m2) (c_LPF_ALPHA.mul maxFinite) :=
    (absLe_maxFinite_iff.2 hm).mul_const (by decide +kernel)
  have hbeta : absLe (c_LPF_BETA.mul prev) (c_LPF_BETA.mul maxFinite) :=
    (absLe_maxFinite_iff.2 hp).mul_const (by decide +kernel)
  exact absLe_maxFinite_iff.1 (halpha.add hbeta (by decide +kernel))

theorem filterOutput_isFinite (h : s.NoVoices) (hbuf : ∀ x ∈ s.resBuf.toList, x.isFinite = true)
    (hlpf : s.lpfPrev.isFinite = true) : (filterOutput cfg s).isFinite = true := by
  have hmean := resMean_isFinite (tickWith_resBuf_forall (cfg := cfg) h rfl hbuf)
  rw [tickWith_resBuf, mixed_of_noVoices h] at hmean
  rw [filterOutput, withResonance, mixed_of_noVoices h]
  exact lowPass_isFinite (F32.posZero_add hmean).1 hlpf

/-- The gain is below 1 (R146). -/
theorem masterGain_isFinite {y : F32} (h : y.isFinite = true) : (c_MASTER_GAIN.mul y).isFinite = true :=
  absLe_maxFinite_iff.1 ((absLe_self (by decide +kernel)).mul (absLe_maxFinite_iff.2 h) (by decide +kernel))

theorem masterGain_isZero {y : F32} (h : y.isZero = true) : (c_MASTER_GAIN.mul y).isZero = true := by
  cases y with
  | zero sign => cases sign <;> decide +kernel
  | _ => cases h

end silent

/-! ### The decay of the filter over an empty buffer -/

/-- No voice, an empty buffer, and a finite filter state of magnitude at most `b`. -/
structure State.Draining (b : ℚ) (s : State) : Prop where
  noVoices : s.NoVoices
  empty : ∀ x ∈ s.resBuf.toList, x = F32.posZero
  finite : s.lpfPrev.isFinite = true
  le : |s.lpfPrev.toRat| ≤ b

/-- The factor of one TICK on the filter state: `LPF_BETA` and one rounding are at most this. -/
def decayFactor : ℚ := 9000001 / 10000000

theorem beta_le_decayFactor :
    c_LPF_BETA.isFinite = true ∧ 0 ≤ c_LPF_BETA.toRat ∧ c_LPF_BETA.toRat ≤ decayFactor * (1 - 1 / 2 ^ 24) := by
  decide +kernel

section drain
variable {cfg : Cfg} {s : State} {b : ℚ}

/-- The mean of an empty buffer is +0 (R16). -/
theorem resMean_of_empty {buf : Vector F32 resLen} (h : ∀ x ∈ buf.toList, x = F32.posZero) :
    resMean buf = F32.posZero := by
  have hne : buf.toList ≠ [] := fun hnil => by simpa using congrArg List.length hnil
  obtain ⟨x, hx⟩ := List.exists_mem_of_ne_nil _ hne
  refine sumOver_zero (fun y hy => by rw [h y hy]; rfl) (List.sum_eq_zero fun q hq => ?_)
    (.inr ⟨x, hx, by rw [h x hx]; decide⟩)
  obtain ⟨y, hy, rfl⟩ := List.mem_map.1 hq
  rw [h y hy, F32.toRat_zero]

/-- The filter output is `LPF_BETA ⊗ LPF_PREV` added to +0 (R145). -/
theorem State.Draining.filterOutput_eq (h : s.Draining b) :
    filterOutput cfg s = F32.posZero.add (c_LPF_BETA.mul s.lpfPrev) := by
  have hmean := resMean_of_empty (tickWith_resBuf_forall (cfg := cfg) h.noVoices rfl h.empty)
  rw [tickWith_resBuf, mixed_of_noVoices h.noVoices] at hmean
  rw [filterOutput, withResonance, mixed_of_noVoices h.noVoices, hmean, lowPass,
    show c_LPF_ALPHA.mul (F32.posZero.add F32.posZero) = F32.posZero by decide +kernel]

/-- A TICK multiplies the bound by the factor. -/
theorem State.Draining.tick (h : s.Draining b) : (tickWith cfg s).Draining (decayFactor * b) := by
  obtain ⟨hbeta, hbeta0, hbetaLe⟩ := beta_le_decayFactor
  have hprod : (c_LPF_BETA.mul s.lpfPrev).isFinite = true :=
    absLe_maxFinite_iff.1 ((absLe_self (by decide +kernel)).mul (absLe_maxFinite_iff.2 h.finite) (by decide +kernel))
  obtain ⟨hfin, hval⟩ := F32.posZero_add hprod
  have hround := F32.abs_toRat_mul_le hbeta h.finite hprod
  have hle : c_LPF_BETA.toRat * |s.lpfPrev.toRat| ≤ decayFactor * (1 - 1 / 2 ^ 24) * b :=
    mul_le_mul hbetaLe h.le (abs_nonneg _) (hbeta0.trans hbetaLe)
  refine ⟨tickWith_noVoices h.noVoices, tickWith_resBuf_forall h.noVoices rfl h.empty, ?_, ?_⟩
  · rw [tickWith_lpfPrev, h.filterOutput_eq]
    exact hfin
  · rw [tickWith_lpfPrev, h.filterOutput_eq, hval]
    rw [abs_of_nonneg hbeta0] at hround
    linarith

theorem State.Draining.ticks (h : s.Draining b) (n : Nat) : ((tickWith cfg)^[n] s).Draining (decayFactor ^ n * b) := by
  induction n with
  | zero => simpa using h
  | succ n ih =>
    rw [Function.iterate_succ_apply', pow_succ', mul_assoc]
    exact ih.tick

/-- Every finite value lies below `2^128`. -/
theorem abs_toRat_le_of_isFinite {x : F32} (hx : x.isFinite = true) : |x.toRat| ≤ 2 ^ 128 :=
  ((absLe_maxFinite_iff.2 hx).toRat_le maxFinite_spec.1).trans (by decide +kernel)

/-- From `2^128` on, 1672 TICKs take the filter below the normal range. -/
theorem decayFactor_pow_lt : decayFactor ^ 1672 * 2 ^ 128 < 1 / 2 ^ 126 := by
  have h22 : decayFactor ^ 22 ≤ 98478 / 1000000 := by norm_num [decayFactor]
  have h0 : 0 ≤ decayFactor ^ 22 := by norm_num [decayFactor]
  calc decayFactor ^ 1672 * 2 ^ 128 = (decayFactor ^ 22) ^ 76 * 2 ^ 128 := by rw [← pow_mul]
    _ ≤ (98478 / 1000000) ^ 76 * 2 ^ 128 := by gcongr
    _ < 1 / 2 ^ 126 := by norm_num

/-- After 1672 TICKs the filter state is a zero. -/
theorem State.Draining.isZero_after (h : s.Draining (2 ^ 128)) {n : Nat} (hn : 1672 ≤ n) :
    ((tickWith cfg)^[n] s).lpfPrev.isZero = true := by
  have hdrain := h.ticks (cfg := cfg) n
  have hpow : decayFactor ^ n ≤ decayFactor ^ 1672 :=
    pow_le_pow_of_le_one (by norm_num [decayFactor]) (by norm_num [decayFactor]) hn
  refine F32.isZero_of_abs_lt hdrain.finite (hdrain.le.trans_lt ?_)
  linarith [decayFactor_pow_lt]

end drain

theorem performAll_ticks (n : Nat) (s : State) :
    performAll (List.replicate n .tick) s = .next ((tickWith Config.cfg)^[n] s) := by
  induction n generalizing s with
  | zero => rfl
  | succ n ih => rw [List.replicate_succ, performAll_cons _ (exec_tick s), ih, Function.iterate_succ_apply]

/-! ### The obligations -/

/-- Settles O40: +0 is pushed, and the mean, the filter and the gain of finite values are finite. -/
theorem silentTickStaysFinite : Obligations.SilentTickStaysFinite := by
  intro s hs hbuf hlpf
  have hfilter := filterOutput_isFinite (cfg := Config.cfg) hs hbuf hlpf
  refine ⟨_, _, exec_tick s, tickWith_noVoices hs, tickWith_resBuf_of_noVoices hs, tickWith_resBuf_forall hs rfl hbuf,
    hfilter, rfl, ?_⟩
  rw [ofBits_sampleWord]
  exact masterGain_isFinite hfilter

/-- Settles O41: each TICK takes the filter state down by a factor, which over 1672 TICKs spans the whole range of
binary32; the sample after that is the gain times the next filter state. -/
theorem filterDrainsWithin1672Ticks : Obligations.FilterDrainsWithin1672Ticks := by
  intro s hs hbuf hlpf n hn
  have hdrain : s.Draining (2 ^ 128) := ⟨hs, hbuf, hlpf, abs_toRat_le_of_isFinite hlpf⟩
  refine ⟨_, performAll_ticks n s, hdrain.isZero_after hn, _, _, exec_tick _, rfl, ?_⟩
  have hnext := hdrain.isZero_after (cfg := Config.cfg) (Nat.le_succ_of_le hn)
  rw [Function.iterate_succ_apply', tickWith_lpfPrev] at hnext
  rw [ofBits_sampleWord]
  exact masterGain_isZero hnext

end Sys2Proof.Machine
end

section
/-!
SUPPORT. The event adapter's conversions (spec/43_host_adapter.md rules R160 to R162): the integer root the model takes
is the whole part of the real frequency of a key in units of `2^-40`, and both ends of that unit round to `freqOf`.
-/

namespace Sys2Proof.Machine

/-! ### The integer root -/

/-- The search keeps the root of `t` between its lower end and `2 ^ bits` above it. -/
theorem rootBits_spec {k t : Nat} (bits : Nat) {acc : Nat} (hlo : acc ^ k ≤ t) (hhi : t < (acc + 2 ^ bits) ^ k) :
    rootBits k t bits acc ^ k ≤ t ∧ t < (rootBits k t bits acc + 1) ^ k := by
  induction bits generalizing acc with
  | zero => exact ⟨hlo, hhi⟩
  | succ bits ih =>
    rw [rootBits]
    split_ifs with hmid
    · exact ih hmid (by rwa [add_assoc, ← two_mul, ← pow_succ'])
    · exact ih hlo (not_le.1 hmid)

theorem freqPower_lt (m : Fin 128) : freqPower m < (2 ^ 56) ^ 12 :=
  calc freqPower m ≤ (2 ^ 9) ^ 12 * 2 ^ (411 + m.val) :=
        Nat.mul_le_mul_right _ (Nat.pow_le_pow_left (by norm_num) _)
    _ = 2 ^ (9 * 12 + (411 + m.val)) := by rw [← pow_mul, ← pow_add]
    _ < (2 ^ 56) ^ 12 := by rw [← pow_mul]; exact pow_lt_pow_right₀ one_lt_two (by omega)

theorem freqRoot_spec (m : Fin 128) : freqRoot m ^ 12 ≤ freqPower m ∧ freqPower m < (freqRoot m + 1) ^ 12 :=
  rootBits_spec 56 (Nat.zero_le _) (by rw [zero_add]; exact freqPower_lt m)

/-! ### The real frequency of a key -/

/-- The real frequency of a MIDI key in Hz (R161). -/
noncomputable def keyFrequency (m : Fin 128) : ℝ := 440 * (2 : ℝ) ^ (((m.val : ℝ) - 69) / 12)

theorem keyFrequency_nonneg (m : Fin 128) : 0 ≤ keyFrequency m := by
  unfold keyFrequency; positivity

/-- `freqPower` is the 12th power of the real frequency in units of `2^-40`. -/
theorem keyFrequency_units_pow (m : Fin 128) : (keyFrequency m * 2 ^ 40) ^ 12 = freqPower m := by
  have hoctave : ((2 : ℝ) ^ (((m.val : ℝ) - 69) / 12)) ^ 12 * 2 ^ 69 = 2 ^ m.val := by
    rw [← Real.rpow_mul_natCast (by norm_num), ← Real.rpow_natCast 2 69, ← Real.rpow_add (by norm_num),
      ← Real.rpow_natCast 2 m.val]
    congr 1
    push_cast
    ring
  have hgroup (a b x : ℝ) : (a * x * b ^ 40) ^ 12 = a ^ 12 * (b ^ 411 * (x ^ 12 * b ^ 69)) := by ring
  rw [keyFrequency, hgroup, hoctave, ← pow_add, freqPower, Nat.cast_mul, Nat.cast_pow, Nat.cast_pow, Nat.cast_ofNat,
    Nat.cast_ofNat]

/-- `freqRoot` is the whole part of the real frequency in units of `2^-40`. -/
theorem keyFrequency_units_bounds (m : Fin 128) :
    (freqRoot m : ℝ) ≤ keyFrequency m * 2 ^ 40 ∧ keyFrequency m * 2 ^ 40 ≤ freqRoot m + 1 := by
  obtain ⟨hlo, hhi⟩ := freqRoot_spec m
  have hunits : 0 ≤ keyFrequency m * 2 ^ 40 := mul_nonneg (keyFrequency_nonneg m) (by positivity)
  constructor
  · refine le_of_pow_le_pow_left₀ (n := 12) (by norm_num) hunits ?_
    rw [keyFrequency_units_pow]
    exact_mod_cast hlo
  · refine le_of_pow_le_pow_left₀ (n := 12) (by norm_num) (by positivity) ?_
    rw [keyFrequency_units_pow]
    exact_mod_cast hhi.le

/-! ### Rounding once -/

/-- No rounding boundary separates the two ends of the frequency's unit: evaluated for each of the 128 keys. -/
theorem F_unit_ends_eq_freqOf : ∀ m : Fin 128, F32.F (mkRat (freqRoot m) (2 ^ 40)) = freqOf m ∧
    F32.F (mkRat (freqRoot m + 1) (2 ^ 40)) = freqOf m := by decide +kernel

/-- The frequency is what two rationals around the real value both round to (R161). -/
theorem freqOf_bracketed (m : Fin 128) :
    ∃ lo hi : ℚ, (lo : ℝ) ≤ keyFrequency m ∧ keyFrequency m ≤ (hi : ℝ) ∧
      F32.F lo = freqOf m ∧ F32.F hi = freqOf m := by
  obtain ⟨hlo, hhi⟩ := keyFrequency_units_bounds m
  refine ⟨mkRat (freqRoot m) (2 ^ 40), mkRat (freqRoot m + 1) (2 ^ 40), ?_, ?_, F_unit_ends_eq_freqOf m⟩
  · rw [Rat.mkRat_eq_div]
    push_cast
    linarith
  · rw [Rat.mkRat_eq_div]
    push_cast
    linarith

theorem velOf_eq_F (v7 : Fin 128) : velOf v7 = F32.F ((v7.val : ℚ) / 127) := by
  rw [velOf, Rat.mkRat_eq_div, Int.cast_natCast, Nat.cast_ofNat]

/-! ### What the adapter sends -/

theorem toNat_midiKey (m : Fin 128) : (midiKey m).toNat = m.val := by
  rw [midiKey, BitVec.toNat_ofNat, Nat.mod_eq_of_lt (by omega)]

/-- Away from velocity 0 a note-on is a NOTE_ON, whatever `ADAPTER_VEL0_IS_OFF` is. -/
theorem adapterNoteOn_of_ne_zero (m : Fin 128) {v7 : Fin 128} (h : v7 ≠ 0) :
    adapterNoteOn m v7 = .noteOn (midiKey m) (freqOf m) (velOf v7) := by
  simp [adapterNoteOn, h]

theorem adapterNoteOn_zero_mem (m : Fin 128) :
    adapterNoteOn m 0 ∈ [Instr.noteOn (midiKey m) (freqOf m) (velOf 0), .noteOff (midiKey m)] := by
  unfold adapterNoteOn
  split_ifs
  · exact .tail _ (.head _)
  · exact .head _

/-- Settles O57: the real frequency lies in one unit of `2^-40`, whose ends round alike. -/
theorem adapterRoundsOnce : Obligations.AdapterRoundsOnce := fun m v7 =>
  ⟨freqOf_bracketed m, velOf_eq_F v7, toNat_midiKey m, adapterNoteOn_of_ne_zero m, adapterNoteOn_zero_mem m, rfl⟩

end Sys2Proof.Machine
end

section
/-!
SUPPORT. That nothing stops the block (spec/60_exceptions.md rule R170), and that an idle block with nothing arriving
stays as it is (rules R180 and R183).
-/

namespace Sys2Proof.Machine

/-- Every step completes: an idle one by the round that arrives, any other by the operation it performs (R170, R183). -/
theorem step_next (s : State) : ∃ t, step s = .next t := by
  rcases step_performs s with ⟨-, hidle⟩ | ⟨r, u, -, -, hperformed⟩
  · exact ⟨s.grant.2.arrive, hidle⟩
  · exact ⟨u.arrive, hperformed⟩

/-- Settles O50: every operation answers a next state, and a step performs one operation at most. -/
theorem nothingEverStops : Obligations.NothingEverStops := ⟨exec_next, step_next⟩

/-- Settles O51: an idle step lets the next round arrive, and there is none. -/
theorem idleKeepsState : Obligations.IdleKeepsState := by
  intro s hreset hevent hsample harrivals
  calc step s
    _ = .next s.arrive := (idle_step hreset hevent hsample).2
    _ = .next s := by rw [arrive_of_nil harrivals]

end Sys2Proof.Machine
end

section
/-!
SUPPORT. RESET and the silence after it, and a note-on with its note-off before any TICK (spec/70_reset_and_hazards.md
rules R190, R194 and R196).
-/

namespace Sys2Proof.Machine

/-! ### What RESET leaves (R37, R190) -/

@[simp] theorem resetState_block (s : State) : (resetState s).block = State.reset.block := rfl

@[simp] theorem resetState_voiceCount (s : State) : (resetState s).voiceCount = 0#9 := by
  rw [State.voiceCount, validCount_of_noVoices (resetState_slot s)]

/-- A response already produced is kept or dropped (R190, 93 U13). -/
theorem resetState_sampleOut (s : State) :
    (resetState s).sampleOut = s.sampleOut ∨ (resetState s).sampleOut = none := by
  rw [resetState]
  exact ite_eq_or_eq _ _ _

theorem zeroBuffer_toList : zeroBuffer.toList = List.replicate resLen F32.posZero := Vector.toList_replicate

theorem eq_posZero_of_mem_zeroBuffer {x : F32} (hx : x ∈ zeroBuffer.toList) : x = F32.posZero := by
  rw [zeroBuffer_toList] at hx
  exact List.eq_of_mem_replicate hx

/-- While reset is asserted a step is RESET and the round that arrives (R175, R190). -/
theorem step_of_reset {s : State} (h : s.resetLine = true) : step s = .next (resetState s).arrive :=
  step_of_grant (grant_of_reset h)

/-! ### TICK on the reset block (R194) -/

section silence
variable {cfg : Cfg} {s : State}

theorem block_eq_reset_iff :
    s.block = State.reset.block ↔ s.NoVoices ∧ s.resBuf = zeroBuffer ∧ s.lpfPrev = F32.posZero := by
  constructor
  · intro h
    have hslots : s.slots = State.reset.slots := congrArg (·.1) h
    exact ⟨fun k => by rw [State.slot, hslots]; exact reset_slot k, congrArg (·.2.1) h, congrArg (·.2.2) h⟩
  · rintro ⟨hslots, hbuf, hlpf⟩
    have hempty : s.slots = State.reset.slots := slots_ext fun k => (hslots k).trans (reset_slot k).symm
    rw [State.block, hempty, hbuf, hlpf]
    rfl

/-- Pushing +0 into an empty buffer leaves it as it is (R143). -/
theorem tickBuffer_zeroBuffer : tickBuffer zeroBuffer F32.posZero = zeroBuffer := by
  rw [← Vector.toList_inj, tickBuffer_posZero, zeroBuffer_toList, List.tail_replicate, ← List.replicate_succ',
    Nat.sub_add_cancel (by decide)]

/-- Over the reset block the filter stays at +0 (R145). -/
theorem filterOutput_of_reset_block (h : s.block = State.reset.block) : filterOutput cfg s = F32.posZero := by
  obtain ⟨hslots, hbuf, hlpf⟩ := block_eq_reset_iff.1 h
  have hdrain : s.Draining 0 :=
    ⟨hslots, fun x hx => eq_posZero_of_mem_zeroBuffer (hbuf ▸ hx), by rw [hlpf]; rfl, by simp [hlpf]⟩
  rw [hdrain.filterOutput_eq, hlpf]
  decide +kernel

theorem tickWith_block_of_reset_block (h : s.block = State.reset.block) :
    (tickWith cfg s).block = State.reset.block := by
  obtain ⟨hslots, hbuf, -⟩ := block_eq_reset_iff.1 h
  refine block_eq_reset_iff.2 ⟨tickWith_noVoices hslots, ?_, filterOutput_of_reset_block h⟩
  rw [tickWith_resBuf, mixed_of_noVoices hslots, hbuf, tickBuffer_zeroBuffer]

/-- The sample of the reset block is +0, and its word is all zeros (R146). -/
theorem tickWith_sampleOut_of_reset_block (h : s.block = State.reset.block) :
    (tickWith cfg s).sampleOut = some 0#32 := by
  have hgain : c_MASTER_GAIN.mul F32.posZero = F32.posZero := by decide +kernel
  rw [tickWith_sampleOut, sampleValue, filterOutput_of_reset_block h, hgain]
  rfl

end silence

/-! ### A voice that the next TICK removes (R131, R196) -/

section removed
variable {cfg : Cfg} {s s' : State} {k : SlotIndex} {v : Voice}

/-- The later of two writes to a slot decides. -/
@[simp] theorem setSlot_setSlot (s : State) (k : SlotIndex) (a b : Option Voice) :
    (s.setSlot k a).setSlot k b = s.setSlot k b := by
  simp [State.setSlot]

/-- What a TICK does with the slots one by one, with `RES_BUF` and `LPF_PREV`, decides the block after it (R130). -/
theorem tickWith_block_congr
    (h : ∀ j, (s.slot j).bind (voiceTick cfg j) = (s'.slot j).bind (voiceTick cfg j))
    (hbuf : s.resBuf = s'.resBuf) (hlpf : s.lpfPrev = s'.lpfPrev) :
    (tickWith cfg s).block = (tickWith cfg s').block := by
  have hticks : slotTicks cfg s.slots = slotTicks cfg s'.slots := by
    refine List.ext_getElem (by rw [slotTicks_length, slotTicks_length]) fun j hj hj' => ?_
    rw [slotTicks_length] at hj
    exact (getElem_slotTicks cfg _ ⟨j, hj⟩ _).trans ((h ⟨j, hj⟩).trans (getElem_slotTicks cfg _ ⟨j, hj⟩ _).symm)
  simp only [State.block, tickWith_slots, tickWith_resBuf, tickWith_lpfPrev, tickSlots, filterOutput, mixed,
    contributions, hticks, hbuf, hlpf]

/-- A voice that a TICK removes counts for it as an invalid slot (R131, R142). -/
theorem tickWith_block_of_removed (h : voiceTick cfg k v = none) :
    (tickWith cfg (s.setSlot k (some v))).block = (tickWith cfg (s.setSlot k none)).block := by
  refine tickWith_block_congr (fun j => ?_) rfl rfl
  by_cases hj : j = k
  · rw [hj, slot_setSlot_same, slot_setSlot_same, Option.bind_some, h, Option.bind_none]
  · rw [slot_setSlot_of_ne _ _ _ hj, slot_setSlot_of_ne _ _ _ hj]

/-- A release step from +0 stays at +0 (R108). -/
theorem releaseStep_posZero (hl : cfg.toParams.legal = true) : releaseStep cfg F32.posZero = F32.posZero := by
  obtain ⟨hfin, hsign⟩ := relK_finite hl
  rw [releaseStep, (F32.mul_zero_finite false hfin).2, hsign]
  decide +kernel

/-- A voice in RELEASE at +0 is removed by the next TICK (R108, R131). -/
theorem voiceTick_of_release_posZero (hl : cfg.toParams.legal = true) (hs : v.envState = .release)
    (hamp : v.envAmp = F32.posZero) : voiceTick cfg k v = none := by
  refine (voiceTick_eq_none (by simp [hs])).2 ⟨hs, ?_⟩
  rw [hamp, releaseStep_posZero hl]
  decide +kernel

end removed

/-- A note-on and its note-off write the started voice, released (R120, R121). -/
theorem performAll_noteOn_noteOff (key : Key) (freq vel : F32) (s : State) :
    performAll [.noteOn key freq vel, .noteOff key] s =
      .next (s.setSlot (slotIndex key) (some (envRelease (envTrigger (newVoice freq vel))))) := by
  rw [performAll_cons _ (exec_noteOn ..), performAll_cons _ (exec_noteOff ..), performAll_nil, slot_setSlot_same,
    Option.map_some, setSlot_setSlot]

/-! ### The obligations -/

/-- Settles O35: RESET writes the reset block and leaves the ports alone, and the arbiter grants it before either port. -/
theorem resetRule : Obligations.ResetRule := by
  refine fun s => ⟨⟨_, exec_reset s, resetState_slot s, fun x => eq_posZero_of_mem_zeroBuffer, rfl,
    resetState_voiceCount s, resetState_block s, rfl, rfl, rfl, rfl, resetState_sampleOut s, _, exec_reset _, rfl⟩,
    fun hreset => ⟨_, step_of_reset hreset, ?_, ⟨_, arrive_eventPort _⟩, ?_⟩⟩
  · rw [arrive_block, resetState_block]
  · rw [arrive_samplePort]
    exact Nat.le_add_right _ _

/-- Settles O36: a TICK of the reset block mixes, filters and returns +0, NOTE_OFF finds no voice, and RESET writes the
same block again. -/
theorem silenceUntilNoteOn : Obligations.SilenceUntilNoteOn := by
  intro s i hs hon
  cases i with
  | noteOn key freq vel => exact absurd rfl (hon key freq vel)
  | noteOff key =>
    have habsent : s.slot (slotIndex key) = none := (block_eq_reset_iff.1 hs).1 _
    refine ⟨s, ?_, hs, nofun⟩
    rw [exec_noteOff, habsent, Option.map_none, ← habsent, setSlot_slot_self]
  | tick =>
    exact ⟨_, exec_tick s, tickWith_block_of_reset_block hs, fun _ => tickWith_sampleOut_of_reset_block hs⟩
  | reset => exact ⟨_, exec_reset s, resetState_block s, nofun⟩
  | _ => exact ⟨s, rfl, hs, nofun⟩

/-- Settles O37: the voice is in RELEASE at +0, which a TICK removes and so treats as an invalid slot. -/
theorem noteOnThenOffIsSilent : Obligations.NoteOnThenOffIsSilent := by
  intro key freq vel s
  have hgone : voiceTick Config.cfg (slotIndex key) (envRelease (envTrigger (newVoice freq vel))) = none :=
    voiceTick_of_release_posZero cfg_legal rfl rfl
  refine ⟨_, _, _, performAll_noteOn_noteOff key freq vel s, slot_setSlot_same .., exec_tick _, ?_, exec_tick _,
    tickWith_block_of_removed hgone⟩
  rw [tickWith_slot_of_some (slot_setSlot_same ..), hgone, Option.map_none]

end Sys2Proof.Machine
end
